-- ==== Sys2Proof/Word.lean ====
section
/-! DEFINITION. The unit of every bus access (a byte), the 16-bit quantities and pin levels. -/

namespace Sys2Proof

/-- "A *byte* is 8 bits" (R7). -/
abbrev Byte := BitVec 8

/-- A 16-bit quantity: the `LEN` field, a configuration register, a coordinate, a colour (R7, R14, R50). -/
abbrev Half := BitVec 16

/-- "A pin level is `0` (low) or `1` (high)" (R7). -/
inductive Level where
  | low
  | high
  deriving DecidableEq, Repr, Inhabited

end Sys2Proof
end

