-- ==== Sys2Proof/Config.lean ====
section
/-! DEFINITION. The parameters of the block (R6), the oracle's answers (R23) and the values left open. -/

namespace Sys2Proof

/-- R6, R143: the primitive steps that can report a `TransportFault`. -/
inductive FaultPoints where
  | serialOnly
  | allPrimitives
  deriving DecidableEq, Repr, Inhabited

/-- R6, R79: the transport variant; no rule reads it. -/
inductive Variant where
  | blocking
  | suspending
  deriving DecidableEq, Repr, Inhabited

/-- The parameter rows of R6 that a model takes as arguments. No step changes them. -/
structure Params where
  /-- `FAULT_POINTS` (D14) -/
  faultPoints : FaultPoints
  /-- `DUMMY` (D7) -/
  dummy : Byte
  /-- `VARIANT` (D27) -/
  variant : Variant
  /-- `F_SCK` in hertz; "no rule depends on it" (R6) -/
  sckHz : Nat
  /-- `INIT_TABLE` (R35, D25) -/
  initTable : List (Byte × List Byte)
  /-- `DIAG_LIST` (R113, D24): panel opcode and count of each diagnostic read -/
  diagList : List (Byte × Half)
  deriving DecidableEq, Repr, Inhabited

/-- One answer of the oracle (R23), drawn by one sequencer step. -/
structure Answer where
  /-- whether this step reports a fault (R143, U13) -/
  fault : Bool
  /-- the level of `SDI` at the eight rising edges of this step's byte: bit `i` is the level while bit `i` moves (R71, R75, U11) -/
  sdi : Byte
  /-- the level `SDO` is left at after this step's byte, or its fault (U3, U19) -/
  sdo : Level
  deriving DecidableEq, Repr, Inhabited

/-- The oracle of R23: the answer to the `n`th question is a free value. -/
opaque Config.oracle : Nat → Answer

/-- The time in ms that passes beyond every lower bound is a sum of these free values, non-negative reals (R21, R78, R23,
U12; log 4). -/
opaque Config.duration : Nat → NNReal

/-- `VARIANT`: OPEN (R6, D27). -/
opaque Config.variant : Variant

/-- `F_SCK`: OPEN (R6). -/
opaque Config.sckHz : Nat

/-- `INIT_TABLE`: OPEN (R6, D25). -/
opaque Config.initTable : List (Byte × List Byte)

/-- `DIAG_LIST`: OPEN (R6, D24). -/
opaque Config.diagList : List (Byte × Half)

end Sys2Proof
end

