-- ==== Sys2Proof/Syntax.lean ====
section
/-! DEFINITION. The operations of the block as data: one constructor per row of spec/opcode_table.json. -/

namespace Sys2Proof

/-- The thirteen operations of R55, then the ten alias names of R58. Inline bytes are the operand buffer `OPBUF`
(R17), `count` and `value` are the `LEN` field (R50), `reg` is a configuration register number 0 to 3 (R14). -/
inductive Instr where
  /-- R80 -/
  | csAssert
  /-- R81 -/
  | csDeassert
  /-- R82 -/
  | selectCommand
  /-- R83 -/
  | selectData
  /-- R84 -/
  | write (bytes : List Byte)
  /-- R85 -/
  | transfer (bytes : List Byte)
  /-- R90 -/
  | command (opcode : Byte) (payload : List Byte)
  /-- R92 -/
  | readRegister (opcode : Byte) (count : Half)
  /-- R93 -/
  | writeData (bytes : List Byte)
  /-- R100 -/
  | hwReset
  /-- R101 -/
  | swReset
  /-- R135 -/
  | cfgWrite (reg : Fin 4) (value : Half)
  /-- R136 -/
  | cfgRead (reg : Fin 4)
  /-- R58: `COMMAND 0x00, []` -/
  | noop
  /-- R58: `COMMAND 0x11, []` -/
  | sleepOut
  /-- R58: `COMMAND 0x29, []` -/
  | displayOn
  /-- R58: `COMMAND 0x2A, be16(a) ++ be16(b)` -/
  | columnAddressSet (a b : Half)
  /-- R58: `COMMAND 0x2B, be16(a) ++ be16(b)` -/
  | pageAddressSet (a b : Half)
  /-- R58: `COMMAND 0x2C, []` -/
  | memoryWrite
  /-- R58: `READ_REGISTER 0x09, n` -/
  | readStatus (count : Half)
  /-- R58: `READ_REGISTER 0x0A, n` -/
  | readPowerMode (count : Half)
  /-- R58: `READ_REGISTER 0x0B, n` -/
  | readMadctl (count : Half)
  /-- R58: `READ_REGISTER 0x0C, n` -/
  | readPixelFormat (count : Half)
  deriving DecidableEq, Repr, Inhabited

end Sys2Proof
end

