-- ==== Sys2Proof/Machine/State.lean ====
section
/-! DEFINITION. The state of the block (R10), its ghost state (R20, R21), the host agent (R88), and reset (R26). -/

namespace Sys2Proof.Machine

/-- The output pins (R11). `SDI` is an input the oracle drives (R12, R23). -/
structure Pins where
  cs : Level
  dc : Level
  rst : Level
  bl : Level
  sck : Level
  sdo : Level
  deriving DecidableEq, Repr, Inhabited

/-- The pins a `Drive` primitive can name (R70, R72). -/
inductive ControlLine where
  | cs
  | dc
  | rst
  deriving DecidableEq, Repr, Inhabited

/-- The four 16-bit configuration registers `CR0` to `CR3` (R14). -/
structure Cfg where
  /-- `CR0`, `CTRL` -/
  ctrl : Half
  /-- `CR1`, `T_RST_LOW` -/
  tRstLow : Half
  /-- `CR2`, `T_RST_HIGH` -/
  tRstHigh : Half
  /-- `CR3`, `T_SWRST` -/
  tSwrst : Half
  deriving DecidableEq, Repr, Inhabited

/-- The operation latches (R17). -/
structure Latches where
  opc : Byte
  arg : Byte
  len : Half
  opbuf : List Byte
  deriving DecidableEq, Repr, Inhabited

/-- The primitives of R70. -/
inductive Prim where
  /-- R72 -/
  | drive (line : ControlLine) (level : Level)
  /-- R73 -/
  | busWrite (bytes : List Byte)
  /-- R74 -/
  | busTransfer (bytes : List Byte)
  /-- R78 -/
  | wait (ms : Half)
  /-- R137 -/
  | cfgWrite (reg : Fin 4) (value : Half)
  /-- R137 -/
  | cfgRead (reg : Fin 4)
  deriving DecidableEq, Repr, Inhabited

/-- The micro-sequencer position (R19). -/
inductive Seq where
  | idle
  | running (plist : List Prim) (upc bidx : Nat)
  deriving DecidableEq, Repr, Inhabited

/-- The events of the trace (R20). -/
inductive Event where
  /-- `CS=l`, `DC=l`, `RST=l` -/
  | drive (line : ControlLine) (level : Level)
  /-- `BL=l` -/
  | backlight (level : Level)
  /-- `TX(b)` -/
  | tx (b : Byte)
  /-- `XF(t>r)` -/
  | xf (t r : Byte)
  /-- `WAIT(d)` -/
  | wait (ms : Half)
  /-- `FAULT` -/
  | fault
  deriving DecidableEq, Repr, Inhabited

/-- The result codes of R140. No step produces `timingAssumptionViolated` (R142). -/
inductive ResultCode where
  | ok
  | transportFault
  | unsupportedOperation
  | timingAssumptionViolated
  deriving DecidableEq, Repr, Inhabited

/-- The completion record (R18). -/
structure Completion where
  code : ResultCode
  rx : List Byte
  deriving DecidableEq, Repr, Inhabited

/-- The window bounds of CLEAR (R120). -/
structure AddressWindow where
  x0 : Half
  y0 : Half
  x1 : Half
  y1 : Half
  deriving DecidableEq, Repr, Inhabited

/-- The two host-side macros (R62): `INIT pre, post` (R112) and `CLEAR x0, y0, x1, y1, colour` (R125). -/
inductive Macro where
  | init (pre post : Bool)
  | clear (window : AddressWindow) (colour : Half)
  deriving DecidableEq, Repr, Inhabited

/-- A macro in progress: `index` descriptors of its expansion have completed with code 0. The table index of R112 and
the chunk counter of R124 are this index less the descriptors before the table or the chunks. -/
structure Job where
  call : Macro
  index : Nat
  deriving DecidableEq, Repr, Inhabited

/-- One move of the host's program (R19, R62, R88). -/
inductive HostMove where
  /-- submit the descriptors that stand in these bytes, one after another (R50, R53) -/
  | submit (bytes : List Byte)
  /-- run a macro -/
  | call (m : Macro)
  deriving DecidableEq, Repr, Inhabited

/-- The one host agent (R150): what it has still to submit, the macro it is in, and what it has been handed. The
block holds none of this: "the position inside a *program* is kept by the host" (R19). -/
structure HostAgent where
  program : List HostMove
  job : Option Job
  /-- the completion records handed over, oldest first (R18, R88) -/
  completions : List Completion
  /-- the codes the macros have ended with, oldest first (R114, R126, R131) -/
  macroEnds : List ResultCode
  deriving DecidableEq, Repr, Inhabited

/-- A time (R21), as plain data: the real number that is `fixed` ms, the waits' own lower bounds, and the free durations
`Config.duration` number `first` to `first + passed - 1`, one for each step that has let time pass since block reset.
`Time.ms` is that number (log 4). -/
structure Time where
  fixed : Nat
  first : Nat
  passed : Nat
  deriving DecidableEq, Repr, Inhabited

/-- Everything the spec gives the machine. `pins` to `seq` are the block (R10), `trace`, `stamps` and `now` its ghost
state (R20, R21), `host` the host agent (R88), `params` the parameters (R6), `resetInput` the platform's block-reset
input (R170), `answers` and `draws` the oracle (R23). -/
structure State where
  pins : Pins
  cfg : Cfg
  latches : Latches
  /-- the result buffer `RX` (R18) -/
  rx : List Byte
  seq : Seq
  /-- the events since block reset, oldest first (R20) -/
  trace : List Event
  /-- the time at which each event of `trace` was appended (log 5) -/
  stamps : List Time
  now : Time
  host : HostAgent
  params : Params
  resetInput : Bool
  /-- oracle answers already fixed, next one first; past its end the answers are `Config.oracle` (log 3) -/
  answers : List Answer
  /-- how many answers have been drawn since the machine came to be -/
  draws : Nat
  deriving DecidableEq, Repr, Inhabited

/-- What stops the machine. A `TransportFault` is no such thing: it is a completion code and the block goes on (R146). -/
inductive Fault where
  /-- Raised by the step that finds, where the host's next descriptor should start, fewer bytes than a header or than
  the header's inline bytes. "An index outside that range cannot be formed by any rule" (R32). Safe: the machine stops. -/
  | truncatedDescriptor
  deriving DecidableEq, Repr

/-- Why a step has no meaning. -/
inductive Refusal where
  /-- Raised by an arm of `exec` whose instruction has no meaning yet. Safe: the machine stops. -/
  | notModelled (mnemonic : String)
  /-- Raised by the host step that starts INIT with an `INIT_TABLE` that does not end with `(0x11, [])`, `(0x29, [])`,
  or with an entry no descriptor can carry (R111, U17: `refuse`). Safe: the machine stops. -/
  | initTableOutsidePremises
  /-- Raised by the host step that starts INIT with a `DIAG_LIST` opcode outside 0x09 to 0x0C (R113, U17: `refuse`).
  Safe: the machine stops. -/
  | diagListOutsidePremises
  deriving DecidableEq, Repr

/-- R26: the pin levels after block reset. -/
def Pins.reset : Pins := ⟨.high, .high, .high, .low, .low, .low⟩

/-- R15: `CR0 = 0x0000`, `CR1 = 0x0032`, `CR2 = 0x0032`, `CR3 = 0x0078`. -/
def Cfg.reset : Cfg := ⟨0x0000, 0x0032, 0x0032, 0x0078⟩

/-- R26: the state after block reset. The latches' values are DESIGN CHOICE (log 6: the spec leaves them unspecified
and never reads them), the host's program is empty (log 7), the OPEN parameters are free values (R6). -/
def State.reset : State where
  pins := Pins.reset
  cfg := Cfg.reset
  latches := ⟨0, 0, 0, []⟩
  rx := []
  seq := .idle
  trace := []
  stamps := []
  now := ⟨0, 0, 0⟩
  host := ⟨[], none, [], []⟩
  params := ⟨.serialOnly, 0x00, Config.variant, Config.sckHz, Config.initTable, Config.diagList⟩
  resetInput := false
  answers := []
  draws := 0

/-! The plain record updates; their lemmas are in Laws/State.lean. -/

def State.withPins (s : State) (v : Pins) : State := { s with pins := v }
def State.withCfg (s : State) (v : Cfg) : State := { s with cfg := v }
def State.withLatches (s : State) (v : Latches) : State := { s with latches := v }
def State.withRx (s : State) (v : List Byte) : State := { s with rx := v }
def State.withSeq (s : State) (v : Seq) : State := { s with seq := v }
def State.withTrace (s : State) (v : List Event) : State := { s with trace := v }
def State.withStamps (s : State) (v : List Time) : State := { s with stamps := v }
def State.withNow (s : State) (v : Time) : State := { s with now := v }
def State.withHost (s : State) (v : HostAgent) : State := { s with host := v }
def State.withParams (s : State) (v : Params) : State := { s with params := v }
def State.withResetInput (s : State) (v : Bool) : State := { s with resetInput := v }
def State.withAnswers (s : State) (v : List Answer) : State := { s with answers := v }
def State.withDraws (s : State) (v : Nat) : State := { s with draws := v }

end Sys2Proof.Machine
end

