-- ==== Sys2Proof/Machine/Flags.lean ====
section
/-! DEFINITION. The block has no flags (R24). What stands in their place: the numeric result code, and the model's
own fault observation over the completions (R147). -/

namespace Sys2Proof.Machine

/-- R140: the 2-bit numeric code. -/
def ResultCode.bits : ResultCode → BitVec 2
  | .ok => 0
  | .transportFault => 1
  | .unsupportedOperation => 2
  | .timingAssumptionViolated => 3

/-- R24, R147: the disjunction over all completions so far of `code != 0`. -/
def HostAgent.faulted (h : HostAgent) : Bool := h.completions.any fun c => c.code != .ok

end Sys2Proof.Machine
end

