-- ==== Sys2Proof/WellFormed.lean ====
section
/-! DEFINITION. Which instruction terms a descriptor can carry, under the one name the decoder gives each word. -/

namespace Sys2Proof

/-- R51: "`LEN` is 16 bits wide, so one operation moves at most 65535 bytes". -/
def fitsLen (bytes : List Byte) : Bool := bytes.length < 65536

/-- The COMMAND descriptors that R58 gives a name of their own. -/
def aliasedCommand (opcode : Byte) (payload : List Byte) : Bool :=
  (payload.length == 0 && [0x00, 0x11, 0x29, 0x2C].contains opcode) ||
  (payload.length == 4 && [0x2A, 0x2B].contains opcode)

/-- The READ_REGISTER descriptors that R58 gives a name of their own. -/
def aliasedRead (opcode : Byte) : Bool := [0x09, 0x0A, 0x0B, 0x0C].contains opcode

/-- A term is well formed when its byte list fits `LEN` (R51) and it is written with the alias name where R58 gives
its words one (DESIGN CHOICE, log 2: an alias row and its base row share words, and the decoder answers the alias). -/
def Instr.wellFormed : Instr → Bool
  | .write bytes | .transfer bytes | .writeData bytes => fitsLen bytes
  | .command opcode payload => fitsLen payload && !aliasedCommand opcode payload
  | .readRegister opcode _ => !aliasedRead opcode
  | .csAssert | .csDeassert | .selectCommand | .selectData | .hwReset | .swReset
  | .cfgWrite _ _ | .cfgRead _ | .noop | .sleepOut | .displayOn
  | .columnAddressSet _ _ | .pageAddressSet _ _ | .memoryWrite
  | .readStatus _ | .readPowerMode _ | .readMadctl _ | .readPixelFormat _ => true

end Sys2Proof
end

