-- ==== Sys2Proof/Decode.lean ====
section
/-! DEFINITION. Descriptors: header fields, the decoder (total on any bytes), the encoder, and the table of R55. -/

namespace Sys2Proof

/-- R7: `be16(v)` is `[v[15:8], v[7:0]]`, the high byte first. -/
def be16 (v : Half) : List Byte := [v.extractLsb' 8 8, v.extractLsb' 0 8]

/-- The 16-bit value of two bytes, the high byte first (R50: header byte 2 is `LEN[15:8]`, byte 3 is `LEN[7:0]`). -/
def ofBe16 (hi lo : Byte) : Half := hi ++ lo

/-- The `LEN` field of a byte list (R50). -/
def lenOf (bytes : List Byte) : Half := BitVec.ofNat 16 bytes.length

/-- R50: the four header bytes of `OPC`, `ARG` and `LEN`. -/
def header (opc arg : Byte) (len : Half) : List Byte := opc :: arg :: be16 len

/-- R50: the header read as the 32-bit word `H = OPC * 2^24 + ARG * 2^16 + LEN`. -/
def headerWord (opc arg : Byte) (len : Half) : BitVec 32 := opc ++ arg ++ len

/-- What the decoder says of a byte list. -/
inductive DecodeResult where
  /-- an operation, and the bytes after its descriptor -/
  | instr (i : Instr) (rest : List Byte)
  /-- the header matches no row of R55 (R56); the bytes after the four skipped ones (R53) -/
  | unsupported (rest : List Byte)
  /-- fewer bytes than the header, or than its `LEN` inline bytes: no descriptor -/
  | truncated
  deriving DecidableEq, Repr

/-- Format N (R52): `ARG` and `LEN` must be zero. -/
def decodeN (i : Instr) (arg : Byte) (len : Half) (rest : List Byte) : DecodeResult :=
  if arg = 0 ∧ len = 0 then .instr i rest else .unsupported rest

/-- The `LEN` inline bytes after the header (R50). -/
def decodeInline (f : List Byte → Instr) (len : Half) (rest : List Byte) : DecodeResult :=
  if len.toNat ≤ rest.length then .instr (f (rest.take len.toNat)) (rest.drop len.toNat) else .truncated

/-- Format B (R52): `ARG` must be zero, `LEN` bytes follow. -/
def decodeB (f : List Byte → Instr) (arg : Byte) (len : Half) (rest : List Byte) : DecodeResult :=
  if arg = 0 then decodeInline f len rest else .unsupported rest

/-- Format GW (R52): the register number is 0 to 3. -/
def decodeGW (arg : Byte) (len : Half) (rest : List Byte) : DecodeResult :=
  if h : arg.toNat < 4 then .instr (.cfgWrite ⟨arg.toNat, h⟩ len) rest else .unsupported rest

/-- Format GR (R52): the register number is 0 to 3 and `LEN` is zero. -/
def decodeGR (arg : Byte) (len : Half) (rest : List Byte) : DecodeResult :=
  if h : arg.toNat < 4 ∧ len = 0 then .instr (.cfgRead ⟨arg.toNat, h.1⟩) rest else .unsupported rest

/-- A COMMAND of an opcode and a payload, under its alias name where R58 gives it one. -/
def commandInstr (opcode : Byte) (payload : List Byte) : Instr :=
  match payload with
  | [] =>
    if opcode = 0x00 then .noop
    else if opcode = 0x11 then .sleepOut
    else if opcode = 0x29 then .displayOn
    else if opcode = 0x2C then .memoryWrite
    else .command opcode []
  | [p, q, r, t] =>
    if opcode = 0x2A then .columnAddressSet (ofBe16 p q) (ofBe16 r t)
    else if opcode = 0x2B then .pageAddressSet (ofBe16 p q) (ofBe16 r t)
    else .command opcode [p, q, r, t]
  | bytes => .command opcode bytes

/-- A READ_REGISTER of an opcode and a count, under its alias name where R58 gives it one. -/
def readInstr (opcode : Byte) (count : Half) : Instr :=
  if opcode = 0x09 then .readStatus count
  else if opcode = 0x0A then .readPowerMode count
  else if opcode = 0x0B then .readMadctl count
  else if opcode = 0x0C then .readPixelFormat count
  else .readRegister opcode count

/-- R54, R55: the operation of a header, by its `OPC`; every `OPC` not listed is illegal (R56). -/
def decodeHeader (opc arg : Byte) (len : Half) (rest : List Byte) : DecodeResult :=
  if opc = 0x01 then decodeN .csAssert arg len rest
  else if opc = 0x02 then decodeN .csDeassert arg len rest
  else if opc = 0x03 then decodeN .selectCommand arg len rest
  else if opc = 0x04 then decodeN .selectData arg len rest
  else if opc = 0x05 then decodeB .write arg len rest
  else if opc = 0x06 then decodeB .transfer arg len rest
  else if opc = 0x10 then decodeInline (commandInstr arg) len rest
  else if opc = 0x11 then .instr (readInstr arg len) rest
  else if opc = 0x12 then decodeB .writeData arg len rest
  else if opc = 0x20 then decodeN .hwReset arg len rest
  else if opc = 0x21 then decodeN .swReset arg len rest
  else if opc = 0x50 then decodeGW arg len rest
  else if opc = 0x51 then decodeGR arg len rest
  else .unsupported rest

/-- R53, R54: the first descriptor of a byte list. -/
def decode : List Byte → DecodeResult
  | opc :: arg :: hi :: lo :: rest => decodeHeader opc arg (ofBe16 hi lo) rest
  | _ => .truncated

/-- The descriptor of an instruction, written from the tables of R50, R52, R55 and R58. -/
def encode : Instr → List Byte
  | .csAssert => header 0x01 0 0
  | .csDeassert => header 0x02 0 0
  | .selectCommand => header 0x03 0 0
  | .selectData => header 0x04 0 0
  | .write bytes => header 0x05 0 (lenOf bytes) ++ bytes
  | .transfer bytes => header 0x06 0 (lenOf bytes) ++ bytes
  | .command opcode payload => header 0x10 opcode (lenOf payload) ++ payload
  | .readRegister opcode count => header 0x11 opcode count
  | .writeData bytes => header 0x12 0 (lenOf bytes) ++ bytes
  | .hwReset => header 0x20 0 0
  | .swReset => header 0x21 0 0
  | .cfgWrite reg value => header 0x50 (BitVec.ofNat 8 reg) value
  | .cfgRead reg => header 0x51 (BitVec.ofNat 8 reg) 0
  | .noop => header 0x10 0x00 0
  | .sleepOut => header 0x10 0x11 0
  | .displayOn => header 0x10 0x29 0
  | .columnAddressSet a b => header 0x10 0x2A 4 ++ (be16 a ++ be16 b)
  | .pageAddressSet a b => header 0x10 0x2B 4 ++ (be16 a ++ be16 b)
  | .memoryWrite => header 0x10 0x2C 0
  | .readStatus count => header 0x11 0x09 count
  | .readPowerMode count => header 0x11 0x0A count
  | .readMadctl count => header 0x11 0x0B count
  | .readPixelFormat count => header 0x11 0x0C count

/-- The inline bytes of an instruction, the `OPBUF` of R17 (empty for formats N, R, GW, GR; R52). -/
def Instr.inlineBytes : Instr → List Byte
  | .write bytes | .transfer bytes | .writeData bytes | .command _ bytes => bytes
  | .columnAddressSet a b | .pageAddressSet a b => be16 a ++ be16 b
  | .csAssert | .csDeassert | .selectCommand | .selectData | .readRegister _ _ | .hwReset | .swReset
  | .cfgWrite _ _ | .cfgRead _ | .noop | .sleepOut | .displayOn | .memoryWrite
  | .readStatus _ | .readPowerMode _ | .readMadctl _ | .readPixelFormat _ => []

/-- One base row of R55. -/
structure Row where
  mnemonic : String
  pattern : BitVec 32
  mask : BitVec 32
  deriving DecidableEq, Repr

/-- R54: `H & mask = match`. -/
def Row.matches (r : Row) (h : BitVec 32) : Bool := h &&& r.mask == r.pattern

/-- The thirteen base rows of R55, as the table lists them. -/
def baseRows : List Row :=
  [⟨"CS_ASSERT", 0x01000000, 0xFFFFFFFF⟩, ⟨"CS_DEASSERT", 0x02000000, 0xFFFFFFFF⟩,
   ⟨"SELECT_COMMAND", 0x03000000, 0xFFFFFFFF⟩, ⟨"SELECT_DATA", 0x04000000, 0xFFFFFFFF⟩,
   ⟨"WRITE", 0x05000000, 0xFFFF0000⟩, ⟨"TRANSFER", 0x06000000, 0xFFFF0000⟩,
   ⟨"COMMAND", 0x10000000, 0xFF000000⟩, ⟨"READ_REGISTER", 0x11000000, 0xFF000000⟩,
   ⟨"WRITE_DATA", 0x12000000, 0xFFFF0000⟩, ⟨"HW_RESET", 0x20000000, 0xFFFFFFFF⟩,
   ⟨"SW_RESET", 0x21000000, 0xFFFFFFFF⟩, ⟨"CFG_WRITE", 0x50000000, 0xFFFC0000⟩,
   ⟨"CFG_READ", 0x51000000, 0xFFFCFFFF⟩]

/-- The base row an instruction belongs to: an alias is COMMAND or READ_REGISTER (R58). -/
def Instr.baseMnemonic : Instr → String
  | .csAssert => "CS_ASSERT"
  | .csDeassert => "CS_DEASSERT"
  | .selectCommand => "SELECT_COMMAND"
  | .selectData => "SELECT_DATA"
  | .write _ => "WRITE"
  | .transfer _ => "TRANSFER"
  | .command _ _ | .noop | .sleepOut | .displayOn | .columnAddressSet _ _ | .pageAddressSet _ _
  | .memoryWrite => "COMMAND"
  | .readRegister _ _ | .readStatus _ | .readPowerMode _ | .readMadctl _ | .readPixelFormat _ => "READ_REGISTER"
  | .writeData _ => "WRITE_DATA"
  | .hwReset => "HW_RESET"
  | .swReset => "SW_RESET"
  | .cfgWrite _ _ => "CFG_WRITE"
  | .cfgRead _ => "CFG_READ"

/-- R53: how many inline bytes a header announces: `LEN` in formats B and C, none in the others. -/
def inlineCount (opc : Byte) (len : Half) : Nat :=
  if opc = 0x05 ∨ opc = 0x06 ∨ opc = 0x10 ∨ opc = 0x12 then len.toNat else 0

/-- The descriptor bytes of a table word: the 32-bit header word with `OPC` (bits 31..24) first, then one byte for
each eight bits the table gives above it, then zero bytes up to the announced inline count. -/
def tableBytes (nbits w : Nat) : List Byte :=
  let h := BitVec.ofNat 32 w
  let later := (List.range ((nbits - 32) / 8)).map fun k => BitVec.ofNat 8 (w >>> (32 + 8 * k))
  let count := inlineCount (h.extractLsb' 24 8) (h.extractLsb' 0 16)
  [h.extractLsb' 24 8, h.extractLsb' 16 8, h.extractLsb' 8 8, h.extractLsb' 0 8] ++
    later ++ List.replicate (count - later.length) 0

/-- The instruction the decoder reads from the table word `w`. -/
def decodeTableWord (nbits w : Nat) : Option Instr :=
  match decode (tableBytes nbits w) with
  | .instr i _ => some i
  | .unsupported _ => none
  | .truncated => none

end Sys2Proof
end

