-- ==== Sys2Proof/Machine/Operands.lean ====
section
/-! DEFINITION. Times (R21), the fixed parameters of R6, configuration register access, the bits of a byte on the wire (R71), and
the arithmetic and wire operands of the macros (R120 to R125). -/

namespace Sys2Proof.Machine

/-- R21: "any amount, zero or more". -/
def Time.later (t : Time) : Time := { t with passed := t.passed + 1 }

/-- R78: the lower bound of a wait. -/
def Time.wait (ms : Half) (t : Time) : Time := { t with fixed := t.fixed + ms.toNat }

/-- R170: time restarts at 0; the free durations already used are not used again. -/
def Time.restart (t : Time) : Time := ⟨0, t.first + t.passed, 0⟩

/-- R21: the non-negative real number of ms that a time stands for. No step evaluates it. -/
noncomputable def Time.ms (t : Time) : ℝ :=
  t.fixed + ((List.range t.passed).map fun k => (Config.duration (t.first + k) : ℝ)).sum

/-- `T_RST_LOW_MIN` (R6) -/
def tRstLowMin : Nat := 50
/-- `T_RST_HIGH_MIN` (R6) -/
def tRstHighMin : Nat := 50
/-- `T_SWRST_MIN` (R6) -/
def tSwrstMin : Nat := 120
/-- `SWRESET_OPCODE` (R6) -/
def swResetOpcode : Byte := 0x01
/-- `CHUNK_REPS` (R6) -/
def chunkReps : Nat := 32
/-- `CHUNK_DIVISOR` (R6) -/
def chunkDivisor : Nat := 64

/-- The maximum of a 16-bit value and a bound (R16). -/
def raiseTo (bound : Nat) (v : Half) : Half := if v.toNat < bound then BitVec.ofNat 16 bound else v

/-- R16: the legalising function applied on every write. -/
def legal (reg : Fin 4) (v : Half) : Half :=
  match reg with
  | 0 => v &&& 1
  | 1 => raiseTo tRstLowMin v
  | 2 => raiseTo tRstHighMin v
  | 3 => raiseTo tSwrstMin v

/-- R8: `x[i]`. -/
def Cfg.get (c : Cfg) (reg : Fin 4) : Half :=
  match reg with
  | 0 => c.ctrl
  | 1 => c.tRstLow
  | 2 => c.tRstHigh
  | 3 => c.tSwrst

/-- R8: `x[i] <- v`, through the legalising function. -/
def Cfg.set (c : Cfg) (reg : Fin 4) (v : Half) : Cfg :=
  match reg with
  | 0 => { c with ctrl := legal 0 v }
  | 1 => { c with tRstLow := legal 1 v }
  | 2 => { c with tRstHigh := legal 2 v }
  | 3 => { c with tSwrst := legal 3 v }

/-- The level that stands for a bit (R7). -/
def levelOfBit (b : Bool) : Level := if b then .high else .low

/-- R14: the level the field `CR0.BL` gives the pin `BL`. -/
def Cfg.backlight (c : Cfg) : Level := levelOfBit (c.ctrl.getLsbD 0)

/-- R71: the order in which the bits of a byte move, "for `i` from 7 down to 0". -/
def bitOrder : List Nat := [7, 6, 5, 4, 3, 2, 1, 0]

/-- R71: the pin levels after each pin change while the named bits of `b` move, from the levels `p`:
`SDO <- b[i]`, `SCK <- 1`, `SCK <- 0`. -/
def bitWave (b : Byte) : List Nat → Pins → List Pins
  | [], _ => []
  | i :: is, p =>
    let put := { p with sdo := levelOfBit (b.getLsbD i) }
    let rise := { put with sck := .high }
    let fall := { rise with sck := .low }
    put :: rise :: fall :: bitWave b is fall

/-- R71: the pin levels through the eight clock periods of one byte. -/
def byteWave (b : Byte) (p : Pins) : List Pins := bitWave b bitOrder p

/-- R71: what the panel captures of a wave, the level of `SDO` at each rising edge of `SCK`. -/
def risingSamples : Level → List Pins → List Level
  | _, [] => []
  | before, p :: ps =>
    if before = .low ∧ p.sck = .high then p.sdo :: risingSamples p.sck ps else risingSamples p.sck ps

/-- R71: the block captures `SDI` as bit `i` of the incoming byte, bit 7 first; bit `i` of `sdi` is the level of `SDI`
at that rising edge. -/
def captureSdi (sdi : Byte) : Byte :=
  bitOrder.foldl (fun r i => (r <<< 1) ||| (BitVec.ofBool (sdi.getLsbD i)).setWidth 8) 0#8

/-- R120: `x1 ≥ x0`, `y1 ≥ y0`. -/
def AddressWindow.valid (w : AddressWindow) : Bool :=
  decide (w.x0.toNat ≤ w.x1.toNat) && decide (w.y0.toNat ≤ w.y1.toNat)

/-- R120: `(x1 - x0 + 1) * (y1 - y0 + 1)`, exact. -/
def AddressWindow.pixelCount (w : AddressWindow) : Nat :=
  (w.x1.toNat - w.x0.toNat + 1) * (w.y1.toNat - w.y0.toNat + 1)

/-- R124: the number of data frames, `pixel_count / 64`, the remainder discarded. -/
def AddressWindow.frames (w : AddressWindow) : Nat := w.pixelCount / chunkDivisor

/-- R122: the coordinate encoding of two 16-bit values. -/
def encodeXY (a b : Half) : List Byte := be16 a ++ be16 b

/-- R123: 32 repetitions of the colour's two bytes. -/
def fillBuffer (colour : Half) : List Byte := (List.replicate chunkReps (be16 colour)).flatten

end Sys2Proof.Machine
end

