-- ==== Sys2Proof/Machine/Ops.lean ====
section
/-! DEFINITION. The operations every meaning is built from: drawing an oracle answer, the pins, the trace, the
completion (R18), the fault (R144: what this machine has in place of taking an exception), the primitives (R72 to R78,
R137), the sequencer step and the acceptance of an operation (R70). -/

namespace Sys2Proof.Machine

/-- The oracle's answer to the `j`th question from here on (R23). -/
def State.answerAt (s : State) (j : Nat) : Answer := s.answers[j]?.getD (Config.oracle (s.draws + j))

/-- The oracle's next answer. -/
def State.answer (s : State) : Answer := s.answerAt 0

/-- Time advances "by any amount, zero or more, during any other primitive and between operations" (R21). -/
def State.elapse (s : State) : State := s.withNow s.now.later

/-- One question asked: its answer is used up, and time advances. -/
def State.tick (s : State) : State := (s.elapse.withAnswers s.answers.tail).withDraws (s.draws + 1)

/-- R8: `emit(e)`. -/
def emit (e : Event) (s : State) : State := (s.withTrace (s.trace ++ [e])).withStamps (s.stamps ++ [s.now])

/-- A pin at a new level. -/
def Pins.set (p : Pins) (line : ControlLine) (level : Level) : Pins :=
  match line with
  | .cs => { p with cs := level }
  | .dc => { p with dc := level }
  | .rst => { p with rst := level }

/-- R72: the level is set and the event recorded "whether or not the pin already had level `l`". -/
def drivePin (line : ControlLine) (level : Level) (s : State) : State :=
  emit (.drive line level) (s.withPins (s.pins.set line level))

/-- `SDO` after a byte: any value (U19); after a byte that a fault may have cut: any value (U3; log 14). -/
def leaveSdo (a : Answer) (s : State) : State := s.withPins { s.pins with sdo := a.sdo }

/-- R71: one byte leaves on the serial pins. -/
def clockOut (b : Byte) (a : Answer) (s : State) : State :=
  leaveSdo a (s.withPins ((byteWave b s.pins).getLastD s.pins))

/-- R73: one byte of a `BusWrite`. -/
def writeByte (b : Byte) (a : Answer) (s : State) : State := emit (.tx b) (clockOut b a s)

/-- R74: one byte of a `BusTransfer`; the incoming byte joins `RX`. -/
def transferByte (b : Byte) (a : Answer) (s : State) : State :=
  let r := captureSdi a.sdi
  let t := emit (.xf b r) (clockOut b a s)
  t.withRx (t.rx ++ [r])

/-- R78: `now` moves on by the bound (the time beyond it is the step's, see `State.tick`), and `WAIT(d)` is recorded. -/
def waitFor (ms : Half) (s : State) : State := emit (.wait ms) (s.withNow (s.now.wait ms))

/-- R137: `CfgWrite`. -/
def writeCfg (reg : Fin 4) (v : Half) (s : State) : State :=
  let t := s.withCfg (s.cfg.set reg v)
  if reg = 0 then emit (.backlight t.cfg.backlight) (t.withPins { t.pins with bl := t.cfg.backlight }) else t

/-- R137: `CfgRead`. -/
def readCfg (reg : Fin 4) (s : State) : State := s.withRx (s.rx ++ be16 (s.cfg.get reg))

/-- The host takes a completion record (R88). A macro in progress goes on to its next descriptor after code 0 and ends
with any other code (R62, R114, R131). The host's program stays as it is, whatever the code: that the host then goes on
with its next move, where R114 and R146 leave retry or halt to the caller, is DESIGN CHOICE, log 26. -/
def HostAgent.receive (h : HostAgent) (c : Completion) : HostAgent :=
  { h with
    completions := h.completions ++ [c]
    job := h.job.bind fun j => if c.code = .ok then some { j with index := j.index + 1 } else none
    macroEnds := if h.job.isSome ∧ c.code ≠ .ok then h.macroEnds ++ [c.code] else h.macroEnds }

/-- R70: `complete(code, rx)` "hands the record to the host", and the sequencer is idle. The latches keep the operation's
values, and `RX` what it holds, until the next acceptance: their content then "has no meaning" (R17) and "both buffers
live for one operation" (R32), so this is DEDUCED from the actions of R70, log 21. -/
def complete (code : ResultCode) (rx : List Byte) (s : State) : State :=
  (s.withHost (s.host.receive ⟨code, rx⟩)).withSeq .idle

/-- R144: fault entry; every pin keeps the level it has. -/
def transportFault (s : State) : State := complete .transportFault [] ((emit .fault s).withRx [])

/-- R54, R141: a descriptor that matches no operation: code 2, no event, no change in the block. -/
def rejectDescriptor (s : State) : State := s.withHost (s.host.receive ⟨.unsupportedOperation, []⟩)

/-- R143: whether this step's answer is a fault of a `Drive` or a `Wait` (what it then does: `primStep`, log 30). -/
def pinFault (a : Answer) (s : State) : Bool := a.fault && s.params.faultPoints == .allPrimitives

/-- What one sequencer step of a primitive comes to. -/
inductive PrimStep where
  /-- a byte has moved: `bidx <- bidx + 1` -/
  | again (s : State)
  /-- the primitive is finished: `upc <- upc + 1` -/
  | done (s : State)
  /-- the operation has ended (R144) -/
  | fault (s : State)

/-- One sequencer step of a serial primitive, where `next` is the byte at `bidx`, if there is one (R73, R74, R143). A fault
with a byte to come may have cut that byte, and leaves `SDO` open (U3, log 14); after the last byte nothing is cut, and
every pin keeps its level (R144). -/
def serialStep (move : Byte → Answer → State → State) (next : Option Byte) (a : Answer) (s : State) : PrimStep :=
  match next with
  | some b => if a.fault then .fault (transportFault (leaveSdo a s)) else .again (move b a s)
  | none => if a.fault then .fault (transportFault s) else .done s

/-- One sequencer step of the primitive `p` at byte index `bidx`, with the answer `a` (R72, R73, R74, R78, R137, R143). A
fault in place of a `Drive` or a `Wait` has no effect of the primitive (R143) and enters as a serial step's does, with its
`FAULT` event, though R20 and R144 speak of a serial step alone: DESIGN CHOICE, log 30. -/
def primStep (p : Prim) (bidx : Nat) (a : Answer) (s : State) : PrimStep :=
  match p with
  | .drive line level => if pinFault a s then .fault (transportFault s) else .done (drivePin line level s)
  | .busWrite bytes => serialStep writeByte bytes[bidx]? a s
  | .busTransfer bytes => serialStep transferByte bytes[bidx]? a s
  | .wait ms => if pinFault a s then .fault (transportFault s) else .done (waitFor ms s)
  | .cfgWrite reg v => .done (writeCfg reg v s)
  | .cfgRead reg => .done (readCfg reg s)

/-- R70: the sequencer action `step()`. -/
def seqStep (s : State) : State :=
  match s.seq with
  | .idle => s
  | .running plist upc bidx =>
    match plist[upc]? with
    | none => complete .ok s.rx s.tick
    | some p =>
      match primStep p bidx s.answer s.tick with
      | .again t => t.withSeq (.running plist upc (bidx + 1))
      | .done t => t.withSeq (.running plist (upc + 1) 0)
      | .fault t => t

/-- `n` sequencer steps; an idle sequencer stays as it is. -/
def runSeq : Nat → State → State
  | 0, s => s
  | n + 1, s => runSeq n (seqStep s)

/-- How many sequencer steps a primitive takes when none faults (R73, R74). -/
def Prim.steps : Prim → Nat
  | .busWrite bytes => bytes.length + 1
  | .busTransfer bytes => bytes.length + 1
  | .drive _ _ | .wait _ | .cfgWrite _ _ | .cfgRead _ => 1

/-- The steps of a primitive list, and the one that completes (R70). -/
def planSteps : List Prim → Nat
  | [] => 1
  | p :: ps => p.steps + planSteps ps

/-- R70: `accept(desc)` of a descriptor that matches. -/
def accept (l : Latches) (plist : List Prim) (s : State) : State :=
  ((s.tick.withLatches l).withRx []).withSeq (.running plist 0 0)

/-- R70, R88: an operation is accepted and "runs that operation to its end". -/
def operate (l : Latches) (plist : List Prim) (s : State) : Host.Outcome State Fault Refusal :=
  .next (runSeq (planSteps plist) (accept l plist s))

/-- R90: the primitive list of COMMAND. -/
def commandPlan (opcode : Byte) (payload : List Byte) : List Prim :=
  if payload = [] then
    [.drive .cs .low, .drive .dc .low, .busWrite [opcode], .drive .dc .high, .drive .cs .high]
  else
    [.drive .cs .low, .drive .dc .low, .busWrite [opcode], .drive .dc .high, .busWrite payload, .drive .cs .high]

/-- R92: the primitive list of READ_REGISTER. -/
def readPlan (opcode : Byte) (count : Half) (dummy : Byte) : List Prim :=
  [.drive .cs .low, .drive .dc .low, .busWrite [opcode], .drive .dc .high,
   .busTransfer (List.replicate count.toNat dummy), .drive .cs .high]

/-- R58, R90: the operation COMMAND, shared with its alias names. -/
def operateCommand (opcode : Byte) (payload : List Byte) (s : State) : Host.Outcome State Fault Refusal :=
  operate ⟨0x10, opcode, lenOf payload, payload⟩ (commandPlan opcode payload) s

/-- R58, R92: the operation READ_REGISTER, shared with its alias names. -/
def operateRead (opcode : Byte) (count : Half) (s : State) : Host.Outcome State Fault Refusal :=
  operate ⟨0x11, opcode, count, []⟩ (readPlan opcode count s.params.dummy) s

/-- R170: block reset. Every component takes its reset value, an operation in progress "is dropped without a
completion", the pins change without events, the ghost state restarts. Parameters, oracle and the host's program and
records are not the block's; a macro in progress is dropped (DESIGN CHOICE, log 8). -/
def blockReset (s : State) : State :=
  { State.reset with
    now := s.now.restart
    host := { s.host with job := none }
    params := s.params
    answers := s.answers
    draws := s.draws }

end Sys2Proof.Machine
end

