-- ==== Sys2Proof/Machine/ConfigAccess.lean ====
section
/-! DEFINITION. Configuration access (spec/45_config_access.md). -/

namespace Sys2Proof.Machine

/-- R135 -/
def execCfgWrite (reg : Fin 4) (value : Half) (s : State) : Host.Outcome State Fault Refusal :=
  operate ⟨0x50, BitVec.ofNat 8 reg, value, []⟩ [.cfgWrite reg value] s

/-- R136 -/
def execCfgRead (reg : Fin 4) (s : State) : Host.Outcome State Fault Refusal :=
  operate ⟨0x51, BitVec.ofNat 8 reg, 0, []⟩ [.cfgRead reg] s

end Sys2Proof.Machine
end

