-- ==== Sys2Proof/Machine/Framer.lean ====
section
/-! DEFINITION. The command framer (spec/41_command_framer.md) and the alias names of its operations (R58). -/

namespace Sys2Proof.Machine

/-- R90 -/
def execCommand (opcode : Byte) (payload : List Byte) (s : State) : Host.Outcome State Fault Refusal :=
  operateCommand opcode payload s

/-- R92 -/
def execReadRegister (opcode : Byte) (count : Half) (s : State) : Host.Outcome State Fault Refusal :=
  operateRead opcode count s

/-- R93: `DC` first, then `CS` (C4). -/
def execWriteData (bytes : List Byte) (s : State) : Host.Outcome State Fault Refusal :=
  operate ⟨0x12, 0, lenOf bytes, bytes⟩
    [.drive .dc .high, .drive .cs .low, .busWrite bytes, .drive .cs .high] s

/-- R58: `COMMAND 0x00, []` -/
def execNoop (s : State) : Host.Outcome State Fault Refusal := operateCommand 0x00 [] s

/-- R58: `COMMAND 0x11, []` -/
def execSleepOut (s : State) : Host.Outcome State Fault Refusal := operateCommand 0x11 [] s

/-- R58: `COMMAND 0x29, []` -/
def execDisplayOn (s : State) : Host.Outcome State Fault Refusal := operateCommand 0x29 [] s

/-- R58: `COMMAND 0x2A, be16(a) ++ be16(b)` -/
def execColumnAddressSet (a b : Half) (s : State) : Host.Outcome State Fault Refusal :=
  operateCommand 0x2A (encodeXY a b) s

/-- R58: `COMMAND 0x2B, be16(a) ++ be16(b)` -/
def execPageAddressSet (a b : Half) (s : State) : Host.Outcome State Fault Refusal :=
  operateCommand 0x2B (encodeXY a b) s

/-- R58: `COMMAND 0x2C, []` -/
def execMemoryWrite (s : State) : Host.Outcome State Fault Refusal := operateCommand 0x2C [] s

/-- R58: `READ_REGISTER 0x09, n` -/
def execReadStatus (count : Half) (s : State) : Host.Outcome State Fault Refusal := operateRead 0x09 count s

/-- R58: `READ_REGISTER 0x0A, n` -/
def execReadPowerMode (count : Half) (s : State) : Host.Outcome State Fault Refusal := operateRead 0x0A count s

/-- R58: `READ_REGISTER 0x0B, n` -/
def execReadMadctl (count : Half) (s : State) : Host.Outcome State Fault Refusal := operateRead 0x0B count s

/-- R58: `READ_REGISTER 0x0C, n` -/
def execReadPixelFormat (count : Half) (s : State) : Host.Outcome State Fault Refusal := operateRead 0x0C count s

end Sys2Proof.Machine
end

