-- ==== Sys2Proof/Machine/ResetSequencer.lean ====
section
/-! DEFINITION. The reset sequencer (spec/42_reset_sequencer.md). The delays are read once, at acceptance (R104). -/

namespace Sys2Proof.Machine

/-- R100 -/
def execHwReset (s : State) : Host.Outcome State Fault Refusal :=
  operate ⟨0x20, 0, 0, []⟩
    [.drive .rst .low, .wait (s.cfg.get 1), .drive .rst .high, .wait (s.cfg.get 2)] s

/-- R101: "the list of `COMMAND 0x01, []` followed by one wait". -/
def execSwReset (s : State) : Host.Outcome State Fault Refusal :=
  operate ⟨0x21, 0, 0, []⟩ (commandPlan swResetOpcode [] ++ [.wait (s.cfg.get 3)]) s

end Sys2Proof.Machine
end

