-- ==== Sys2Proof/Machine/Transport.lean ====
section
/-! DEFINITION. The six transport operations (spec/40_transport.md). -/

namespace Sys2Proof.Machine

/-- R80 -/
def execCsAssert (s : State) : Host.Outcome State Fault Refusal :=
  operate ⟨0x01, 0, 0, []⟩ [.drive .cs .low] s

/-- R81 -/
def execCsDeassert (s : State) : Host.Outcome State Fault Refusal :=
  operate ⟨0x02, 0, 0, []⟩ [.drive .cs .high] s

/-- R82 -/
def execSelectCommand (s : State) : Host.Outcome State Fault Refusal :=
  operate ⟨0x03, 0, 0, []⟩ [.drive .dc .low] s

/-- R83 -/
def execSelectData (s : State) : Host.Outcome State Fault Refusal :=
  operate ⟨0x04, 0, 0, []⟩ [.drive .dc .high] s

/-- R84 -/
def execWrite (bytes : List Byte) (s : State) : Host.Outcome State Fault Refusal :=
  operate ⟨0x05, 0, lenOf bytes, bytes⟩ [.busWrite bytes] s

/-- R85 -/
def execTransfer (bytes : List Byte) (s : State) : Host.Outcome State Fault Refusal :=
  operate ⟨0x06, 0, lenOf bytes, bytes⟩ [.busTransfer bytes] s

end Sys2Proof.Machine
end

