-- ==== Sys2Proof/Machine/Dispatch.lean ====
section
/-! DEFINITION. One arm per operation. -/

namespace Sys2Proof.Machine

def exec (i : Instr) (s : State) : Host.Outcome State Fault Refusal :=
  match i with
  | .csAssert => Sys2Proof.Machine.execCsAssert s
  | .csDeassert => Sys2Proof.Machine.execCsDeassert s
  | .selectCommand => Sys2Proof.Machine.execSelectCommand s
  | .selectData => Sys2Proof.Machine.execSelectData s
  | .write bytes => Sys2Proof.Machine.execWrite bytes s
  | .transfer bytes => Sys2Proof.Machine.execTransfer bytes s
  | .command opcode payload => Sys2Proof.Machine.execCommand opcode payload s
  | .readRegister opcode count => Sys2Proof.Machine.execReadRegister opcode count s
  | .writeData bytes => Sys2Proof.Machine.execWriteData bytes s
  | .hwReset => Sys2Proof.Machine.execHwReset s
  | .swReset => Sys2Proof.Machine.execSwReset s
  | .cfgWrite reg value => Sys2Proof.Machine.execCfgWrite reg value s
  | .cfgRead reg => Sys2Proof.Machine.execCfgRead reg s
  | .noop => Sys2Proof.Machine.execNoop s
  | .sleepOut => Sys2Proof.Machine.execSleepOut s
  | .displayOn => Sys2Proof.Machine.execDisplayOn s
  | .columnAddressSet a b => Sys2Proof.Machine.execColumnAddressSet a b s
  | .pageAddressSet a b => Sys2Proof.Machine.execPageAddressSet a b s
  | .memoryWrite => Sys2Proof.Machine.execMemoryWrite s
  | .readStatus count => Sys2Proof.Machine.execReadStatus count s
  | .readPowerMode count => Sys2Proof.Machine.execReadPowerMode count s
  | .readMadctl count => Sys2Proof.Machine.execReadMadctl count s
  | .readPixelFormat count => Sys2Proof.Machine.execReadPixelFormat count s

end Sys2Proof.Machine
end

