-- ==== Sys2Proof/Machine/HostTurn.lean ====
section
/-! DEFINITION. The host agent's moves while the sequencer is idle (R88): submitting a descriptor, and the macros INIT
(spec/43_init_sequence.md) and CLEAR (spec/44_window_fill.md), whose descriptors it submits one after another (R62). -/

namespace Sys2Proof.Machine

/-- R112: the diagnostic reads of one "optional diagnostic status read". -/
def diagReads (p : Params) (flag : Bool) : List Instr :=
  if flag then p.diagList.map fun d => .readRegister d.1 d.2 else []

/-- R112: the expansion of `INIT pre, post`. -/
def initExpansion (p : Params) (pre post : Bool) : List Instr :=
  [.hwReset, .swReset] ++ diagReads p pre ++ (p.initTable.map fun e => .command e.1 e.2) ++ diagReads p post

/-- R125, R127: the expansion of `CLEAR x0, y0, x1, y1, colour`; `(x0, y0)` goes with the column command and
`(x1, y1)` with the page command, as the source has it (U1). -/
def clearExpansion (w : AddressWindow) (colour : Half) : List Instr :=
  [.command 0x2A (encodeXY w.x0 w.y0), .command 0x2B (encodeXY w.x1 w.y1), .command 0x2C []] ++
    List.replicate w.frames (.writeData (fillBuffer colour)) ++ [.command 0x00 []]

/-- R62: the descriptors of a macro, in order. -/
def Macro.expansion (m : Macro) (p : Params) : List Instr :=
  match m with
  | .init pre post => initExpansion p pre post
  | .clear w colour => clearExpansion w colour

/-- R111 (b), D25: the table ends with `(0x11, [])`, `(0x29, [])`; each entry fits a COMMAND descriptor (R51). -/
def initTableOk (table : List (Byte × List Byte)) : Bool :=
  (table.drop (table.length - 2) == [(0x11, []), (0x29, [])]) && table.all fun e => fitsLen e.2

/-- U17: every opcode of `DIAG_LIST` is one of 0x09 to 0x0C. -/
def diagListOk (diag : List (Byte × Half)) : Bool := diag.all fun d => aliasedRead d.1

/-- The host's program, changed. -/
def State.withProgram (s : State) (ps : List HostMove) : State := s.withHost { s.host with program := ps }

/-- The macro in progress, changed. -/
def State.withJob (s : State) (j : Option Job) : State := s.withHost { s.host with job := j }

/-- A macro ends with a code (R114, R126, R131). -/
def endMacro (code : ResultCode) (s : State) : State :=
  s.withHost { s.host with job := none, macroEnds := s.host.macroEnds ++ [code] }

/-- The descriptors still to come of a `submit` move. -/
def pushBytes (rest : List Byte) (ps : List HostMove) : List HostMove :=
  if rest = [] then ps else .submit rest :: ps

/-- R54, R88: the host submits the first descriptor of `bytes`; `next` is what its program then is, given the bytes
after that descriptor. -/
def submitFirst (bytes : List Byte) (next : List Byte → List HostMove) (s : State) :
    Host.Outcome State Fault Refusal :=
  match decode bytes with
  | .instr i rest => exec i (s.withProgram (next rest))
  | .unsupported rest => .next (rejectDescriptor (s.withProgram (next rest)))
  | .truncated => .fault .truncatedDescriptor

/-- R62: a macro in progress submits its next descriptor, or, with none left, ends with code 0. -/
def jobTurn (j : Job) (s : State) : Host.Outcome State Fault Refusal :=
  match (j.call.expansion s.params)[j.index]? with
  | some i => submitFirst (encode i) (fun _ => s.host.program) s
  | none => .next (endMacro .ok s)

/-- A macro is called. CLEAR with a window that breaks its invariant "is refused: the host submits no descriptor, the
trace is unchanged, and the macro ends with code 2" (R126). INIT outside the premises of U17 has no meaning. -/
def callMacro (m : Macro) (s : State) : Host.Outcome State Fault Refusal :=
  match m with
  | .init _ _ =>
    if initTableOk s.params.initTable then
      if diagListOk s.params.diagList then .next (s.withJob (some ⟨m, 0⟩)) else .refused .diagListOutsidePremises
    else .refused .initTableOutsidePremises
  | .clear w _ =>
    if w.valid then .next (s.withJob (some ⟨m, 0⟩)) else .next (endMacro .unsupportedOperation s)

/-- R88: the host's move while the sequencer is idle. The next move of the program comes whatever code the operation or
the macro before it ended with: the program never looks at a code. R114, R131 and R146 leave it to the caller to halt,
retry or go on; this is DESIGN CHOICE, log 26. With nothing to submit, only time passes. -/
def hostAct (s : State) : Host.Outcome State Fault Refusal :=
  match s.host.job with
  | some j => jobTurn j s
  | none =>
    match s.host.program with
    | [] => .next s
    | .submit [] :: ps => .next (s.withProgram ps)
    | .submit (b :: bs) :: ps => submitFirst (b :: bs) (fun rest => pushBytes rest ps) s
    | .call m :: ps => callMacro m (s.withProgram ps)

/-- The host's turn: time passes between operations (R21), then the host moves. -/
def hostTurn (s : State) : Host.Outcome State Fault Refusal := hostAct s.elapse

end Sys2Proof.Machine
end

