-- ==== Sys2Proof/Machine/Step.lean ====
section
/-! DEFINITION. One step of the machine, and the placing of a descriptor where the next step fetches it. -/

namespace Sys2Proof.Machine

/-- Block reset where the platform asks for it (R170). Otherwise the sequencer's step while an operation runs, since
the host then has no move (R88), and the host's turn while it is idle. A descriptor taken there runs to its end. -/
def step (s : State) : Host.Outcome State Fault Refusal :=
  if s.resetInput then .next (blockReset s)
  else
    match s.seq with
    | .running _ _ _ => .next (seqStep s)
    | .idle => hostTurn s

/-- `s` with the descriptor of a table word as the host's next move, and the host free to make it (log 7). -/
def State.withFetchWord (s : State) (nbits w : Nat) : State :=
  ((s.withSeq .idle).withResetInput false).withHost
    { s.host with job := none, program := .submit (tableBytes nbits w) :: s.host.program }

end Sys2Proof.Machine
end

