-- ==== Sys2Proof/Machine/Expand.lean ====
section
/-! DEFINITION. The latches of a descriptor (R17), and the primitive list as a function of the latches and of `CR1` to
`CR3` "and of nothing else" (R70): what the meanings of the operations are held against. -/

namespace Sys2Proof.Machine

/-- R17, R50: the latches loaded from the bytes of one descriptor. -/
def latchesOf : List Byte → Latches
  | opc :: arg :: hi :: lo :: inline => ⟨opc, arg, ofBe16 hi lo, inline⟩
  | _ => ⟨0, 0, 0, []⟩

/-- R70: `expand(OPC, ARG, LEN, OPBUF, x[1], x[2], x[3])`, row by row of R55; `DUMMY` is the parameter of R92. The
empty list is for latches no accepted descriptor loads. -/
def expand (l : Latches) (c : Cfg) (dummy : Byte) : List Prim :=
  if l.opc = 0x01 then [.drive .cs .low]
  else if l.opc = 0x02 then [.drive .cs .high]
  else if l.opc = 0x03 then [.drive .dc .low]
  else if l.opc = 0x04 then [.drive .dc .high]
  else if l.opc = 0x05 then [.busWrite l.opbuf]
  else if l.opc = 0x06 then [.busTransfer l.opbuf]
  else if l.opc = 0x10 then
    if l.len = 0 then
      [.drive .cs .low, .drive .dc .low, .busWrite [l.arg], .drive .dc .high, .drive .cs .high]
    else
      [.drive .cs .low, .drive .dc .low, .busWrite [l.arg], .drive .dc .high, .busWrite l.opbuf, .drive .cs .high]
  else if l.opc = 0x11 then
    [.drive .cs .low, .drive .dc .low, .busWrite [l.arg], .drive .dc .high,
     .busTransfer (List.replicate l.len.toNat dummy), .drive .cs .high]
  else if l.opc = 0x12 then [.drive .dc .high, .drive .cs .low, .busWrite l.opbuf, .drive .cs .high]
  else if l.opc = 0x20 then [.drive .rst .low, .wait c.tRstLow, .drive .rst .high, .wait c.tRstHigh]
  else if l.opc = 0x21 then
    [.drive .cs .low, .drive .dc .low, .busWrite [0x01], .drive .dc .high, .drive .cs .high, .wait c.tSwrst]
  else if h : l.opc = 0x50 ∧ l.arg.toNat < 4 then [.cfgWrite ⟨l.arg.toNat, h.2⟩ l.len]
  else if h : l.opc = 0x51 ∧ l.arg.toNat < 4 then [.cfgRead ⟨l.arg.toNat, h.2⟩]
  else []

/-- The primitive list an instruction expands to in a state, through its descriptor. -/
def planOf (i : Instr) (s : State) : List Prim := expand (latchesOf (encode i)) s.cfg s.params.dummy

end Sys2Proof.Machine
end

