-- ==== Sys2Proof/Safety.lean ====
section
/-! DEFINITION. What a run is held against: where a fault can strike (R143) and what then stands on the trace (R144),
the invariants of the block's state, and the hazards the host must respect (R180 to R195) read off the trace. -/

namespace Sys2Proof.Safety

open Sys2Proof.Machine

/-! ## Fault points -/

/-- R143: whether the steps of a primitive can report a fault. -/
def isFaultPoint (fp : FaultPoints) : Prim → Bool
  | .busWrite _ | .busTransfer _ => true
  | .drive _ _ | .wait _ => fp == .allPrimitives
  | .cfgWrite _ _ | .cfgRead _ => false

/-- For each sequencer step of a primitive list, in order, whether it can report a fault. -/
def faultSteps (fp : FaultPoints) : List Prim → List Bool
  | [] => []
  | p :: ps => List.replicate p.steps (isFaultPoint fp p) ++ faultSteps fp ps

/-- No step of the list that can report a fault does so, the first step having the answer number `j`. -/
def quietFrom (s : State) : Nat → List Bool → Bool
  | _, [] => true
  | j, b :: bs => !(b && (s.answerAt j).fault) && quietFrom s (j + 1) bs

/-- The oracle reports no fault while the primitive list runs. Answer 0 is drawn by the acceptance. -/
abbrev NoFault (plan : List Prim) (s : State) : Prop := quietFrom s 1 (faultSteps s.params.faultPoints plan) = true

/-- The oracle's first fault while the primitive list runs is at its sequencer step `k`. -/
abbrev FirstFault (plan : List Prim) (s : State) (k : Nat) : Prop :=
  (faultSteps s.params.faultPoints plan)[k]? = some true ∧ (s.answerAt (k + 1)).fault = true ∧
    quietFrom s 1 ((faultSteps s.params.faultPoints plan).take k) = true

/-- The byte the oracle supplies on `SDI` with its answer number `j` (R74, R75). -/
def incoming (s : State) (j : Nat) : Byte := (s.answerAt j).sdi

/-- The bytes the oracle supplies with `n` answers from number `j` on. -/
def incomingBytes (s : State) (j n : Nat) : List Byte := (List.range n).map fun k => incoming s (j + k)

/-- The events of duplex bytes whose first answer is number `j` (R74). -/
def transferEvents (s : State) (j : Nat) (bytes : List Byte) : List Event :=
  List.zipWith Event.xf bytes (incomingBytes s j bytes.length)

/-- The events of each sequencer step of a primitive whose first step has the answer number `j` (R72, R73, R74, R78,
R137). -/
def primEvents (s : State) (j : Nat) : Prim → List (List Event)
  | .drive line level => [[.drive line level]]
  | .busWrite bytes => bytes.map (fun b => [Event.tx b]) ++ [[]]
  | .busTransfer bytes => (transferEvents s j bytes).map (fun e => [e]) ++ [[]]
  | .wait ms => [[.wait ms]]
  | .cfgWrite reg v => [if reg = 0 then [.backlight (s.cfg.set reg v).backlight] else []]
  | .cfgRead _ => [[]]

/-- The events of each sequencer step of a primitive list. -/
def planEvents (s : State) (j : Nat) : List Prim → List (List Event)
  | [] => []
  | p :: ps => primEvents s j p ++ planEvents s (j + p.steps) ps

/-! ## What an operation leaves as it was -/

/-- Everything of an ended operation but its pins, configuration registers and result buffer: the sequencer is idle,
the latches still hold the operation's values (DEDUCED, log 21: R17 gives their content no meaning then), the trace has
grown by `ev`, the host has been handed the one record `c` and nothing else, `k` answers are used up, and the rest is as
before. -/
structure Ended (s t : State) (l : Latches) (ev : List Event) (c : Completion) (k : Nat) : Prop where
  seq : t.seq = .idle
  latches : t.latches = l
  trace : t.trace = s.trace ++ ev
  stamps : ∃ ts, t.stamps = s.stamps ++ ts ∧ ts.length = ev.length
  now : s.now.ms ≤ t.now.ms
  host : t.host = s.host.receive c
  params : t.params = s.params
  resetInput : t.resetInput = s.resetInput
  answers : t.answers = s.answers.drop k
  draws : t.draws = s.draws + k

/-- COMMAND `opcode, payload` has run to its end (R90): the one frame, and nothing else touched. -/
structure CommandRan (s t : State) (opcode : Byte) (payload : List Byte) : Prop where
  ended : Ended s t ⟨0x10, opcode, lenOf payload, payload⟩
    ([.drive .cs .low, .drive .dc .low, .tx opcode, .drive .dc .high] ++ payload.map Event.tx ++ [.drive .cs .high])
    ⟨.ok, []⟩ (if payload = [] then 8 else payload.length + 9)
  pins : ∃ v, t.pins = { s.pins with cs := .high, dc := .high, sck := .low, sdo := v }
  cfg : t.cfg = s.cfg
  rx : t.rx = []

/-- READ_REGISTER `opcode, count` has run to its end (R92). -/
structure ReadRan (s t : State) (opcode : Byte) (count : Half) : Prop where
  ended : Ended s t ⟨0x11, opcode, count, []⟩
    ([.drive .cs .low, .drive .dc .low, .tx opcode, .drive .dc .high] ++
      transferEvents s 6 (List.replicate count.toNat s.params.dummy) ++ [.drive .cs .high])
    ⟨.ok, incomingBytes s 6 count.toNat⟩ (count.toNat + 9)
  pins : ∃ v, t.pins = { s.pins with cs := .high, dc := .high, sck := .low, sdo := v }
  cfg : t.cfg = s.cfg
  /-- that `RX` keeps the bytes after the completion is the model's reading of R70 (log 21) -/
  rx : t.rx = incomingBytes s 6 count.toNat

/-- R11, column "written by": the control lines an operation drives. -/
def drives : Instr → ControlLine → Bool
  | .csAssert, .cs | .csDeassert, .cs => true
  | .selectCommand, .dc | .selectData, .dc => true
  | .hwReset, .rst => true
  | .csAssert, _ | .csDeassert, _ | .selectCommand, _ | .selectData, _ | .hwReset, _ => false
  | .write _, _ | .transfer _, _ | .cfgWrite _ _, _ | .cfgRead _, _ => false
  | _, .rst => false
  | _, .cs => true
  | _, .dc => true

/-- R11: whether an operation clocks bytes. -/
def clocksBytes : Instr → Bool
  | .csAssert | .csDeassert | .selectCommand | .selectData | .hwReset | .cfgWrite _ _ | .cfgRead _ => false
  | .write _ | .transfer _ | .command _ _ | .readRegister _ _ | .writeData _ | .swReset | .noop | .sleepOut
  | .displayOn | .columnAddressSet _ _ | .pageAddressSet _ _ | .memoryWrite | .readStatus _ | .readPowerMode _
  | .readMadctl _ | .readPixelFormat _ => true

/-- The level of a control line. -/
def level (p : Pins) : ControlLine → Level
  | .cs => p.cs
  | .dc => p.dc
  | .rst => p.rst

/-! ## Invariants -/

/-- The level of a control line after a list of events: that of its latest event, or `start` if it has none (R20). -/
def lineLevel (start : Level) (line : ControlLine) : List Event → Level
  | [] => start
  | .drive line' level :: es => lineLevel (if line' = line then level else start) line es
  | _ :: es => lineLevel start line es

/-- The level of `BL` after a list of events (R20). -/
def backlightLevel (start : Level) : List Event → Level
  | [] => start
  | .backlight level :: es => backlightLevel level es
  | _ :: es => backlightLevel start es

/-- R14, R16: the configuration registers hold legal values, and `BL` copies `CR0.BL` (R138). -/
abbrev CfgLegal (s : State) : Prop :=
  s.cfg.ctrl.toNat ≤ 1 ∧ 50 ≤ s.cfg.tRstLow.toNat ∧ 50 ≤ s.cfg.tRstHigh.toNat ∧ 120 ≤ s.cfg.tSwrst.toNat ∧
    s.pins.bl = s.cfg.backlight

/-- R20, R26: each pin has the level of its latest event, or its reset level. -/
abbrev PinsFollowTrace (s : State) : Prop :=
  s.pins.cs = lineLevel .high .cs s.trace ∧ s.pins.dc = lineLevel .high .dc s.trace ∧
    s.pins.rst = lineLevel .high .rst s.trace ∧ s.pins.bl = backlightLevel .low s.trace

/-- R71: the clock is at its idle level between sequencer steps. -/
abbrev ClockIdle (s : State) : Prop := s.pins.sck = .low

/-- R21, R43: every event has a time, times never decrease and are not after `now`, and a `WAIT(d)` comes at least `d`
ms after every event before it. -/
def TimelineOk (s : State) : Prop :=
  0 ≤ s.now.ms ∧ s.stamps.length = s.trace.length ∧ s.stamps.Pairwise (fun a b => a.ms ≤ b.ms) ∧
    (∀ t ∈ s.stamps, 0 ≤ t.ms ∧ t.ms ≤ s.now.ms) ∧
    ∀ (i j : Nat) (d : Half) (ti tj : Time), i < j → s.trace[j]? = some (.wait d) →
      s.stamps[i]? = some ti → s.stamps[j]? = some tj → ti.ms + d.toNat ≤ tj.ms

/-- The byte count of a primitive (R19: the range of `bidx`). -/
def byteCount : Prim → Nat
  | .busWrite bytes | .busTransfer bytes => bytes.length
  | .drive _ _ | .wait _ | .cfgWrite _ _ | .cfgRead _ => 0

/-- R19: `len(plist) <= 6`, `bidx <= 65535`, and the position stays inside the list and the byte list. -/
def SeqBounded (s : State) : Prop :=
  match s.seq with
  | .idle => True
  | .running plist upc bidx =>
    plist.length ≤ 6 ∧ (∀ p ∈ plist, byteCount p ≤ 65535) ∧ upc ≤ plist.length ∧
      bidx ≤ (plist[upc]?.map byteCount).getD 0

/-- Everything the block keeps of itself from step to step. -/
def Inv (s : State) : Prop := CfgLegal s ∧ PinsFollowTrace s ∧ ClockIdle s ∧ TimelineOk s ∧ SeqBounded s

/-! ## Hazards -/

/-- The hazards of R173, R181, R182, R184, R185, R186 and R191 that a trace shows. -/
inductive Hazard where
  /-- R181: a byte sent before a whole hardware reset -/
  | byteBeforeHwReset
  /-- R182: a byte sent within 120 ms of the panel opcode 0x01 -/
  | byteInSettleWindow
  /-- R184, R146: `CS=0` while the frame before is still open -/
  | frameNotClosed
  /-- R185, R116: an entry of the init table sent anywhere but at its place in an INIT: out of order, with another omitted
  before it, or again -/
  | tableOutOfPlace
  /-- R173 (3), U4, U10, U14: pixel data before a complete INIT, or before a new one after anything that leaves the panel's
  state open -/
  | dataBeforeInit
  /-- R186: pixel data outside the write-session bracket -/
  | dataOutsideSession
  /-- R186, R34: pixel data in a session before which 0x2A and 0x2B have not set the address window -/
  | dataWithoutWindow
  /-- R191, N10: a byte clocked with `CS = 1` -/
  | byteOutsideFrame
  deriving DecidableEq, Repr

/-- An event without what the expansion of INIT does not fix: how long a wait is, and which byte came in. `BL` events are
left out, since configuration accesses may stand anywhere in a bring-up (R173). -/
def plain : Event → List Event
  | .backlight _ => []
  | .wait _ => [.wait 0]
  | .xf b _ => [.xf b 0]
  | e => [e]

/-- R112: the events of INIT to its last table entry, with or without the first diagnostic read. -/
def initTraffic (p : Params) (pre : Bool) : List Event :=
  let s := State.reset.withParams p
  ((initExpansion p pre false).flatMap fun i => (planEvents s 0 (planOf i s)).flatten).flatMap plain

/-- The two forms of a complete INIT on a trace; the reads after the table are not waited for. -/
def bringUps (p : Params) : List (List Event) := [initTraffic p false, initTraffic p true]

/-- The opcodes of the write bracket of CLEAR (R57, R125). -/
def bracketOpcode (b : Byte) : Bool := [0x00, 0x2A, 0x2B, 0x2C].contains b

/-- `COMMAND opcode, payload` is an entry of the init table. The opcodes that R57 gives another sender have other uses too and
are left out. -/
def isTableEntry (p : Params) (opcode : Byte) (payload : List Byte) : Bool :=
  p.initTable.contains (opcode, payload) && !(bracketOpcode opcode || aliasedRead opcode || opcode == 0x01)

/-- What a frame is to the panel, which sees the pins alone (R31). -/
inductive Frame where
  /-- COMMAND's, whatever sent it (R90) -/
  | command (opcode : Byte) (payload : List Byte)
  /-- an opcode byte and then duplex bytes, a byte or more, with what was sent: READ_REGISTER's where it sent dummies (R92);
  with no byte it is COMMAND's without payload -/
  | read (opcode : Byte) (sent : List Byte)
  /-- WRITE_DATA's (R93) -/
  | data
  /-- none of these: the spec says nothing of it (N10, U14) -/
  | other
  deriving DecidableEq, Repr

/-- The bytes of events that are all `TX`. -/
def txBytes : List Event → Option (List Byte)
  | [] => some []
  | .tx b :: es => (txBytes es).map (b :: ·)
  | _ => none

/-- The bytes sent by events that are all `XF`. -/
def xfBytes : List Event → Option (List Byte)
  | [] => some []
  | .xf b _ :: es => (xfBytes es).map (b :: ·)
  | _ => none

/-- The kind of the frame with these events between its `CS=0` and its `CS=1`, which ends at this level of `DC`. -/
def frameOf (dc : Level) (events : List Event) : Frame :=
  match events with
  | .drive .dc .low :: .tx opcode :: .drive .dc .high :: rest =>
    match txBytes rest, xfBytes rest with
    | some payload, _ => .command opcode payload
    | none, some sent => .read opcode sent
    | none, none => .other
  | es => if dc = .high ∧ (txBytes es).isSome then .data else .other

/-- What an observer of the timed trace knows of the panel's side, from the sentences of R22, R57 and R186 alone. Wherever
those leave the panel's state open, it knows nothing, and so reports a hazard rather than none (log 19), but for the traffic
that log 28 and log 29 name. -/
structure Monitor where
  cs : Level
  dc : Level
  /-- the time of the latest `RST=0` event, while the line is low -/
  lowSince : Option Time
  /-- the time of the `RST=1` event that ended a low pulse of at least 50 ms -/
  highSince : Option Time
  /-- the time of the latest opcode byte 0x01 -/
  swResetAt : Option Time
  /-- the `DC` events, bytes and faults of the frame in progress, since its `CS=0` -/
  frame : List Event
  /-- the opcode bytes among them -/
  opcodes : List Byte
  /-- the events since the latest `RST=0`, plain, while they may still become a complete INIT -/
  bringUp : Option (List Event)
  /-- whether no hazard has been met since that `RST=0` -/
  clean : Bool
  /-- whether a complete INIT has been seen, and since then nothing but write brackets and status reads -/
  known : Bool
  /-- whether 0x2A is known to have set the columns of the window of the next session -/
  columns : Bool
  /-- whether 0x2B is known to have set its pages -/
  pages : Bool
  /-- whether a GRAM write session is known to be open -/
  session : Bool
  /-- whether the window was known to be set when that session was opened -/
  windowed : Bool
  hazards : List Hazard
  deriving DecidableEq, Repr

/-- The monitor after block reset (R26). It starts with nothing known of the panel: no pulse seen, no INIT seen, no session
open, no window set. It also starts with no settle window running, although block reset does not reset the panel (R171)
and an opcode 0x01 may have gone out less than 120 ms before it: the trace restarts, so an observer of it cannot know. R26
and U18 leave the panel's state open there: DESIGN CHOICE, log 27. -/
def Monitor.start : Monitor :=
  ⟨.high, .high, none, none, none, [], [], none, false, false, false, false, false, false, []⟩

/-- R22 (2): the pulse is complete at the time `t`. -/
noncomputable def Monitor.resetDone (m : Monitor) (t : Time) : Bool :=
  match m.highSince with
  | some t1 => decide (t1.ms + 50 ≤ t.ms)
  | none => false

/-- R22 (1): the time `t` lies in the settle window. -/
noncomputable def Monitor.settling (m : Monitor) (t : Time) : Bool :=
  match m.swResetAt with
  | some t0 => decide (t.ms < t0.ms + 120)
  | none => false

/-- A byte clocked now is pixel data: `DC` is high, and its frame holds no opcode byte, or 0x2C among its opcode bytes, for
which the source implements no payload (R186). Which command a frame of several opcode bytes is, the spec leaves open
(N10, U14): that any 0x2C among them makes its `DC = 1` bytes pixel data is DESIGN CHOICE, log 19. -/
def Monitor.pixelData (m : Monitor) : Bool := m.dc == .high && (m.opcodes == [] || m.opcodes.contains 0x2C)

/-- The hazards of a byte clocked at the time `t`. R186 places pixel data in the bracket, and says nothing of how much of it
there is: data frames of an odd byte count, and more bytes in a session than its window holds, are no hazard here: DESIGN
CHOICE, log 29. -/
noncomputable def Monitor.hazardsOfByte (m : Monitor) (t : Time) : List Hazard :=
  (if m.resetDone t then [] else [.byteBeforeHwReset]) ++
  (if m.settling t then [.byteInSettleWindow] else []) ++
  (if m.cs = .high then [.byteOutsideFrame] else []) ++
  (if m.pixelData && !m.known then [.dataBeforeInit] else []) ++
  (if m.pixelData && !m.session then [.dataOutsideSession] else []) ++
  (if m.pixelData && !m.windowed then [.dataWithoutWindow] else [])

/-- Neither a write session nor an address window is known any more. -/
def Monitor.closeBracket (m : Monitor) : Monitor :=
  { m with columns := false, pages := false, session := false, windowed := false }

/-- Nothing is known of the panel until INIT is complete (U4, U10, U14). -/
def Monitor.lose (m : Monitor) : Monitor := { m.closeBracket with known := false }

/-- Nothing is known of the panel until a whole new INIT, from its `RST=0` on: after a fault (U10, U3), and after any hazard,
which leaves "the panel in an unknown state" (R180). -/
def Monitor.forget (m : Monitor) : Monitor := { m.lose with clean := false }

/-- An opcode byte (R31). It ends what is known of a session, 0x00 as its close and any other because the source has no
command inside the bracket. 0x2A leaves the columns open until its frame has ended whole, 0x2B the pages, and 0x2C neither.
The panel stays known through the opcodes of the write bracket and, outside it, the status reads, with which INIT itself may
end before any drawing (R112, R173). What any other opcode does after INIT, or a second one in a frame, or another than
0x00 in a session, the spec does not say, and a table entry sent again may leave the panel undefined (N1, N9, R40, N10, U4,
U14; 0x01 resets it, R171): DESIGN CHOICE, log 19, a new INIT is due. -/
def Monitor.opcodeByte (m : Monitor) (b : Byte) (t : Time) : Monitor :=
  { m with
    opcodes := m.opcodes ++ [b]
    swResetAt := if b = 0x01 then some t else m.swResetAt
    known := m.known && m.opcodes == [] && if m.session then b == 0x00 else bracketOpcode b || aliasedRead b
    columns := m.columns && (b == 0x2B || b == 0x2C)
    pages := m.pages && (b == 0x2A || b == 0x2C)
    session := false
    windowed := false }

/-- A byte on the wire, of a `TX` or an `XF` event: an opcode byte where `DC` is low (R31). A frame may hold several
(N10, U14); each counts, and after a second one nothing is known until a new INIT (log 19). -/
noncomputable def Monitor.byte (m : Monitor) (e : Event) (b : Byte) (t : Time) : Monitor :=
  let found := m.hazardsOfByte t
  let seen := { m with hazards := m.hazards ++ found, frame := m.frame ++ [e] }
  let next := if found = [] then seen else seen.forget
  if m.dc = .low then next.opcodeByte b t else next

/-- The frame that ends now is at its place in an INIT (R112, R115). -/
def Monitor.inPlace (m : Monitor) (p : Params) : Bool :=
  match m.bringUp with
  | some es => (bringUps p).any fun traffic => (es ++ [Event.drive .cs .high]).isPrefixOf traffic
  | none => false

/-- `CS=1` ends a frame (R31). Once INIT is complete (R173), `COMMAND 0x2C, []` opens the write session, in the window that
`COMMAND 0x2A` and `COMMAND 0x2B` with their four bytes have set before it (R34, R57, R186): the window is that of "the
next memory-write command" (R22 (4)). A data frame in a session changes nothing, whatever its byte count, zero and odd
ones among them, of which the spec is silent (DESIGN CHOICE, log 29). `COMMAND 0x00, []` and a status read, an opcode of R57
with any number of dummy bytes after it, leave neither session nor window known (N9). A table entry out of its place is a
hazard (R185). What any other frame does the spec does not say, such as a data frame without a byte outside a session
(U14: no hazard, since it holds no pixel data), a 0x2A or 0x2B with a payload of other than four bytes, a 0x2C or 0x00 with
a payload, several opcode bytes, a read with another opcode or with other bytes than dummies, or a frame of raw operations
that is none of COMMAND's, READ_REGISTER's and WRITE_DATA's (N10, U14): DESIGN CHOICE, log 19, nothing is known after it
until a new INIT. -/
def Monitor.frameEnd (m : Monitor) (p : Params) : Monitor :=
  let closed := { m with cs := .high, frame := [], opcodes := [] }
  match frameOf m.dc m.frame with
  | .data => if m.session then closed else closed.lose
  | .read opcode sent =>
    if aliasedRead opcode && sent.all (· == p.dummy) then closed.closeBracket else closed.lose
  | .command opcode payload =>
    if isTableEntry p opcode payload && !m.inPlace p then
      { closed.forget with hazards := m.hazards ++ [.tableOutOfPlace] }
    else if opcode = 0x2A ∧ payload.length = 4 then { closed with columns := m.known }
    else if opcode = 0x2B ∧ payload.length = 4 then { closed with pages := m.known }
    else if opcode = 0x2C ∧ payload = [] then
      { closed.closeBracket with session := m.known, windowed := m.columns && m.pages }
    else if (opcode = 0x00 ∨ aliasedRead opcode) ∧ payload = [] then closed.closeBracket
    else closed.lose
  | .other => closed.lose

/-- `CS=0` begins a frame. Where the one before is open there is no edge, and the panel sees one long frame (R146). -/
def Monitor.frameStart (m : Monitor) : Monitor :=
  if m.cs = .low then
    { m.forget with frame := m.frame ++ [.drive .cs .low], hazards := m.hazards ++ [.frameNotClosed] }
  else { m with cs := .low, frame := [], opcodes := [] }

/-- What the observer takes from one event at its time, INIT aside. A `FAULT` leaves the panel unknown, but starts no settle
window: the byte it cut may have been an opcode 0x01 that reached the panel without a `TX` event (U3), and whether the panel
then ignores commands for 120 ms (R182) the spec leaves open. For the same reason it counts as no byte sent: a byte cut
before the reset pulse (R181), in a settle window (R182), with `CS = 1` (R191), or as pixel data (R173, R186), is no hazard
here, only what `TX` and `XF` record is. All of this is DESIGN CHOICE, log 28. -/
noncomputable def Monitor.take (p : Params) (m : Monitor) (e : Event) (t : Time) : Monitor :=
  match e with
  | .drive .cs .low => m.frameStart
  | .drive .cs .high => if m.cs = .low then m.frameEnd p else m
  | .drive .dc level => { m with dc := level, frame := m.frame ++ [e] }
  | .drive .rst .low => { m.lose with lowSince := some t, highSince := none, bringUp := some [], clean := true }
  | .drive .rst .high =>
    match m.lowSince with
    | some t0 => { m with lowSince := none, highSince := if t0.ms + 50 ≤ t.ms then some t else none }
    | none => m
  | .tx b => m.byte e b t
  | .xf b _ => m.byte e b t
  | .backlight _ => m
  | .wait _ => m
  | .fault => { m.forget with frame := m.frame ++ [e] }

/-- R173, R185, U10: the events since the latest `RST=0` are kept while they are the beginning of an INIT, until they are the
whole of one; a FAULT is no part of any, and one in which a hazard was met leaves the panel unknown (R180). -/
def Monitor.follow (p : Params) (m : Monitor) (e : Event) : Monitor :=
  match m.bringUp with
  | none => m
  | some es =>
    if (bringUps p).contains (es ++ plain e) then { m with bringUp := none, known := m.clean }
    else if (bringUps p).any fun traffic => (es ++ plain e).isPrefixOf traffic then
      { m with bringUp := some (es ++ plain e) }
    else { m with bringUp := none }

/-- One event at its time; the parameters tell what an INIT looks like. -/
noncomputable def Monitor.observe (p : Params) (m : Monitor) (e : Event) (t : Time) : Monitor :=
  Monitor.follow p (Monitor.take p m e t) e

/-- The monitor after the whole trace. -/
noncomputable def monitor (s : State) : Monitor :=
  (s.trace.zip s.stamps).foldl (fun m et => Monitor.observe s.params m et.1 et.2) Monitor.start

/-- A run so far that met none of the hazards a trace shows. -/
abbrev RunSafe (s : State) : Prop := (monitor s).hazards = []

/-- R184: the frame is closed. -/
abbrev FrameClosed (s : State) : Prop := s.pins.cs = .high

end Sys2Proof.Safety
end

