-- ==== Sys2Proof/Certificates/Slice0/Obligations.lean ====
section
/-! DEFINITION. The statements for the provers, from the numbered rules of spec/. -/

open Sys2Proof Sys2Proof.Machine Sys2Proof.Safety

/-! ## Descriptors -/

/-- R50, R52, R55: descriptor bytes written out from the encoding tables, and the operations they stand for. R58 lets a
decoder ignore its alias rows: that the fifth and the sixth are read under an alias name, COLUMN_ADDRESS_SET and
READ_POWER_MODE, is the model's choice (log 2). -/
def Obligations.WrittenOutDescriptorsDecode : Prop :=
  decode [0x01, 0x00, 0x00, 0x00] = .instr .csAssert [] ∧
  decode [0x05, 0x00, 0x00, 0x02, 0xAB, 0xCD] = .instr (.write [0xAB, 0xCD]) [] ∧
  decode [0x06, 0x00, 0x00, 0x02, 0x12, 0x34] = .instr (.transfer [0x12, 0x34]) [] ∧
  decode [0x10, 0xAA, 0x00, 0x02, 0x01, 0x02] = .instr (.command 0xAA [0x01, 0x02]) [] ∧
  decode [0x10, 0x2A, 0x00, 0x04, 0x12, 0x34, 0xAB, 0xCD] = .instr (.columnAddressSet 0x1234 0xABCD) [] ∧
  decode [0x11, 0x0A, 0x01, 0x00] = .instr (.readPowerMode 256) [] ∧
  decode [0x12, 0x00, 0x00, 0x02, 0xF8, 0x00] = .instr (.writeData [0xF8, 0x00]) [] ∧
  decode [0x21, 0x00, 0x00, 0x00] = .instr .swReset [] ∧
  decode [0x50, 0x01, 0x00, 0xC8] = .instr (.cfgWrite 1 200) [] ∧
  decode [0x51, 0x03, 0x00, 0x00] = .instr (.cfgRead 3) []

/-- Every well-formed instruction is read back from its descriptor, whatever bytes follow (R50, R52, R53, R55). The
name an alias word gets is the model's choice (log 2). -/
def Obligations.DecodeOfEncode : Prop :=
  ∀ (i : Instr) (rest : List Byte), i.wellFormed = true → decode (encode i ++ rest) = .instr i rest

/-- What the decoder accepts is a well-formed instruction, and the bytes are its descriptor and the rest. -/
def Obligations.EncodeOfDecode : Prop :=
  ∀ (bytes rest : List Byte) (i : Instr), decode bytes = .instr i rest →
    i.wellFormed = true ∧ bytes = encode i ++ rest

/-- R54, R55: the header matches exactly one row of the table where the decoder finds an operation (or finds its
inline bytes missing), and none where it finds none; the operation is that row's. -/
def Obligations.DecoderAgreesWithTable : Prop :=
  ∀ (opc arg hi lo : Byte) (rest : List Byte),
    match decode (opc :: arg :: hi :: lo :: rest) with
    | .instr i _ => ∃ row, baseRows.filter (·.matches (headerWord opc arg (ofBe16 hi lo))) = [row] ∧
        row.mnemonic = i.baseMnemonic
    | .unsupported after => baseRows.filter (·.matches (headerWord opc arg (ofBe16 hi lo))) = [] ∧ after = rest
    | .truncated => ∃ row, baseRows.filter (·.matches (headerWord opc arg (ofBe16 hi lo))) = [row]

/-- R56: the illegal headers, listed. -/
def Obligations.IllegalHeadersListed : Prop :=
  ∀ (opc arg hi lo : Byte) (rest : List Byte),
    decode (opc :: arg :: hi :: lo :: rest) = .unsupported rest ↔
      (opc ∉ ([0x01, 0x02, 0x03, 0x04, 0x05, 0x06, 0x10, 0x11, 0x12, 0x20, 0x21, 0x50, 0x51] : List Byte) ∨
       (opc ∈ ([0x01, 0x02, 0x03, 0x04, 0x20, 0x21] : List Byte) ∧ (arg ≠ 0 ∨ ofBe16 hi lo ≠ 0)) ∨
       (opc ∈ ([0x05, 0x06, 0x12] : List Byte) ∧ arg ≠ 0) ∨
       (opc ∈ ([0x50, 0x51] : List Byte) ∧ 3 < arg.toNat) ∨
       (opc = 0x51 ∧ ofBe16 hi lo ≠ 0))

/-- R70, R17: the meaning of every operation is its descriptor's latches and the primitive list the latches and the
configuration registers expand to. -/
def Obligations.MeaningsRunTheExpansion : Prop :=
  ∀ (i : Instr) (s : State), i.wellFormed = true → exec i s = operate (latchesOf (encode i)) (planOf i s) s

/-- R58: an alias "is the base operation with the fields shown". -/
def Obligations.AliasesAreTheirBaseOperation : Prop :=
  ∀ (s : State) (a b n : Half),
    exec .noop s = exec (.command 0x00 []) s ∧
    exec .sleepOut s = exec (.command 0x11 []) s ∧
    exec .displayOn s = exec (.command 0x29 []) s ∧
    exec .memoryWrite s = exec (.command 0x2C []) s ∧
    exec (.columnAddressSet a b) s = exec (.command 0x2A (be16 a ++ be16 b)) s ∧
    exec (.pageAddressSet a b) s = exec (.command 0x2B (be16 a ++ be16 b)) s ∧
    exec (.readStatus n) s = exec (.readRegister 0x09 n) s ∧
    exec (.readPowerMode n) s = exec (.readRegister 0x0A n) s ∧
    exec (.readMadctl n) s = exec (.readRegister 0x0B n) s ∧
    exec (.readPixelFormat n) s = exec (.readRegister 0x0C n) s

/-! ## The step -/

/-- R88: with the sequencer idle, the host's next descriptor is taken from its program and run to its end; before it, time
passes (R21). That the whole operation is one step, and where the host's program stands, is the model's choice (log 1,
log 7). -/
def Obligations.StepRunsDecodedInstruction : Prop :=
  ∀ (s : State) (bytes rest : List Byte) (ps : List HostMove) (i : Instr),
    s.resetInput = false → s.seq = .idle → s.host.job = none → s.host.program = .submit bytes :: ps →
    decode bytes = .instr i rest → step s = exec i (s.elapse.withProgram (pushBytes rest ps))

/-- R88: while an operation runs the host has no move: the step is the sequencer's (log 1, log 17). -/
def Obligations.RunningStepIsTheSequencers : Prop :=
  ∀ (s : State) (plist : List Prim) (upc bidx : Nat), s.resetInput = false → s.seq = .running plist upc bidx →
    ∃ t, step s = .next t ∧ t = seqStep s ∧ t.host.program = s.host.program ∧ t.latches = s.latches

/-- R54, R141: a descriptor that matches no operation completes with code 2; no event, no other change of the block. The
host moves on past the four bytes (R53), and time passes between operations (R21); its record list and its program are
the model's (log 7, log 12, log 20, log 26). -/
def Obligations.RejectedDescriptorChangesNothing : Prop :=
  ∀ (s : State) (bytes rest : List Byte) (ps : List HostMove),
    s.resetInput = false → s.seq = .idle → s.host.job = none → s.host.program = .submit bytes :: ps →
    decode bytes = .unsupported rest →
    step s = .next { s with
      now := s.now.later
      host := { s.host with
        program := pushBytes rest ps
        completions := s.host.completions ++ [⟨.unsupportedOperation, []⟩] } }

/-- Bytes too few for a descriptor are none (R32, R50): the machine stops by name (the model's choice, log 11). -/
def Obligations.TruncatedDescriptorStops : Prop :=
  ∀ (s : State) (b : Byte) (bytes : List Byte) (ps : List HostMove),
    s.resetInput = false → s.seq = .idle → s.host.job = none → s.host.program = .submit (b :: bytes) :: ps →
    decode (b :: bytes) = .truncated → step s = .fault .truncatedDescriptor

/-- R170: block reset. The host's macro is dropped, its program and records stay (log 8). -/
def Obligations.BlockResetStep : Prop :=
  ∀ s : State, s.resetInput = true →
    ∃ t, step s = .next t ∧ t.pins = ⟨.high, .high, .high, .low, .low, .low⟩ ∧
      t.cfg = ⟨0x0000, 0x0032, 0x0032, 0x0078⟩ ∧ t.rx = [] ∧ t.seq = .idle ∧ t.trace = [] ∧ t.stamps = [] ∧
      t.now = s.now.restart ∧ t.now.ms = 0 ∧ t.resetInput = false ∧ t.params = s.params ∧ t.answers = s.answers ∧ t.draws = s.draws ∧
      t.host = { s.host with job := none }

/-! ## Reset and invariants -/

/-- R15. -/
def Obligations.ConfigurationResetValues : Prop :=
  State.reset.cfg.get 0 = 0x0000 ∧ State.reset.cfg.get 1 = 0x0032 ∧ State.reset.cfg.get 2 = 0x0032 ∧
    State.reset.cfg.get 3 = 0x0078

/-- R26: the pins, the registers, the buffer, the position and the ghost state at reset. -/
def Obligations.ResetStateOfTheBlock : Prop :=
  State.reset.pins.cs = .high ∧ State.reset.pins.dc = .high ∧ State.reset.pins.rst = .high ∧
    State.reset.pins.bl = .low ∧ State.reset.pins.sck = .low ∧ State.reset.pins.sdo = .low ∧
    State.reset.cfg = ⟨0x0000, 0x0032, 0x0032, 0x0078⟩ ∧ State.reset.seq = .idle ∧ State.reset.rx = [] ∧
    State.reset.trace = [] ∧ State.reset.now.ms = 0

/-- The invariants of the block hold at reset. -/
def Obligations.ResetMeetsInvariant : Prop := Inv State.reset

/-- R16: the legalising function, and that no step leaves a register below its minimum, from any legal state. -/
def Obligations.ConfigurationStaysLegal : Prop :=
  (∀ v : Half, legal 0 v = (v.extractLsb' 0 1).setWidth 16 ∧ (legal 1 v).toNat = max v.toNat 50 ∧
    (legal 2 v).toNat = max v.toNat 50 ∧ (legal 3 v).toNat = max v.toNat 120) ∧
  (∀ (s : State) (reg : Fin 4) (v : Half), (s.cfg.set reg v).get reg = legal reg v ∧
    ∀ r, r ≠ reg → (s.cfg.set reg v).get r = s.cfg.get r) ∧
  CfgLegal State.reset ∧
  ∀ s t : State, CfgLegal s → step s = .next t → CfgLegal t

/-- R20, R26: after every step each pin has the level of its latest event, or its reset level. -/
def Obligations.StepKeepsPinsOnTrace : Prop :=
  ∀ s t : State, PinsFollowTrace s → step s = .next t → PinsFollowTrace t

/-- R21, R43: time never decreases along the trace, and a wait orders everything before it (`stamps`: log 5; times as
bounds and free durations: log 4). -/
def Obligations.StepKeepsTimeline : Prop :=
  ∀ s t : State, TimelineOk s → step s = .next t → TimelineOk t

/-- R19: the bounds of the sequencer position, which every accepted operation meets ("`len(plist) <= 6` for every
operation") and every step keeps; and R71: the clock idles low. -/
def Obligations.StepKeepsSequencerBounded : Prop :=
  (∀ (i : Instr) (s : State), i.wellFormed = true → SeqBounded (accept (latchesOf (encode i)) (planOf i s) s) ∧
    (accept (latchesOf (encode i)) (planOf i s) s).seq = .running (planOf i s) 0 0) ∧
  ∀ s t : State, SeqBounded s → ClockIdle s → step s = .next t → SeqBounded t ∧ ClockIdle t

/-- All of the block's invariants together. -/
def Obligations.StepKeepsInvariant : Prop := ∀ s t : State, Inv s → step s = .next t → Inv t

/-- R20, R41: a step that is no block reset never takes an event or a completion back, nor changes a parameter. -/
def Obligations.StepOnlyAppends : Prop :=
  ∀ s t : State, s.resetInput = false → step s = .next t →
    s.trace <+: t.trace ∧ s.stamps <+: t.stamps ∧ s.host.completions <+: t.host.completions ∧
      s.host.macroEnds <+: t.host.macroEnds ∧ t.params = s.params ∧ s.draws ≤ t.draws

/-! ## Every operation

Where a statement says through `Ended` what the latches hold after the end, or what `RX` holds after a completion of code 0,
it is the model's reading of R70 (log 21): R17 and R32 give their content no meaning then. -/

/-- R18, R70, R88, R140, R142: every operation ends, idle, with exactly one completion, of code 0 exactly where no
fault point's answer is a fault; the result bytes of any other code are empty, and code 0 has some only for the reads. -/
def Obligations.EveryOperationEndsOnce : Prop :=
  ∀ (i : Instr) (s : State), i.wellFormed = true →
    ∃ (t : State) (c : Completion), exec i s = .next t ∧ t.seq = .idle ∧ t.host = s.host.receive c ∧
      ((c.code = .ok ∧ NoFault (planOf i s) s) ∨
       (c.code = .transportFault ∧ c.rx = [] ∧ ∃ k, FirstFault (planOf i s) s k)) ∧
      (c.rx ≠ [] → i.baseMnemonic = "TRANSFER" ∨ i.baseMnemonic = "READ_REGISTER" ∨ i.baseMnemonic = "CFG_READ")

/-- R24, R147: the model's own fault observation, over the completions, is raised by a fault and by nothing that completes
with code 0; it is never lowered. -/
def Obligations.FaultObservation : Prop :=
  ∀ (i : Instr) (s : State), i.wellFormed = true →
    (NoFault (planOf i s) s → ∃ t, exec i s = .next t ∧ t.host.faulted = s.host.faulted) ∧
    (∀ k, FirstFault (planOf i s) s k → ∃ t, exec i s = .next t ∧ t.host.faulted = true)

/-- R144: after a fault at step `k` the trace holds the events of the steps before it and `FAULT`; nothing later
runs; the result bytes are gone; `CS`, `DC`, `RST` have the levels of those events, `BL` and the registers are as
before, and so is an idle clock. Of `SDO` it says nothing: SerialFaultKeepsThePins does (log 14). The latches: log 21. With `FAULT_POINTS =
all_primitives` step `k` may be a `Drive` or a `Wait`; that it then enters as a serial fault does is the model's (log 30). -/
def Obligations.FaultKeepsAPrefix : Prop :=
  ∀ (i : Instr) (s : State) (k : Nat), i.wellFormed = true → FirstFault (planOf i s) s k →
    ∃ t, exec i s = .next t ∧
      Ended s t (latchesOf (encode i)) (((planEvents s 1 (planOf i s)).take k).flatten ++ [.fault])
        ⟨.transportFault, []⟩ (k + 2) ∧
      t.rx = [] ∧ t.cfg = s.cfg ∧ t.pins.bl = s.pins.bl ∧ (ClockIdle s → ClockIdle t) ∧
      ∀ line, level t.pins line = lineLevel (level s.pins line) line ((planEvents s 1 (planOf i s)).take k).flatten

/-- R145: the levels of `CS` and `DC` after a fault, by operation and faulting primitive, with `FAULT_POINTS =
serial_only`. The steps of COMMAND, READ_REGISTER and SW_RESET before 4 are `CS`, `DC` and the opcode write; those of
WRITE_DATA from 2 on are its write. -/
def Obligations.PinLevelsAfterAFault : Prop :=
  ∀ (s : State) (k : Nat) (opcode : Byte) (count : Half) (bytes : List Byte), s.params.faultPoints = .serialOnly →
    (FirstFault [.busWrite bytes] s k → ∃ t, exec (.write bytes) s = .next t ∧ t.pins.cs = s.pins.cs ∧
      t.pins.dc = s.pins.dc) ∧
    (FirstFault [.busTransfer bytes] s k → ∃ t, exec (.transfer bytes) s = .next t ∧ t.pins.cs = s.pins.cs ∧
      t.pins.dc = s.pins.dc) ∧
    (FirstFault (commandPlan opcode bytes) s k → ∃ t, exec (.command opcode bytes) s = .next t ∧ t.pins.cs = .low ∧
      t.pins.dc = if k < 4 then .low else .high) ∧
    (FirstFault (readPlan opcode count s.params.dummy) s k → ∃ t, exec (.readRegister opcode count) s = .next t ∧
      t.pins.cs = .low ∧ t.pins.dc = if k < 4 then .low else .high) ∧
    (FirstFault [.drive .dc .high, .drive .cs .low, .busWrite bytes, .drive .cs .high] s k →
      ∃ t, exec (.writeData bytes) s = .next t ∧ t.pins.cs = .low ∧ t.pins.dc = .high) ∧
    (FirstFault (commandPlan 0x01 [] ++ [.wait (s.cfg.get 3)]) s k → ∃ t, exec .swReset s = .next t ∧
      t.pins.cs = .low ∧ t.pins.dc = .low ∧ ∀ d, Event.wait d ∉ t.trace.drop s.trace.length)

/-- R143: with `FAULT_POINTS = all_primitives`, a fault in place of a `Drive` or a `Wait`, the first primitive of a list or
a later one, leaves it without effect: the state is that of the list before it completed, but for the `FAULT` event, the
emptied result buffer and the record's code. That such a fault appends `FAULT` is the model's choice (log 30). -/
def Obligations.PinStepFaultHasNoEffect : Prop :=
  ∀ (s : State) (l : Latches) (before after : List Prim) (p : Prim), s.params.faultPoints = .allPrimitives →
    ((∃ line lv, p = .drive line lv) ∨ ∃ d, p = .wait d) → NoFault before s →
    (s.answerAt ((faultSteps .allPrimitives before).length + 1)).fault = true →
    ∃ u, operate l before s = .next u ∧
      operate l (before ++ p :: after) s = .next { u with
        trace := u.trace ++ [.fault]
        stamps := u.stamps ++ [u.now]
        rx := []
        host := s.host.receive ⟨.transportFault, []⟩ }

/-- R143, R100, R101: so a faulted wait of HW_RESET or SW_RESET adds none of its bound to `now`, and a whole one before
it adds its own. That such a fault appends `FAULT` is the model's choice (log 30). -/
def Obligations.FaultedWaitTakesNoTime : Prop :=
  ∀ s : State, s.params.faultPoints = .allPrimitives →
    (FirstFault (planOf .hwReset s) s 1 → ∃ t, exec .hwReset s = .next t ∧ t.now.fixed = s.now.fixed ∧
      t.trace = s.trace ++ [.drive .rst .low, .fault] ∧ t.pins = { s.pins with rst := .low }) ∧
    (FirstFault (planOf .hwReset s) s 3 → ∃ t, exec .hwReset s = .next t ∧
      t.now.fixed = s.now.fixed + s.cfg.tRstLow.toNat ∧
      t.trace = s.trace ++ [.drive .rst .low, .wait s.cfg.tRstLow, .drive .rst .high, .fault] ∧
      t.pins = { s.pins with rst := .high }) ∧
    (FirstFault (planOf .swReset s) s 6 → ∃ t, exec .swReset s = .next t ∧ t.now.fixed = s.now.fixed ∧
      t.trace = s.trace ++
        [.drive .cs .low, .drive .dc .low, .tx 0x01, .drive .dc .high, .drive .cs .high, .fault] ∧
      t.pins.cs = .high ∧ t.pins.dc = .high)

/-- R11, R138: whatever its outcome, an operation changes only the control lines R11 lets it drive; `RST` is HW_RESET's;
the registers and `BL` are CFG_WRITE's; the serial pins move only with bytes. -/
def Obligations.OnlyTheNamedOperationsDrive : Prop :=
  ∀ (i : Instr) (s t : State), exec i s = .next t →
    (∀ line, drives i line = false → level t.pins line = level s.pins line) ∧
    ((∀ reg v, i ≠ .cfgWrite reg v) → t.cfg = s.cfg ∧ t.pins.bl = s.pins.bl) ∧
    (clocksBytes i = false → t.pins.sck = s.pins.sck ∧ t.pins.sdo = s.pins.sdo) ∧
    t.params = s.params ∧ t.resetInput = s.resetInput ∧ t.host.program = s.host.program

/-- R79, R6: neither the variant nor the clock rate has any effect. -/
def Obligations.VariantAndClockRateHaveNoEffect : Prop :=
  ∀ (i : Instr) (s t : State) (v : Variant) (f : Nat), exec i s = .next t →
    exec i (s.withParams { s.params with variant := v, sckHz := f }) =
      .next (t.withParams { t.params with variant := v, sckHz := f })

/-! ## The operations, one family after another -/

/-- R80 to R83. -/
def Obligations.PinOperationsDriveOneLine : Prop :=
  ∀ s : State,
    (NoFault [.drive .cs .low] s → ∃ t, exec .csAssert s = .next t ∧
      Ended s t ⟨0x01, 0, 0, []⟩ [.drive .cs .low] ⟨.ok, []⟩ 3 ∧
      t.pins = { s.pins with cs := .low } ∧ t.cfg = s.cfg ∧ t.rx = []) ∧
    (NoFault [.drive .cs .high] s → ∃ t, exec .csDeassert s = .next t ∧
      Ended s t ⟨0x02, 0, 0, []⟩ [.drive .cs .high] ⟨.ok, []⟩ 3 ∧
      t.pins = { s.pins with cs := .high } ∧ t.cfg = s.cfg ∧ t.rx = []) ∧
    (NoFault [.drive .dc .low] s → ∃ t, exec .selectCommand s = .next t ∧
      Ended s t ⟨0x03, 0, 0, []⟩ [.drive .dc .low] ⟨.ok, []⟩ 3 ∧
      t.pins = { s.pins with dc := .low } ∧ t.cfg = s.cfg ∧ t.rx = []) ∧
    (NoFault [.drive .dc .high] s → ∃ t, exec .selectData s = .next t ∧
      Ended s t ⟨0x04, 0, 0, []⟩ [.drive .dc .high] ⟨.ok, []⟩ 3 ∧
      t.pins = { s.pins with dc := .high } ∧ t.cfg = s.cfg ∧ t.rx = [])

/-- R80 to R83, R100, R143: with `FAULT_POINTS = serial_only` no answer of the oracle stops an operation without a
serial primitive; CFG_WRITE and CFG_READ never fault. -/
def Obligations.OperationsWithoutBytesCannotFault : Prop :=
  ∀ (i : Instr) (s : State), clocksBytes i = false →
    (s.params.faultPoints = .serialOnly ∨ (∃ reg v, i = .cfgWrite reg v) ∨ ∃ reg, i = .cfgRead reg) →
    ∃ (t : State) (c : Completion), exec i s = .next t ∧ t.host = s.host.receive c ∧ c.code = .ok ∧
      Event.fault ∉ t.trace.drop s.trace.length

/-- R84. -/
def Obligations.WriteSendsItsBytes : Prop :=
  ∀ (s : State) (bytes : List Byte), NoFault [.busWrite bytes] s →
    ∃ t, exec (.write bytes) s = .next t ∧
      Ended s t ⟨0x05, 0, lenOf bytes, bytes⟩ (bytes.map Event.tx) ⟨.ok, []⟩ (bytes.length + 3) ∧
      (bytes = [] → t.pins = s.pins) ∧ (bytes ≠ [] → ∃ v, t.pins = { s.pins with sck := .low, sdo := v }) ∧
      t.cfg = s.cfg ∧ t.rx = []

/-- R85, R74, R75. That `RX` keeps the bytes after the completion is the model's reading of R70 (log 21). -/
def Obligations.TransferExchangesBytes : Prop :=
  ∀ (s : State) (bytes : List Byte), NoFault [.busTransfer bytes] s →
    ∃ t, exec (.transfer bytes) s = .next t ∧
      Ended s t ⟨0x06, 0, lenOf bytes, bytes⟩ (transferEvents s 1 bytes)
        ⟨.ok, incomingBytes s 1 bytes.length⟩ (bytes.length + 3) ∧
      (bytes = [] → t.pins = s.pins) ∧ (bytes ≠ [] → ∃ v, t.pins = { s.pins with sck := .low, sdo := v }) ∧
      t.cfg = s.cfg ∧ t.rx = incomingBytes s 1 bytes.length

/-- R90. -/
def Obligations.CommandSendsOneFrame : Prop :=
  ∀ (s : State) (opcode : Byte) (payload : List Byte), NoFault (commandPlan opcode payload) s →
    ∃ t, exec (.command opcode payload) s = .next t ∧ CommandRan s t opcode payload

/-- R58, R90: the six alias names of COMMAND. -/
def Obligations.CommandAliasesSendTheirFrame : Prop :=
  ∀ (s : State) (a b : Half),
    (NoFault (commandPlan 0x00 []) s → ∃ t, exec .noop s = .next t ∧ CommandRan s t 0x00 []) ∧
    (NoFault (commandPlan 0x11 []) s → ∃ t, exec .sleepOut s = .next t ∧ CommandRan s t 0x11 []) ∧
    (NoFault (commandPlan 0x29 []) s → ∃ t, exec .displayOn s = .next t ∧ CommandRan s t 0x29 []) ∧
    (NoFault (commandPlan 0x2C []) s → ∃ t, exec .memoryWrite s = .next t ∧ CommandRan s t 0x2C []) ∧
    (NoFault (commandPlan 0x2A (be16 a ++ be16 b)) s → ∃ t, exec (.columnAddressSet a b) s = .next t ∧
      CommandRan s t 0x2A (be16 a ++ be16 b)) ∧
    (NoFault (commandPlan 0x2B (be16 a ++ be16 b)) s → ∃ t, exec (.pageAddressSet a b) s = .next t ∧
      CommandRan s t 0x2B (be16 a ++ be16 b))

/-- R91: the events of one successful COMMAND: the first is `CS=0`, the last `CS=1`, between them no `CS` event; one `TX`
between `DC=0` and `DC=1`, the opcode, and after it the payload bytes in order; nothing else. So `CS` is low at every
byte, and `DC` is low at a byte exactly when it is the first. -/
def Obligations.CommandFramingProperty : Prop :=
  ∀ (s : State) (opcode : Byte) (payload : List Byte), NoFault (commandPlan opcode payload) s →
    ∃ (t : State) (body : List Event), exec (.command opcode payload) s = .next t ∧
      t.trace = s.trace ++ (.drive .cs .low :: body ++ [.drive .cs .high]) ∧
      body = [.drive .dc .low, .tx opcode, .drive .dc .high] ++ payload.map Event.tx ∧
      (∀ lv, Event.drive .cs lv ∉ body) ∧
      ∀ (before after : List Event) (b : Byte), Event.drive .cs .low :: body = before ++ Event.tx b :: after →
        lineLevel .high .cs before = .low ∧
        (lineLevel .high .dc before = .low ↔ ∀ x, Event.tx x ∉ before)

/-- R92. That `RX` keeps the bytes after the completion (`ReadRan.rx`) is the model's reading of R70 (log 21). -/
def Obligations.ReadRegisterSendsOneFrame : Prop :=
  ∀ (s : State) (opcode : Byte) (count : Half), NoFault (readPlan opcode count s.params.dummy) s →
    ∃ t, exec (.readRegister opcode count) s = .next t ∧ ReadRan s t opcode count

/-- R58, R92: the four alias names of READ_REGISTER. That `RX` keeps the bytes after the completion (`ReadRan.rx`) is the
model's reading of R70 (log 21). -/
def Obligations.ReadAliasesSendTheirFrame : Prop :=
  ∀ (s : State) (n : Half),
    (NoFault (readPlan 0x09 n s.params.dummy) s → ∃ t, exec (.readStatus n) s = .next t ∧ ReadRan s t 0x09 n) ∧
    (NoFault (readPlan 0x0A n s.params.dummy) s → ∃ t, exec (.readPowerMode n) s = .next t ∧ ReadRan s t 0x0A n) ∧
    (NoFault (readPlan 0x0B n s.params.dummy) s → ∃ t, exec (.readMadctl n) s = .next t ∧ ReadRan s t 0x0B n) ∧
    (NoFault (readPlan 0x0C n s.params.dummy) s → ∃ t, exec (.readPixelFormat n) s = .next t ∧ ReadRan s t 0x0C n)

/-- R93: `DC` first, then `CS`. -/
def Obligations.WriteDataSendsOneFrame : Prop :=
  ∀ (s : State) (bytes : List Byte),
    NoFault [.drive .dc .high, .drive .cs .low, .busWrite bytes, .drive .cs .high] s →
    ∃ t, exec (.writeData bytes) s = .next t ∧
      Ended s t ⟨0x12, 0, lenOf bytes, bytes⟩
        ([.drive .dc .high, .drive .cs .low] ++ bytes.map Event.tx ++ [.drive .cs .high])
        ⟨.ok, []⟩ (bytes.length + 6) ∧
      (bytes = [] → t.pins = { s.pins with cs := .high, dc := .high }) ∧
      (bytes ≠ [] → ∃ v, t.pins = { s.pins with cs := .high, dc := .high, sck := .low, sdo := v }) ∧
      t.cfg = s.cfg ∧ t.rx = []

/-- R100. -/
def Obligations.HwResetPulsesTheLine : Prop :=
  ∀ s : State, NoFault [.drive .rst .low, .wait s.cfg.tRstLow, .drive .rst .high, .wait s.cfg.tRstHigh] s →
    ∃ t, exec .hwReset s = .next t ∧
      Ended s t ⟨0x20, 0, 0, []⟩
        [.drive .rst .low, .wait s.cfg.tRstLow, .drive .rst .high, .wait s.cfg.tRstHigh] ⟨.ok, []⟩ 6 ∧
      t.pins = { s.pins with rst := .high } ∧ t.cfg = s.cfg ∧ t.rx = [] ∧
      s.now.ms + s.cfg.tRstLow.toNat + s.cfg.tRstHigh.toNat ≤ t.now.ms

/-- R101. -/
def Obligations.SwResetSendsAndWaits : Prop :=
  ∀ s : State, NoFault (commandPlan 0x01 [] ++ [.wait s.cfg.tSwrst]) s →
    ∃ t, exec .swReset s = .next t ∧
      Ended s t ⟨0x21, 0, 0, []⟩
        [.drive .cs .low, .drive .dc .low, .tx 0x01, .drive .dc .high, .drive .cs .high, .wait s.cfg.tSwrst]
        ⟨.ok, []⟩ 9 ∧
      (∃ v, t.pins = { s.pins with cs := .high, dc := .high, sck := .low, sdo := v }) ∧ t.cfg = s.cfg ∧ t.rx = [] ∧
      s.now.ms + s.cfg.tSwrst.toNat ≤ t.now.ms

/-- R102: the times of the reset events, for every value the configuration registers can take (R16). `stamps` holds the
time of each event of `trace` in order (log 5), and the completion is at `t.now`. -/
def Obligations.ResetTimingProperties : Prop :=
  ∀ s : State, CfgLegal s →
    (NoFault [.drive .rst .low, .wait s.cfg.tRstLow, .drive .rst .high, .wait s.cfg.tRstHigh] s →
      ∃ (t : State) (low w1 high w2 : Time), exec .hwReset s = .next t ∧
        t.trace = s.trace ++ [.drive .rst .low, .wait s.cfg.tRstLow, .drive .rst .high, .wait s.cfg.tRstHigh] ∧
        t.stamps = s.stamps ++ [low, w1, high, w2] ∧ low.ms + 50 ≤ high.ms ∧ high.ms + 50 ≤ t.now.ms) ∧
    (NoFault (commandPlan 0x01 [] ++ [.wait s.cfg.tSwrst]) s →
      ∃ (t : State) (cs0 dc0 sent dc1 cs1 w : Time), exec .swReset s = .next t ∧
        t.trace = s.trace ++ [.drive .cs .low, .drive .dc .low, .tx 0x01, .drive .dc .high, .drive .cs .high,
          .wait s.cfg.tSwrst] ∧
        t.stamps = s.stamps ++ [cs0, dc0, sent, dc1, cs1, w] ∧ sent.ms + 120 ≤ t.now.ms)

/-- R135, R137. -/
def Obligations.CfgWriteLegalises : Prop :=
  ∀ (s : State) (reg : Fin 4) (v : Half),
    ∃ t, exec (.cfgWrite reg v) s = .next t ∧
      Ended s t ⟨0x50, BitVec.ofNat 8 reg, v, []⟩
        (if reg = 0 then [.backlight (levelOfBit (v.getLsbD 0))] else []) ⟨.ok, []⟩ 3 ∧
      t.cfg.get reg = legal reg v ∧ (∀ r, r ≠ reg → t.cfg.get r = s.cfg.get r) ∧
      t.pins = (if reg = 0 then { s.pins with bl := levelOfBit (v.getLsbD 0) } else s.pins) ∧ t.rx = []

/-- R136, R137. That `RX` keeps the two bytes after the completion is the model's reading of R70 (log 21). -/
def Obligations.CfgReadReturnsTheRegister : Prop :=
  ∀ (s : State) (reg : Fin 4),
    ∃ t, exec (.cfgRead reg) s = .next t ∧
      Ended s t ⟨0x51, BitVec.ofNat 8 reg, 0, []⟩ [] ⟨.ok, be16 (s.cfg.get reg)⟩ 3 ∧
      t.pins = s.pins ∧ t.cfg = s.cfg ∧ t.rx = be16 (s.cfg.get reg)

/-- R71: a byte moves most significant bit first, captured by the panel on eight rising edges; the other pins do not
move inside it; the clock ends low; the block captures `SDI` bit by bit in the same order. -/
def Obligations.ByteOnTheWire : Prop :=
  (∀ (b : Byte) (p : Pins), p.sck = .low →
    risingSamples p.sck (byteWave b p) =
      [levelOfBit (b.getLsbD 7), levelOfBit (b.getLsbD 6), levelOfBit (b.getLsbD 5), levelOfBit (b.getLsbD 4),
       levelOfBit (b.getLsbD 3), levelOfBit (b.getLsbD 2), levelOfBit (b.getLsbD 1), levelOfBit (b.getLsbD 0)] ∧
    (∀ q ∈ byteWave b p, q.cs = p.cs ∧ q.dc = p.dc ∧ q.rst = p.rst ∧ q.bl = p.bl) ∧
    ((byteWave b p).getLastD p).sck = .low) ∧
  ∀ (sdi : Byte) (i : Nat), i < 8 → (captureSdi sdi).getLsbD i = sdi.getLsbD i

/-! ## Hazards -/

/-- R181, R22 (2): after a HW_RESET that is not faulted, an observer of the timed trace sees the pulse complete, and has
seen no hazard more. The observer is the model's reading of R22 (log 19). -/
def Obligations.HwResetMeetsThePulseRule : Prop :=
  ∀ s : State, CfgLegal s → TimelineOk s →
    NoFault [.drive .rst .low, .wait s.cfg.tRstLow, .drive .rst .high, .wait s.cfg.tRstHigh] s →
    ∃ t, exec .hwReset s = .next t ∧ (monitor t).resetDone t.now = true ∧
      (monitor t).hazards = (monitor s).hazards

/-- R182, R22 (1): when SW_RESET completes with code 0, the settle window of its opcode is over (the observer: log 19). -/
def Obligations.SwResetOutlastsTheSettleWindow : Prop :=
  ∀ s : State, CfgLegal s → TimelineOk s → NoFault (commandPlan 0x01 [] ++ [.wait s.cfg.tSwrst]) s →
    ∃ t, exec .swReset s = .next t ∧ (monitor t).swResetAt.isSome = true ∧ (monitor t).settling t.now = false ∧
      FrameClosed t

/-! ## Macros -/

/-- R62, R112, R125: a macro in progress submits the next descriptor of its expansion, and the block runs it (one step of
the host: log 23). -/
def Obligations.MacroSubmitsItsNextDescriptor : Prop :=
  ∀ (s : State) (j : Job) (i : Instr), s.resetInput = false → s.seq = .idle → s.host.job = some j →
    (j.call.expansion s.params)[j.index]? = some i → fitsLen i.inlineBytes = true → step s = exec i s.elapse

/-- R62, R114, R131: a completion of code 0 moves the macro to its next descriptor; any other ends it with that code,
and none of the later descriptors is submitted. -/
def Obligations.MacroStopsAtItsFirstFailure : Prop :=
  ∀ (s : State) (j : Job) (i : Instr), i.wellFormed = true → s.host.job = some j →
    (NoFault (planOf i s) s → ∃ t, exec i s = .next t ∧ t.host.job = some { j with index := j.index + 1 } ∧
      t.host.macroEnds = s.host.macroEnds) ∧
    (∀ k, FirstFault (planOf i s) s k → ∃ t, exec i s = .next t ∧ t.host.job = none ∧
      t.host.macroEnds = s.host.macroEnds ++ [.transportFault] ∧ t.host.program = s.host.program)

/-- R62: a macro with no descriptor left, INIT or CLEAR, ends with code 0; nothing but the host and the time changes
(a step of its own: log 23). -/
def Obligations.MacroEndsWithCodeZero : Prop :=
  ∀ (s : State) (j : Job), s.resetInput = false → s.seq = .idle → s.host.job = some j →
    (j.call.expansion s.params).length ≤ j.index →
    step s = .next { s with
      now := s.now.later
      host := { s.host with job := none, macroEnds := s.host.macroEnds ++ [.ok] } }

/-- R62, R112, R125: a macro, INIT or CLEAR, that meets no fault: one record of code 0 for each descriptor of its
expansion and its end with code 0, the registers and `BL` as before, and the program where it was. The count of steps is
the model's (log 1, log 23). -/
def Obligations.MacroRunsToItsEnd : Prop :=
  ∀ (s : State) (m : Macro), s.resetInput = false → s.seq = .idle → s.host.job = some ⟨m, 0⟩ →
    (∀ i ∈ m.expansion s.params, fitsLen i.inlineBytes = true) →
    (∀ j, j < ((m.expansion s.params).map fun i => planSteps (planOf i s) + 1).sum → (s.answerAt j).fault = false) →
    ∃ (t : State) (cs : List Completion), Sys2Proof.core.run ((m.expansion s.params).length + 1) s = .next t ∧
      cs.length = (m.expansion s.params).length ∧ (∀ c ∈ cs, c.code = .ok) ∧
      t.host = { s.host with
        job := none
        completions := s.host.completions ++ cs
        macroEnds := s.host.macroEnds ++ [.ok] } ∧
      t.seq = .idle ∧ t.cfg = s.cfg ∧ t.pins.bl = s.pins.bl ∧ s.trace <+: t.trace

/-- R112: the descriptors of INIT, their number, and each at its place: the two resets, the optional reads before the
table, the table, the optional reads after it. -/
def Obligations.InitExpansionInOrder : Prop :=
  ∀ (p : Params) (pre post : Bool),
    (initExpansion p pre post).length =
      2 + p.initTable.length + ((if pre then 1 else 0) + (if post then 1 else 0)) * p.diagList.length ∧
    (initExpansion p pre post)[0]? = some .hwReset ∧ (initExpansion p pre post)[1]? = some .swReset ∧
    (∀ (k : Nat) (d : Byte × Half), p.diagList[k]? = some d →
      (initExpansion p true post)[2 + k]? = some (.readRegister d.1 d.2)) ∧
    (∀ (i : Nat) (e : Byte × List Byte), p.initTable[i]? = some e →
      (initExpansion p pre post)[2 + (if pre then p.diagList.length else 0) + i]? = some (.command e.1 e.2)) ∧
    ∀ (k : Nat) (d : Byte × Half), p.diagList[k]? = some d →
      (initExpansion p pre true)[2 + (if pre then p.diagList.length else 0) + p.initTable.length + k]? =
        some (.readRegister d.1 d.2)

/-- R120 to R125: the pixel count of CLEAR over the four bounds, its fill buffer byte by byte, and its counts: frames,
descriptors, data bytes and all bytes on the wire. -/
def Obligations.ClearExpansionCounts : Prop :=
  ∀ (w : AddressWindow) (colour : Half), w.valid = true →
    (w.pixelCount : Int) = ((w.x1.toNat : Int) - w.x0.toNat + 1) * ((w.y1.toNat : Int) - w.y0.toNat + 1) ∧
    1 ≤ w.pixelCount ∧ w.pixelCount ≤ 2 ^ 32 ∧ w.frames = w.pixelCount / 64 ∧ w.frames ≤ 2 ^ 26 ∧
    (fillBuffer colour).length = 64 ∧
    (∀ k, k < 32 → (fillBuffer colour)[2 * k]? = some (colour.extractLsb' 8 8) ∧
      (fillBuffer colour)[2 * k + 1]? = some (colour.extractLsb' 0 8)) ∧
    (clearExpansion w colour).length = w.frames + 4 ∧
    ((clearExpansion w colour).map fun i => (encode i).length - 4).sum = w.frames * 64 + 8 ∧
    (clearExpansion w colour).countP (fun i => i.baseMnemonic == "COMMAND") = 4

/-- R126: a CLEAR whose window breaks the invariant submits nothing and ends with code 2 (any time may pass meanwhile,
R21). -/
def Obligations.ClearRefusedWindow : Prop :=
  ∀ (s : State) (w : AddressWindow) (colour : Half) (ps : List HostMove),
    s.resetInput = false → s.seq = .idle → s.host.job = none → s.host.program = .call (.clear w colour) :: ps →
    (w.x1.toNat < w.x0.toNat ∨ w.y1.toNat < w.y0.toNat) →
    ∃ n : Time, s.now.ms ≤ n.ms ∧ step s = .next { s with
      now := n
      host := { s.host with program := ps, macroEnds := s.host.macroEnds ++ [.unsupportedOperation] } }

/-- R125, R128: a call of CLEAR with a window that meets the invariant puts the macro in progress at its first
descriptor; no other check is made (a step of its own: log 23). -/
def Obligations.ClearStartsWithAValidWindow : Prop :=
  ∀ (s : State) (w : AddressWindow) (colour : Half) (ps : List HostMove),
    s.resetInput = false → s.seq = .idle → s.host.job = none → s.host.program = .call (.clear w colour) :: ps →
    w.x0.toNat ≤ w.x1.toNat → w.y0.toNat ≤ w.y1.toNat →
    step s = .next { s with
      now := s.now.later
      host := { s.host with program := ps, job := some ⟨.clear w colour, 0⟩ } }

/-- R125: the whole traffic of one CLEAR when the oracle reports no fault: its `67 n + 28` events, its `n + 4`
completions, and its end with code 0. -/
def Obligations.ClearTraffic : Prop :=
  ∀ (s : State) (w : AddressWindow) (colour : Half),
    s.resetInput = false → s.seq = .idle → s.host.job = some ⟨.clear w colour, 0⟩ → w.valid = true →
    (∀ j, j < 70 * w.frames + 42 → (s.answerAt j).fault = false) →
    ∃ (t : State) (ev : List Event), Sys2Proof.core.run (w.frames + 5) s = .next t ∧ t.trace = s.trace ++ ev ∧
      ev = [.drive .cs .low, .drive .dc .low, .tx 0x2A, .drive .dc .high] ++ (encodeXY w.x0 w.y0).map Event.tx ++
          [.drive .cs .high] ++
          ([.drive .cs .low, .drive .dc .low, .tx 0x2B, .drive .dc .high] ++ (encodeXY w.x1 w.y1).map Event.tx ++
          [.drive .cs .high]) ++
          [.drive .cs .low, .drive .dc .low, .tx 0x2C, .drive .dc .high, .drive .cs .high] ++
          (List.replicate w.frames ([.drive .dc .high, .drive .cs .low] ++
            (fillBuffer colour).map Event.tx ++ [.drive .cs .high])).flatten ++
          [.drive .cs .low, .drive .dc .low, .tx 0x00, .drive .dc .high, .drive .cs .high] ∧
      ev.length = w.frames * 67 + 28 ∧
      t.host = { s.host with
        job := none
        completions := s.host.completions ++ List.replicate (w.frames + 4) ⟨.ok, []⟩
        macroEnds := s.host.macroEnds ++ [.ok] } ∧
      t.seq = .idle ∧ t.cfg = s.cfg ∧ t.pins.rst = s.pins.rst ∧ t.pins.bl = s.pins.bl

/-- U17, R111, R113: INIT with arguments outside the premises is refused by name, with the premises it starts (log 13,
log 23). -/
def Obligations.InitStartsInsideItsPremises : Prop :=
  ∀ (s : State) (pre post : Bool) (ps : List HostMove),
    s.resetInput = false → s.seq = .idle → s.host.job = none → s.host.program = .call (.init pre post) :: ps →
    step s =
      if initTableOk s.params.initTable = false then .refused .initTableOutsidePremises
      else if diagListOk s.params.diagList = false then .refused .diagListOutsidePremises
      else .next { s with
        now := s.now.later
        host := { s.host with program := ps, job := some ⟨.init pre post, 0⟩ } }

/-- R144, U3: a serial fault after the last byte of its primitive leaves every pin as that byte left it, or, where there
is none, as the primitives before it did; with a byte to come, which the fault may have cut, it moves `SDO` alone (log 14).
`u` is the state that the primitives before the faulting one lead to by themselves. -/
def Obligations.SerialFaultKeepsThePins : Prop :=
  ∀ (i : Instr) (s : State) (before after : List Prim) (p : Prim) (bytes : List Byte) (j : Nat), i.wellFormed = true →
    planOf i s = before ++ p :: after → (p = .busWrite bytes ∨ p = .busTransfer bytes) → j ≤ bytes.length →
    FirstFault (planOf i s) s ((faultSteps s.params.faultPoints before).length + j) →
    ∃ u t, operate (latchesOf (encode i)) before s = .next u ∧ exec i s = .next t ∧
      (bytes = [] → t.pins = u.pins) ∧
      (bytes ≠ [] → j = bytes.length → t.pins = { u.pins with
        sck := .low
        sdo := (s.answerAt ((faultSteps s.params.faultPoints before).length + bytes.length)).sdo }) ∧
      (j < bytes.length → ∃ v, t.pins = { u.pins with sck := if j = 0 then u.pins.sck else .low, sdo := v })
end

