-- ==== Sys2Proof/Laws/Decode.lean ====
section
/-! SUPPORT. Byte order, the `LEN` field, and what each decoding format accepts. -/

namespace Sys2Proof

@[simp] theorem be16_length (v : Half) : (be16 v).length = 2 := rfl

@[simp] theorem header_length (opc arg : Byte) (len : Half) : (header opc arg len).length = 4 := rfl

/-- Splitting a 16-bit value into bytes loses nothing (R132). -/
@[simp] theorem ofBe16_be16 (v : Half) : ofBe16 (v.extractLsb' 8 8) (v.extractLsb' 0 8) = v := by
  unfold ofBe16
  apply BitVec.eq_of_getLsbD_eq
  intro i hi
  simp only [BitVec.getLsbD_append, BitVec.getLsbD_extractLsb']
  by_cases h : i < 8
  · simp [h]
  · simp [h, show i - 8 < 8 by omega, show 8 + (i - 8) = i by omega]

/-- Two bytes read as a 16-bit value give back the same two bytes. -/
@[simp] theorem be16_ofBe16 (hi lo : Byte) : be16 (ofBe16 hi lo) = [hi, lo] := by
  have h1 : (hi ++ lo).extractLsb' 8 8 = hi := by
    apply BitVec.eq_of_getLsbD_eq
    intro i h
    simp only [BitVec.getLsbD_append, BitVec.getLsbD_extractLsb']
    simp [h]
  have h2 : (hi ++ lo).extractLsb' 0 8 = lo := by
    apply BitVec.eq_of_getLsbD_eq
    intro i h
    simp only [BitVec.getLsbD_append, BitVec.getLsbD_extractLsb']
    simp [h]
  rw [be16, ofBe16, h1, h2]

@[simp] theorem ofBe16_zero : ofBe16 0 0 = 0 := rfl

/-- R51: a byte list that fits has its length in `LEN`. -/
theorem lenOf_toNat {bytes : List Byte} (h : fitsLen bytes = true) : (lenOf bytes).toNat = bytes.length := by
  have h' : bytes.length < 65536 := by simpa [fitsLen] using h
  simp [lenOf, Nat.mod_eq_of_lt h']

theorem lenOf_eq_zero {bytes : List Byte} (h : fitsLen bytes = true) : lenOf bytes = 0 ↔ bytes = [] := by
  rw [← List.length_eq_zero_iff, ← lenOf_toNat h]
  exact ⟨fun e => by rw [e]; rfl, fun e => BitVec.eq_of_toNat_eq e⟩

/-- A descriptor that starts with a header is decoded by that header. -/
theorem decode_header (opc arg : Byte) (len : Half) (rest : List Byte) :
    decode (header opc arg len ++ rest) = decodeHeader opc arg len rest := by
  simp [header, be16, decode]

/-- The inline bytes of a list that fits are read back, and the rest is left. -/
theorem decodeInline_lenOf (f : List Byte → Instr) {bytes : List Byte} (h : fitsLen bytes = true) (rest : List Byte) :
    decodeInline f (lenOf bytes) (bytes ++ rest) = .instr (f bytes) rest := by
  simp [decodeInline, lenOf_toNat h]

/-- The bytes that `LEN` counts fit `LEN`. -/
theorem fitsLen_take (len : Half) (rest : List Byte) : fitsLen (rest.take len.toNat) = true := by
  have : len.toNat < 65536 := len.isLt
  simp only [fitsLen, decide_eq_true_eq, List.length_take]
  omega

end Sys2Proof
end

