-- ==== Sys2Proof/Laws/State.lean ====
section
/-! SUPPORT. One lemma per field per plain update of the state. -/

namespace Sys2Proof.Machine

section
variable (s : State) (v : Pins)
@[simp] theorem State.withPins_pins : (s.withPins v).pins = v := rfl
@[simp] theorem State.withPins_cfg : (s.withPins v).cfg = s.cfg := rfl
@[simp] theorem State.withPins_latches : (s.withPins v).latches = s.latches := rfl
@[simp] theorem State.withPins_rx : (s.withPins v).rx = s.rx := rfl
@[simp] theorem State.withPins_seq : (s.withPins v).seq = s.seq := rfl
@[simp] theorem State.withPins_trace : (s.withPins v).trace = s.trace := rfl
@[simp] theorem State.withPins_stamps : (s.withPins v).stamps = s.stamps := rfl
@[simp] theorem State.withPins_now : (s.withPins v).now = s.now := rfl
@[simp] theorem State.withPins_host : (s.withPins v).host = s.host := rfl
@[simp] theorem State.withPins_params : (s.withPins v).params = s.params := rfl
@[simp] theorem State.withPins_resetInput : (s.withPins v).resetInput = s.resetInput := rfl
@[simp] theorem State.withPins_answers : (s.withPins v).answers = s.answers := rfl
@[simp] theorem State.withPins_draws : (s.withPins v).draws = s.draws := rfl
end

section
variable (s : State) (v : Cfg)
@[simp] theorem State.withCfg_pins : (s.withCfg v).pins = s.pins := rfl
@[simp] theorem State.withCfg_cfg : (s.withCfg v).cfg = v := rfl
@[simp] theorem State.withCfg_latches : (s.withCfg v).latches = s.latches := rfl
@[simp] theorem State.withCfg_rx : (s.withCfg v).rx = s.rx := rfl
@[simp] theorem State.withCfg_seq : (s.withCfg v).seq = s.seq := rfl
@[simp] theorem State.withCfg_trace : (s.withCfg v).trace = s.trace := rfl
@[simp] theorem State.withCfg_stamps : (s.withCfg v).stamps = s.stamps := rfl
@[simp] theorem State.withCfg_now : (s.withCfg v).now = s.now := rfl
@[simp] theorem State.withCfg_host : (s.withCfg v).host = s.host := rfl
@[simp] theorem State.withCfg_params : (s.withCfg v).params = s.params := rfl
@[simp] theorem State.withCfg_resetInput : (s.withCfg v).resetInput = s.resetInput := rfl
@[simp] theorem State.withCfg_answers : (s.withCfg v).answers = s.answers := rfl
@[simp] theorem State.withCfg_draws : (s.withCfg v).draws = s.draws := rfl
end

section
variable (s : State) (v : Latches)
@[simp] theorem State.withLatches_pins : (s.withLatches v).pins = s.pins := rfl
@[simp] theorem State.withLatches_cfg : (s.withLatches v).cfg = s.cfg := rfl
@[simp] theorem State.withLatches_latches : (s.withLatches v).latches = v := rfl
@[simp] theorem State.withLatches_rx : (s.withLatches v).rx = s.rx := rfl
@[simp] theorem State.withLatches_seq : (s.withLatches v).seq = s.seq := rfl
@[simp] theorem State.withLatches_trace : (s.withLatches v).trace = s.trace := rfl
@[simp] theorem State.withLatches_stamps : (s.withLatches v).stamps = s.stamps := rfl
@[simp] theorem State.withLatches_now : (s.withLatches v).now = s.now := rfl
@[simp] theorem State.withLatches_host : (s.withLatches v).host = s.host := rfl
@[simp] theorem State.withLatches_params : (s.withLatches v).params = s.params := rfl
@[simp] theorem State.withLatches_resetInput : (s.withLatches v).resetInput = s.resetInput := rfl
@[simp] theorem State.withLatches_answers : (s.withLatches v).answers = s.answers := rfl
@[simp] theorem State.withLatches_draws : (s.withLatches v).draws = s.draws := rfl
end

section
variable (s : State) (v : List Byte)
@[simp] theorem State.withRx_pins : (s.withRx v).pins = s.pins := rfl
@[simp] theorem State.withRx_cfg : (s.withRx v).cfg = s.cfg := rfl
@[simp] theorem State.withRx_latches : (s.withRx v).latches = s.latches := rfl
@[simp] theorem State.withRx_rx : (s.withRx v).rx = v := rfl
@[simp] theorem State.withRx_seq : (s.withRx v).seq = s.seq := rfl
@[simp] theorem State.withRx_trace : (s.withRx v).trace = s.trace := rfl
@[simp] theorem State.withRx_stamps : (s.withRx v).stamps = s.stamps := rfl
@[simp] theorem State.withRx_now : (s.withRx v).now = s.now := rfl
@[simp] theorem State.withRx_host : (s.withRx v).host = s.host := rfl
@[simp] theorem State.withRx_params : (s.withRx v).params = s.params := rfl
@[simp] theorem State.withRx_resetInput : (s.withRx v).resetInput = s.resetInput := rfl
@[simp] theorem State.withRx_answers : (s.withRx v).answers = s.answers := rfl
@[simp] theorem State.withRx_draws : (s.withRx v).draws = s.draws := rfl
end

section
variable (s : State) (v : Seq)
@[simp] theorem State.withSeq_pins : (s.withSeq v).pins = s.pins := rfl
@[simp] theorem State.withSeq_cfg : (s.withSeq v).cfg = s.cfg := rfl
@[simp] theorem State.withSeq_latches : (s.withSeq v).latches = s.latches := rfl
@[simp] theorem State.withSeq_rx : (s.withSeq v).rx = s.rx := rfl
@[simp] theorem State.withSeq_seq : (s.withSeq v).seq = v := rfl
@[simp] theorem State.withSeq_trace : (s.withSeq v).trace = s.trace := rfl
@[simp] theorem State.withSeq_stamps : (s.withSeq v).stamps = s.stamps := rfl
@[simp] theorem State.withSeq_now : (s.withSeq v).now = s.now := rfl
@[simp] theorem State.withSeq_host : (s.withSeq v).host = s.host := rfl
@[simp] theorem State.withSeq_params : (s.withSeq v).params = s.params := rfl
@[simp] theorem State.withSeq_resetInput : (s.withSeq v).resetInput = s.resetInput := rfl
@[simp] theorem State.withSeq_answers : (s.withSeq v).answers = s.answers := rfl
@[simp] theorem State.withSeq_draws : (s.withSeq v).draws = s.draws := rfl
end

section
variable (s : State) (v : List Event)
@[simp] theorem State.withTrace_pins : (s.withTrace v).pins = s.pins := rfl
@[simp] theorem State.withTrace_cfg : (s.withTrace v).cfg = s.cfg := rfl
@[simp] theorem State.withTrace_latches : (s.withTrace v).latches = s.latches := rfl
@[simp] theorem State.withTrace_rx : (s.withTrace v).rx = s.rx := rfl
@[simp] theorem State.withTrace_seq : (s.withTrace v).seq = s.seq := rfl
@[simp] theorem State.withTrace_trace : (s.withTrace v).trace = v := rfl
@[simp] theorem State.withTrace_stamps : (s.withTrace v).stamps = s.stamps := rfl
@[simp] theorem State.withTrace_now : (s.withTrace v).now = s.now := rfl
@[simp] theorem State.withTrace_host : (s.withTrace v).host = s.host := rfl
@[simp] theorem State.withTrace_params : (s.withTrace v).params = s.params := rfl
@[simp] theorem State.withTrace_resetInput : (s.withTrace v).resetInput = s.resetInput := rfl
@[simp] theorem State.withTrace_answers : (s.withTrace v).answers = s.answers := rfl
@[simp] theorem State.withTrace_draws : (s.withTrace v).draws = s.draws := rfl
end

section
variable (s : State) (v : List Time)
@[simp] theorem State.withStamps_pins : (s.withStamps v).pins = s.pins := rfl
@[simp] theorem State.withStamps_cfg : (s.withStamps v).cfg = s.cfg := rfl
@[simp] theorem State.withStamps_latches : (s.withStamps v).latches = s.latches := rfl
@[simp] theorem State.withStamps_rx : (s.withStamps v).rx = s.rx := rfl
@[simp] theorem State.withStamps_seq : (s.withStamps v).seq = s.seq := rfl
@[simp] theorem State.withStamps_trace : (s.withStamps v).trace = s.trace := rfl
@[simp] theorem State.withStamps_stamps : (s.withStamps v).stamps = v := rfl
@[simp] theorem State.withStamps_now : (s.withStamps v).now = s.now := rfl
@[simp] theorem State.withStamps_host : (s.withStamps v).host = s.host := rfl
@[simp] theorem State.withStamps_params : (s.withStamps v).params = s.params := rfl
@[simp] theorem State.withStamps_resetInput : (s.withStamps v).resetInput = s.resetInput := rfl
@[simp] theorem State.withStamps_answers : (s.withStamps v).answers = s.answers := rfl
@[simp] theorem State.withStamps_draws : (s.withStamps v).draws = s.draws := rfl
end

section
variable (s : State) (v : Time)
@[simp] theorem State.withNow_pins : (s.withNow v).pins = s.pins := rfl
@[simp] theorem State.withNow_cfg : (s.withNow v).cfg = s.cfg := rfl
@[simp] theorem State.withNow_latches : (s.withNow v).latches = s.latches := rfl
@[simp] theorem State.withNow_rx : (s.withNow v).rx = s.rx := rfl
@[simp] theorem State.withNow_seq : (s.withNow v).seq = s.seq := rfl
@[simp] theorem State.withNow_trace : (s.withNow v).trace = s.trace := rfl
@[simp] theorem State.withNow_stamps : (s.withNow v).stamps = s.stamps := rfl
@[simp] theorem State.withNow_now : (s.withNow v).now = v := rfl
@[simp] theorem State.withNow_host : (s.withNow v).host = s.host := rfl
@[simp] theorem State.withNow_params : (s.withNow v).params = s.params := rfl
@[simp] theorem State.withNow_resetInput : (s.withNow v).resetInput = s.resetInput := rfl
@[simp] theorem State.withNow_answers : (s.withNow v).answers = s.answers := rfl
@[simp] theorem State.withNow_draws : (s.withNow v).draws = s.draws := rfl
end

section
variable (s : State) (v : HostAgent)
@[simp] theorem State.withHost_pins : (s.withHost v).pins = s.pins := rfl
@[simp] theorem State.withHost_cfg : (s.withHost v).cfg = s.cfg := rfl
@[simp] theorem State.withHost_latches : (s.withHost v).latches = s.latches := rfl
@[simp] theorem State.withHost_rx : (s.withHost v).rx = s.rx := rfl
@[simp] theorem State.withHost_seq : (s.withHost v).seq = s.seq := rfl
@[simp] theorem State.withHost_trace : (s.withHost v).trace = s.trace := rfl
@[simp] theorem State.withHost_stamps : (s.withHost v).stamps = s.stamps := rfl
@[simp] theorem State.withHost_now : (s.withHost v).now = s.now := rfl
@[simp] theorem State.withHost_host : (s.withHost v).host = v := rfl
@[simp] theorem State.withHost_params : (s.withHost v).params = s.params := rfl
@[simp] theorem State.withHost_resetInput : (s.withHost v).resetInput = s.resetInput := rfl
@[simp] theorem State.withHost_answers : (s.withHost v).answers = s.answers := rfl
@[simp] theorem State.withHost_draws : (s.withHost v).draws = s.draws := rfl
end

section
variable (s : State) (v : Params)
@[simp] theorem State.withParams_pins : (s.withParams v).pins = s.pins := rfl
@[simp] theorem State.withParams_cfg : (s.withParams v).cfg = s.cfg := rfl
@[simp] theorem State.withParams_latches : (s.withParams v).latches = s.latches := rfl
@[simp] theorem State.withParams_rx : (s.withParams v).rx = s.rx := rfl
@[simp] theorem State.withParams_seq : (s.withParams v).seq = s.seq := rfl
@[simp] theorem State.withParams_trace : (s.withParams v).trace = s.trace := rfl
@[simp] theorem State.withParams_stamps : (s.withParams v).stamps = s.stamps := rfl
@[simp] theorem State.withParams_now : (s.withParams v).now = s.now := rfl
@[simp] theorem State.withParams_host : (s.withParams v).host = s.host := rfl
@[simp] theorem State.withParams_params : (s.withParams v).params = v := rfl
@[simp] theorem State.withParams_resetInput : (s.withParams v).resetInput = s.resetInput := rfl
@[simp] theorem State.withParams_answers : (s.withParams v).answers = s.answers := rfl
@[simp] theorem State.withParams_draws : (s.withParams v).draws = s.draws := rfl
end

section
variable (s : State) (v : Bool)
@[simp] theorem State.withResetInput_pins : (s.withResetInput v).pins = s.pins := rfl
@[simp] theorem State.withResetInput_cfg : (s.withResetInput v).cfg = s.cfg := rfl
@[simp] theorem State.withResetInput_latches : (s.withResetInput v).latches = s.latches := rfl
@[simp] theorem State.withResetInput_rx : (s.withResetInput v).rx = s.rx := rfl
@[simp] theorem State.withResetInput_seq : (s.withResetInput v).seq = s.seq := rfl
@[simp] theorem State.withResetInput_trace : (s.withResetInput v).trace = s.trace := rfl
@[simp] theorem State.withResetInput_stamps : (s.withResetInput v).stamps = s.stamps := rfl
@[simp] theorem State.withResetInput_now : (s.withResetInput v).now = s.now := rfl
@[simp] theorem State.withResetInput_host : (s.withResetInput v).host = s.host := rfl
@[simp] theorem State.withResetInput_params : (s.withResetInput v).params = s.params := rfl
@[simp] theorem State.withResetInput_resetInput : (s.withResetInput v).resetInput = v := rfl
@[simp] theorem State.withResetInput_answers : (s.withResetInput v).answers = s.answers := rfl
@[simp] theorem State.withResetInput_draws : (s.withResetInput v).draws = s.draws := rfl
end

section
variable (s : State) (v : List Answer)
@[simp] theorem State.withAnswers_pins : (s.withAnswers v).pins = s.pins := rfl
@[simp] theorem State.withAnswers_cfg : (s.withAnswers v).cfg = s.cfg := rfl
@[simp] theorem State.withAnswers_latches : (s.withAnswers v).latches = s.latches := rfl
@[simp] theorem State.withAnswers_rx : (s.withAnswers v).rx = s.rx := rfl
@[simp] theorem State.withAnswers_seq : (s.withAnswers v).seq = s.seq := rfl
@[simp] theorem State.withAnswers_trace : (s.withAnswers v).trace = s.trace := rfl
@[simp] theorem State.withAnswers_stamps : (s.withAnswers v).stamps = s.stamps := rfl
@[simp] theorem State.withAnswers_now : (s.withAnswers v).now = s.now := rfl
@[simp] theorem State.withAnswers_host : (s.withAnswers v).host = s.host := rfl
@[simp] theorem State.withAnswers_params : (s.withAnswers v).params = s.params := rfl
@[simp] theorem State.withAnswers_resetInput : (s.withAnswers v).resetInput = s.resetInput := rfl
@[simp] theorem State.withAnswers_answers : (s.withAnswers v).answers = v := rfl
@[simp] theorem State.withAnswers_draws : (s.withAnswers v).draws = s.draws := rfl
end

section
variable (s : State) (v : Nat)
@[simp] theorem State.withDraws_pins : (s.withDraws v).pins = s.pins := rfl
@[simp] theorem State.withDraws_cfg : (s.withDraws v).cfg = s.cfg := rfl
@[simp] theorem State.withDraws_latches : (s.withDraws v).latches = s.latches := rfl
@[simp] theorem State.withDraws_rx : (s.withDraws v).rx = s.rx := rfl
@[simp] theorem State.withDraws_seq : (s.withDraws v).seq = s.seq := rfl
@[simp] theorem State.withDraws_trace : (s.withDraws v).trace = s.trace := rfl
@[simp] theorem State.withDraws_stamps : (s.withDraws v).stamps = s.stamps := rfl
@[simp] theorem State.withDraws_now : (s.withDraws v).now = s.now := rfl
@[simp] theorem State.withDraws_host : (s.withDraws v).host = s.host := rfl
@[simp] theorem State.withDraws_params : (s.withDraws v).params = s.params := rfl
@[simp] theorem State.withDraws_resetInput : (s.withDraws v).resetInput = s.resetInput := rfl
@[simp] theorem State.withDraws_answers : (s.withDraws v).answers = s.answers := rfl
@[simp] theorem State.withDraws_draws : (s.withDraws v).draws = v := rfl
end

end Sys2Proof.Machine
end

