-- ==== Sys2Proof/Laws/Time.lean ====
section
/-! SUPPORT. The real number a time stands for (R21), through each operation on times. -/

namespace Sys2Proof.Machine

/-- R21: "a non-negative real number of milliseconds". -/
theorem Time.ms_nonneg (t : Time) : 0 ≤ t.ms := by
  have h : 0 ≤ ((List.range t.passed).map fun k => (Config.duration (t.first + k) : ℝ)).sum :=
    List.sum_nonneg (by simp)
  unfold Time.ms
  positivity

/-- One more free duration has passed. -/
theorem Time.ms_later (t : Time) : t.later.ms = t.ms + Config.duration (t.first + t.passed) := by
  simp [Time.ms, Time.later, List.range_succ, add_assoc]

/-- R21: time never decreases. -/
theorem Time.ms_le_later (t : Time) : t.ms ≤ t.later.ms := by rw [Time.ms_later]; simp

/-- R78: a wait adds its lower bound. -/
@[simp] theorem Time.ms_wait (d : Half) (t : Time) : (t.wait d).ms = t.ms + d.toNat := by
  simp [Time.ms, Time.wait]; ring

theorem Time.ms_le_wait (d : Half) (t : Time) : t.ms ≤ (t.wait d).ms := by simp

/-- R26, R170: the time after block reset is 0. -/
@[simp] theorem Time.ms_restart (t : Time) : t.restart.ms = 0 := by simp [Time.ms, Time.restart]

/-- A time at which no free duration has passed. -/
@[simp] theorem Time.ms_exact (n f : Nat) : (⟨n, f, 0⟩ : Time).ms = n := by simp [Time.ms]

@[simp] theorem Time.later_fixed (t : Time) : t.later.fixed = t.fixed := rfl
@[simp] theorem Time.later_first (t : Time) : t.later.first = t.first := rfl
@[simp] theorem Time.later_passed (t : Time) : t.later.passed = t.passed + 1 := rfl
@[simp] theorem Time.wait_fixed (d : Half) (t : Time) : (t.wait d).fixed = t.fixed + d.toNat := rfl
@[simp] theorem Time.wait_first (d : Half) (t : Time) : (t.wait d).first = t.first := rfl
@[simp] theorem Time.wait_passed (d : Half) (t : Time) : (t.wait d).passed = t.passed := rfl

end Sys2Proof.Machine
end

