-- ==== Sys2Proof/Laws/Ops.lean ====
section
/-! SUPPORT. What each shared operation does to each field of the state. -/

namespace Sys2Proof.Machine

section
variable (s : State)
@[simp] theorem State.elapse_pins : s.elapse.pins = s.pins := rfl
@[simp] theorem State.elapse_cfg : s.elapse.cfg = s.cfg := rfl
@[simp] theorem State.elapse_latches : s.elapse.latches = s.latches := rfl
@[simp] theorem State.elapse_rx : s.elapse.rx = s.rx := rfl
@[simp] theorem State.elapse_seq : s.elapse.seq = s.seq := rfl
@[simp] theorem State.elapse_trace : s.elapse.trace = s.trace := rfl
@[simp] theorem State.elapse_stamps : s.elapse.stamps = s.stamps := rfl
@[simp] theorem State.elapse_now : s.elapse.now = s.now.later := rfl
@[simp] theorem State.elapse_host : s.elapse.host = s.host := rfl
@[simp] theorem State.elapse_params : s.elapse.params = s.params := rfl
@[simp] theorem State.elapse_resetInput : s.elapse.resetInput = s.resetInput := rfl
@[simp] theorem State.elapse_answers : s.elapse.answers = s.answers := rfl
@[simp] theorem State.elapse_draws : s.elapse.draws = s.draws := rfl
@[simp] theorem State.elapse_answerAt (j : Nat) : s.elapse.answerAt j = s.answerAt j := rfl
end

section
variable (s : State)
@[simp] theorem State.tick_pins : s.tick.pins = s.pins := rfl
@[simp] theorem State.tick_cfg : s.tick.cfg = s.cfg := rfl
@[simp] theorem State.tick_latches : s.tick.latches = s.latches := rfl
@[simp] theorem State.tick_rx : s.tick.rx = s.rx := rfl
@[simp] theorem State.tick_seq : s.tick.seq = s.seq := rfl
@[simp] theorem State.tick_trace : s.tick.trace = s.trace := rfl
@[simp] theorem State.tick_stamps : s.tick.stamps = s.stamps := rfl
@[simp] theorem State.tick_now : s.tick.now = s.now.later := rfl
@[simp] theorem State.tick_host : s.tick.host = s.host := rfl
@[simp] theorem State.tick_params : s.tick.params = s.params := rfl
@[simp] theorem State.tick_resetInput : s.tick.resetInput = s.resetInput := rfl
@[simp] theorem State.tick_answers : s.tick.answers = s.answers.tail := rfl
@[simp] theorem State.tick_draws : s.tick.draws = s.draws + 1 := rfl
end

section
variable (e : Event) (s : State)
@[simp] theorem emit_pins : (emit e s).pins = s.pins := rfl
@[simp] theorem emit_cfg : (emit e s).cfg = s.cfg := rfl
@[simp] theorem emit_latches : (emit e s).latches = s.latches := rfl
@[simp] theorem emit_rx : (emit e s).rx = s.rx := rfl
@[simp] theorem emit_seq : (emit e s).seq = s.seq := rfl
@[simp] theorem emit_trace : (emit e s).trace = s.trace ++ [e] := rfl
@[simp] theorem emit_stamps : (emit e s).stamps = s.stamps ++ [s.now] := rfl
@[simp] theorem emit_now : (emit e s).now = s.now := rfl
@[simp] theorem emit_host : (emit e s).host = s.host := rfl
@[simp] theorem emit_params : (emit e s).params = s.params := rfl
@[simp] theorem emit_resetInput : (emit e s).resetInput = s.resetInput := rfl
@[simp] theorem emit_answers : (emit e s).answers = s.answers := rfl
@[simp] theorem emit_draws : (emit e s).draws = s.draws := rfl
end

section
variable (line : ControlLine) (level : Level) (s : State)
@[simp] theorem drivePin_pins : (drivePin line level s).pins = s.pins.set line level := rfl
@[simp] theorem drivePin_cfg : (drivePin line level s).cfg = s.cfg := rfl
@[simp] theorem drivePin_latches : (drivePin line level s).latches = s.latches := rfl
@[simp] theorem drivePin_rx : (drivePin line level s).rx = s.rx := rfl
@[simp] theorem drivePin_seq : (drivePin line level s).seq = s.seq := rfl
@[simp] theorem drivePin_trace : (drivePin line level s).trace = s.trace ++ [.drive line level] := rfl
@[simp] theorem drivePin_stamps : (drivePin line level s).stamps = s.stamps ++ [s.now] := rfl
@[simp] theorem drivePin_now : (drivePin line level s).now = s.now := rfl
@[simp] theorem drivePin_host : (drivePin line level s).host = s.host := rfl
@[simp] theorem drivePin_params : (drivePin line level s).params = s.params := rfl
@[simp] theorem drivePin_resetInput : (drivePin line level s).resetInput = s.resetInput := rfl
@[simp] theorem drivePin_answers : (drivePin line level s).answers = s.answers := rfl
@[simp] theorem drivePin_draws : (drivePin line level s).draws = s.draws := rfl
end

section
variable (a : Answer) (s : State)
@[simp] theorem leaveSdo_pins : (leaveSdo a s).pins = { s.pins with sdo := a.sdo } := rfl
@[simp] theorem leaveSdo_cfg : (leaveSdo a s).cfg = s.cfg := rfl
@[simp] theorem leaveSdo_latches : (leaveSdo a s).latches = s.latches := rfl
@[simp] theorem leaveSdo_rx : (leaveSdo a s).rx = s.rx := rfl
@[simp] theorem leaveSdo_seq : (leaveSdo a s).seq = s.seq := rfl
@[simp] theorem leaveSdo_trace : (leaveSdo a s).trace = s.trace := rfl
@[simp] theorem leaveSdo_stamps : (leaveSdo a s).stamps = s.stamps := rfl
@[simp] theorem leaveSdo_now : (leaveSdo a s).now = s.now := rfl
@[simp] theorem leaveSdo_host : (leaveSdo a s).host = s.host := rfl
@[simp] theorem leaveSdo_params : (leaveSdo a s).params = s.params := rfl
@[simp] theorem leaveSdo_resetInput : (leaveSdo a s).resetInput = s.resetInput := rfl
@[simp] theorem leaveSdo_answers : (leaveSdo a s).answers = s.answers := rfl
@[simp] theorem leaveSdo_draws : (leaveSdo a s).draws = s.draws := rfl
end

section
variable (b : Byte) (a : Answer) (s : State)
@[simp] theorem clockOut_pins : (clockOut b a s).pins = { s.pins with sck := .low, sdo := a.sdo } := rfl
@[simp] theorem clockOut_cfg : (clockOut b a s).cfg = s.cfg := rfl
@[simp] theorem clockOut_latches : (clockOut b a s).latches = s.latches := rfl
@[simp] theorem clockOut_rx : (clockOut b a s).rx = s.rx := rfl
@[simp] theorem clockOut_seq : (clockOut b a s).seq = s.seq := rfl
@[simp] theorem clockOut_trace : (clockOut b a s).trace = s.trace := rfl
@[simp] theorem clockOut_stamps : (clockOut b a s).stamps = s.stamps := rfl
@[simp] theorem clockOut_now : (clockOut b a s).now = s.now := rfl
@[simp] theorem clockOut_host : (clockOut b a s).host = s.host := rfl
@[simp] theorem clockOut_params : (clockOut b a s).params = s.params := rfl
@[simp] theorem clockOut_resetInput : (clockOut b a s).resetInput = s.resetInput := rfl
@[simp] theorem clockOut_answers : (clockOut b a s).answers = s.answers := rfl
@[simp] theorem clockOut_draws : (clockOut b a s).draws = s.draws := rfl
end

section
variable (b : Byte) (a : Answer) (s : State)
@[simp] theorem writeByte_pins : (writeByte b a s).pins = { s.pins with sck := .low, sdo := a.sdo } := rfl
@[simp] theorem writeByte_cfg : (writeByte b a s).cfg = s.cfg := rfl
@[simp] theorem writeByte_latches : (writeByte b a s).latches = s.latches := rfl
@[simp] theorem writeByte_rx : (writeByte b a s).rx = s.rx := rfl
@[simp] theorem writeByte_seq : (writeByte b a s).seq = s.seq := rfl
@[simp] theorem writeByte_trace : (writeByte b a s).trace = s.trace ++ [.tx b] := rfl
@[simp] theorem writeByte_stamps : (writeByte b a s).stamps = s.stamps ++ [s.now] := rfl
@[simp] theorem writeByte_now : (writeByte b a s).now = s.now := rfl
@[simp] theorem writeByte_host : (writeByte b a s).host = s.host := rfl
@[simp] theorem writeByte_params : (writeByte b a s).params = s.params := rfl
@[simp] theorem writeByte_resetInput : (writeByte b a s).resetInput = s.resetInput := rfl
@[simp] theorem writeByte_answers : (writeByte b a s).answers = s.answers := rfl
@[simp] theorem writeByte_draws : (writeByte b a s).draws = s.draws := rfl
end

section
variable (b : Byte) (a : Answer) (s : State)
@[simp] theorem transferByte_pins : (transferByte b a s).pins = { s.pins with sck := .low, sdo := a.sdo } := rfl
@[simp] theorem transferByte_cfg : (transferByte b a s).cfg = s.cfg := rfl
@[simp] theorem transferByte_latches : (transferByte b a s).latches = s.latches := rfl
@[simp] theorem transferByte_rx : (transferByte b a s).rx = s.rx ++ [captureSdi a.sdi] := rfl
@[simp] theorem transferByte_seq : (transferByte b a s).seq = s.seq := rfl
@[simp] theorem transferByte_trace : (transferByte b a s).trace = s.trace ++ [.xf b (captureSdi a.sdi)] := rfl
@[simp] theorem transferByte_stamps : (transferByte b a s).stamps = s.stamps ++ [s.now] := rfl
@[simp] theorem transferByte_now : (transferByte b a s).now = s.now := rfl
@[simp] theorem transferByte_host : (transferByte b a s).host = s.host := rfl
@[simp] theorem transferByte_params : (transferByte b a s).params = s.params := rfl
@[simp] theorem transferByte_resetInput : (transferByte b a s).resetInput = s.resetInput := rfl
@[simp] theorem transferByte_answers : (transferByte b a s).answers = s.answers := rfl
@[simp] theorem transferByte_draws : (transferByte b a s).draws = s.draws := rfl
end

section
variable (ms : Half) (s : State)
@[simp] theorem waitFor_pins : (waitFor ms s).pins = s.pins := rfl
@[simp] theorem waitFor_cfg : (waitFor ms s).cfg = s.cfg := rfl
@[simp] theorem waitFor_latches : (waitFor ms s).latches = s.latches := rfl
@[simp] theorem waitFor_rx : (waitFor ms s).rx = s.rx := rfl
@[simp] theorem waitFor_seq : (waitFor ms s).seq = s.seq := rfl
@[simp] theorem waitFor_trace : (waitFor ms s).trace = s.trace ++ [.wait ms] := rfl
@[simp] theorem waitFor_stamps : (waitFor ms s).stamps = s.stamps ++ [s.now.wait ms] := rfl
@[simp] theorem waitFor_now : (waitFor ms s).now = s.now.wait ms := rfl
@[simp] theorem waitFor_host : (waitFor ms s).host = s.host := rfl
@[simp] theorem waitFor_params : (waitFor ms s).params = s.params := rfl
@[simp] theorem waitFor_resetInput : (waitFor ms s).resetInput = s.resetInput := rfl
@[simp] theorem waitFor_answers : (waitFor ms s).answers = s.answers := rfl
@[simp] theorem waitFor_draws : (waitFor ms s).draws = s.draws := rfl
end

section
variable (reg : Fin 4) (s : State)
@[simp] theorem readCfg_pins : (readCfg reg s).pins = s.pins := rfl
@[simp] theorem readCfg_cfg : (readCfg reg s).cfg = s.cfg := rfl
@[simp] theorem readCfg_latches : (readCfg reg s).latches = s.latches := rfl
@[simp] theorem readCfg_rx : (readCfg reg s).rx = s.rx ++ be16 (s.cfg.get reg) := rfl
@[simp] theorem readCfg_seq : (readCfg reg s).seq = s.seq := rfl
@[simp] theorem readCfg_trace : (readCfg reg s).trace = s.trace := rfl
@[simp] theorem readCfg_stamps : (readCfg reg s).stamps = s.stamps := rfl
@[simp] theorem readCfg_now : (readCfg reg s).now = s.now := rfl
@[simp] theorem readCfg_host : (readCfg reg s).host = s.host := rfl
@[simp] theorem readCfg_params : (readCfg reg s).params = s.params := rfl
@[simp] theorem readCfg_resetInput : (readCfg reg s).resetInput = s.resetInput := rfl
@[simp] theorem readCfg_answers : (readCfg reg s).answers = s.answers := rfl
@[simp] theorem readCfg_draws : (readCfg reg s).draws = s.draws := rfl
end

section
variable (code : ResultCode) (rx : List Byte) (s : State)
@[simp] theorem complete_pins : (complete code rx s).pins = s.pins := rfl
@[simp] theorem complete_cfg : (complete code rx s).cfg = s.cfg := rfl
@[simp] theorem complete_latches : (complete code rx s).latches = s.latches := rfl
@[simp] theorem complete_rx : (complete code rx s).rx = s.rx := rfl
@[simp] theorem complete_seq : (complete code rx s).seq = .idle := rfl
@[simp] theorem complete_trace : (complete code rx s).trace = s.trace := rfl
@[simp] theorem complete_stamps : (complete code rx s).stamps = s.stamps := rfl
@[simp] theorem complete_now : (complete code rx s).now = s.now := rfl
@[simp] theorem complete_host : (complete code rx s).host = s.host.receive ⟨code, rx⟩ := rfl
@[simp] theorem complete_params : (complete code rx s).params = s.params := rfl
@[simp] theorem complete_resetInput : (complete code rx s).resetInput = s.resetInput := rfl
@[simp] theorem complete_answers : (complete code rx s).answers = s.answers := rfl
@[simp] theorem complete_draws : (complete code rx s).draws = s.draws := rfl
end

section
variable (s : State)
@[simp] theorem transportFault_pins : (transportFault s).pins = s.pins := rfl
@[simp] theorem transportFault_cfg : (transportFault s).cfg = s.cfg := rfl
@[simp] theorem transportFault_latches : (transportFault s).latches = s.latches := rfl
@[simp] theorem transportFault_rx : (transportFault s).rx = [] := rfl
@[simp] theorem transportFault_seq : (transportFault s).seq = .idle := rfl
@[simp] theorem transportFault_trace : (transportFault s).trace = s.trace ++ [.fault] := rfl
@[simp] theorem transportFault_stamps : (transportFault s).stamps = s.stamps ++ [s.now] := rfl
@[simp] theorem transportFault_now : (transportFault s).now = s.now := rfl
@[simp] theorem transportFault_host : (transportFault s).host = s.host.receive ⟨.transportFault, []⟩ := rfl
@[simp] theorem transportFault_params : (transportFault s).params = s.params := rfl
@[simp] theorem transportFault_resetInput : (transportFault s).resetInput = s.resetInput := rfl
@[simp] theorem transportFault_answers : (transportFault s).answers = s.answers := rfl
@[simp] theorem transportFault_draws : (transportFault s).draws = s.draws := rfl
end

section
variable (s : State)
@[simp] theorem rejectDescriptor_pins : (rejectDescriptor s).pins = s.pins := rfl
@[simp] theorem rejectDescriptor_cfg : (rejectDescriptor s).cfg = s.cfg := rfl
@[simp] theorem rejectDescriptor_latches : (rejectDescriptor s).latches = s.latches := rfl
@[simp] theorem rejectDescriptor_rx : (rejectDescriptor s).rx = s.rx := rfl
@[simp] theorem rejectDescriptor_seq : (rejectDescriptor s).seq = s.seq := rfl
@[simp] theorem rejectDescriptor_trace : (rejectDescriptor s).trace = s.trace := rfl
@[simp] theorem rejectDescriptor_stamps : (rejectDescriptor s).stamps = s.stamps := rfl
@[simp] theorem rejectDescriptor_now : (rejectDescriptor s).now = s.now := rfl
@[simp] theorem rejectDescriptor_host : (rejectDescriptor s).host = s.host.receive ⟨.unsupportedOperation, []⟩ := rfl
@[simp] theorem rejectDescriptor_params : (rejectDescriptor s).params = s.params := rfl
@[simp] theorem rejectDescriptor_resetInput : (rejectDescriptor s).resetInput = s.resetInput := rfl
@[simp] theorem rejectDescriptor_answers : (rejectDescriptor s).answers = s.answers := rfl
@[simp] theorem rejectDescriptor_draws : (rejectDescriptor s).draws = s.draws := rfl
end

section
variable (reg : Fin 4) (v : Half) (s : State)
@[simp] theorem writeCfg_pins : (writeCfg reg v s).pins = if reg = 0 then { s.pins with bl := (s.cfg.set reg v).backlight } else s.pins := by
  unfold writeCfg; split <;> simp_all
@[simp] theorem writeCfg_cfg : (writeCfg reg v s).cfg = s.cfg.set reg v := by
  unfold writeCfg; split <;> rfl
@[simp] theorem writeCfg_latches : (writeCfg reg v s).latches = s.latches := by
  unfold writeCfg; split <;> rfl
@[simp] theorem writeCfg_rx : (writeCfg reg v s).rx = s.rx := by
  unfold writeCfg; split <;> rfl
@[simp] theorem writeCfg_seq : (writeCfg reg v s).seq = s.seq := by
  unfold writeCfg; split <;> rfl
@[simp] theorem writeCfg_trace : (writeCfg reg v s).trace = if reg = 0 then s.trace ++ [.backlight (s.cfg.set reg v).backlight] else s.trace := by
  unfold writeCfg; split <;> simp_all
@[simp] theorem writeCfg_stamps : (writeCfg reg v s).stamps = if reg = 0 then s.stamps ++ [s.now] else s.stamps := by
  unfold writeCfg; split <;> simp_all
@[simp] theorem writeCfg_now : (writeCfg reg v s).now = s.now := by
  unfold writeCfg; split <;> rfl
@[simp] theorem writeCfg_host : (writeCfg reg v s).host = s.host := by
  unfold writeCfg; split <;> rfl
@[simp] theorem writeCfg_params : (writeCfg reg v s).params = s.params := by
  unfold writeCfg; split <;> rfl
@[simp] theorem writeCfg_resetInput : (writeCfg reg v s).resetInput = s.resetInput := by
  unfold writeCfg; split <;> rfl
@[simp] theorem writeCfg_answers : (writeCfg reg v s).answers = s.answers := by
  unfold writeCfg; split <;> rfl
@[simp] theorem writeCfg_draws : (writeCfg reg v s).draws = s.draws := by
  unfold writeCfg; split <;> rfl
end

/-- What the host does with a completion record leaves its program alone. -/
@[simp] theorem HostAgent.receive_program (h : HostAgent) (c : Completion) : (h.receive c).program = h.program := rfl

@[simp] theorem HostAgent.receive_completions (h : HostAgent) (c : Completion) :
    (h.receive c).completions = h.completions ++ [c] := rfl

/-- A pin set is read back, and every other pin is as before. -/
@[simp] theorem Pins.set_cs (p : Pins) (l : Level) : p.set .cs l = { p with cs := l } := rfl
@[simp] theorem Pins.set_dc (p : Pins) (l : Level) : p.set .dc l = { p with dc := l } := rfl
@[simp] theorem Pins.set_rst (p : Pins) (l : Level) : p.set .rst l = { p with rst := l } := rfl

/-- Asking one question moves every later question one place nearer. -/
@[simp] theorem State.tick_answerAt (s : State) (j : Nat) : s.tick.answerAt j = s.answerAt (j + 1) := by
  cases h : s.answers <;> simp [State.answerAt, State.tick, h, Nat.add_assoc, Nat.add_comm 1]

theorem State.answer_eq (s : State) : s.answer = s.answerAt 0 := rfl

/-- The answers depend on the oracle fields only. -/
theorem State.answerAt_congr {s t : State} (ha : t.answers = s.answers) (hd : t.draws = s.draws) (j : Nat) :
    t.answerAt j = s.answerAt j := by simp [State.answerAt, ha, hd]

/-- The block captures on `SDI` exactly the levels the oracle supplies (R71). -/
@[simp] theorem captureSdi_eq (sdi : Byte) : captureSdi sdi = sdi := by
  revert sdi; decide +kernel

end Sys2Proof.Machine
end

