-- ==== Sys2Proof/Laws/Sequencer.lean ====
section
/-! SUPPORT. The sequencer run to the end of an operation, as one recursion over its primitive list: what
`operate` does, said once. -/

namespace Sys2Proof.Machine

/-- A serial primitive from byte to byte: stopped by a fault (`inl`), or finished (`inr`). -/
def moveAll (move : Byte → Answer → State → State) : List Byte → State → State ⊕ State
  | [], s => if s.answer.fault then .inl (transportFault s.tick) else .inr s.tick
  | b :: bs, s =>
    if s.answer.fault then .inl (transportFault (leaveSdo s.answer s.tick))
    else moveAll move bs (move b s.answer s.tick)

/-- A whole primitive: stopped by a fault (`inl`), or finished (`inr`). -/
def Prim.run : Prim → State → State ⊕ State
  | .drive line level, s =>
    if pinFault s.answer s.tick then .inl (transportFault s.tick) else .inr (drivePin line level s.tick)
  | .busWrite bytes, s => moveAll writeByte bytes s
  | .busTransfer bytes, s => moveAll transferByte bytes s
  | .wait ms, s => if pinFault s.answer s.tick then .inl (transportFault s.tick) else .inr (waitFor ms s.tick)
  | .cfgWrite reg v, s => .inr (writeCfg reg v s.tick)
  | .cfgRead reg, s => .inr (readCfg reg s.tick)

/-- A whole primitive list, and the step that completes. -/
def runPlan : List Prim → State → State
  | [], s => complete .ok s.rx s.tick
  | p :: ps, s =>
    match p.run s with
    | .inl t => t
    | .inr t => runPlan ps t

section
variable (s : State) (q : Seq)

@[simp] theorem withSeq_answer : (s.withSeq q).answer = s.answer := rfl
@[simp] theorem withSeq_tick : (s.withSeq q).tick = s.tick.withSeq q := rfl
@[simp] theorem withSeq_withSeq (r : Seq) : (s.withSeq q).withSeq r = s.withSeq r := rfl
@[simp] theorem leaveSdo_withSeq (a : Answer) : leaveSdo a (s.withSeq q) = (leaveSdo a s).withSeq q := rfl
@[simp] theorem transportFault_withSeq : transportFault (s.withSeq q) = transportFault s := rfl
@[simp] theorem complete_withSeq (c : ResultCode) (rx : List Byte) : complete c rx (s.withSeq q) = complete c rx s := rfl
@[simp] theorem writeByte_withSeq (b : Byte) (a : Answer) :
    writeByte b a (s.withSeq q) = (writeByte b a s).withSeq q := rfl
@[simp] theorem transferByte_withSeq (b : Byte) (a : Answer) :
    transferByte b a (s.withSeq q) = (transferByte b a s).withSeq q := rfl
@[simp] theorem drivePin_withSeq (line : ControlLine) (l : Level) :
    drivePin line l (s.withSeq q) = (drivePin line l s).withSeq q := rfl
@[simp] theorem waitFor_withSeq (ms : Half) : waitFor ms (s.withSeq q) = (waitFor ms s).withSeq q := rfl
@[simp] theorem readCfg_withSeq (reg : Fin 4) : readCfg reg (s.withSeq q) = (readCfg reg s).withSeq q := rfl
@[simp] theorem writeCfg_withSeq (reg : Fin 4) (v : Half) :
    writeCfg reg v (s.withSeq q) = (writeCfg reg v s).withSeq q := by
  unfold writeCfg; split <;> rfl
@[simp] theorem pinFault_withSeq (a : Answer) : pinFault a (s.withSeq q) = pinFault a s := rfl
end

/-- An idle sequencer stays as it is. -/
theorem runSeq_idle {s : State} (h : s.seq = .idle) (n : Nat) : runSeq n s = s := by
  induction n with
  | zero => rfl
  | succ n ih => simp only [runSeq]; rw [show seqStep s = s by simp [seqStep, h]]; exact ih

@[simp] theorem runSeq_transportFault (s : State) (n : Nat) : runSeq n (transportFault s) = transportFault s :=
  runSeq_idle rfl n

/-- How the sequencer goes on after a primitive at index `upc`: not at all after a fault, else with the next one. -/
def goOn (n : Nat) (plist : List Prim) (upc : Nat) : State ⊕ State → State
  | .inl t => t
  | .inr t => runSeq n (t.withSeq (.running plist (upc + 1) 0))

theorem runSeq_move {plist : List Prim} {upc : Nat} {bytes : List Byte} {p : Prim}
    {move : Byte → Answer → State → State}
    (hp : plist[upc]? = some p)
    (hstep : ∀ bidx a s, primStep p bidx a s = serialStep move bytes[bidx]? a s)
    (hmove : ∀ b a s q, move b a (s.withSeq q) = (move b a s).withSeq q)
    (n : Nat) (rest : List Byte) : ∀ (bidx : Nat) (s : State), bytes.drop bidx = rest →
      runSeq (rest.length + 1 + n) (s.withSeq (.running plist upc bidx)) = goOn n plist upc (moveAll move rest s) := by
  induction rest with
  | nil =>
    intro bidx s h
    have hb : bytes[bidx]? = none := by simpa using h
    rw [show ([] : List Byte).length + 1 + n = n + 1 by simp; omega, runSeq]
    by_cases hf : s.answer.fault
    · simp [seqStep, hp, hstep, serialStep, hf, hb, moveAll, goOn]
    · simp [seqStep, hp, hstep, serialStep, hf, hb, moveAll, goOn]
  | cons b rest ih =>
    intro bidx s h
    have hb : bytes[bidx]? = some b := by
      have := congrArg (·[0]?) h; simpa using this
    have hr : bytes.drop (bidx + 1) = rest := by
      have := congrArg (List.drop 1) h; simpa [Nat.add_comm] using this
    rw [show (b :: rest).length + 1 + n = (rest.length + 1 + n) + 1 by simp; omega, runSeq]
    by_cases hf : s.answer.fault
    · simp [seqStep, hp, hstep, serialStep, hf, hb, moveAll, goOn]
    · simpa [seqStep, hp, hstep, serialStep, hf, hb, moveAll, goOn, hmove] using ih (bidx + 1) (move b s.answer s.tick) hr

/-- One primitive of the list, in as many steps as it takes. -/
theorem runSeq_prim {plist : List Prim} {upc : Nat} {p : Prim} (hp : plist[upc]? = some p) (n : Nat) (s : State) :
    runSeq (p.steps + n) (s.withSeq (.running plist upc 0)) = goOn n plist upc (p.run s) := by
  cases p with
  | busWrite bytes =>
    exact runSeq_move hp (fun _ _ _ => rfl) (fun _ _ _ _ => rfl) n bytes 0 s (by simp)
  | busTransfer bytes =>
    exact runSeq_move hp (fun _ _ _ => rfl) (fun _ _ _ _ => rfl) n bytes 0 s (by simp)
  | drive line level =>
    simp only [Prim.steps, Nat.add_comm 1 n, runSeq]
    by_cases hf : pinFault s.answer s.tick <;> simp [seqStep, hp, primStep, Prim.run, hf, goOn]
  | wait ms =>
    simp only [Prim.steps, Nat.add_comm 1 n, runSeq]
    by_cases hf : pinFault s.answer s.tick <;> simp [seqStep, hp, primStep, Prim.run, hf, goOn]
  | cfgWrite reg v => simp [Prim.steps, Nat.add_comm 1 n, runSeq, seqStep, hp, primStep, Prim.run, goOn]
  | cfgRead reg => simp [Prim.steps, Nat.add_comm 1 n, runSeq, seqStep, hp, primStep, Prim.run, goOn]

/-- The sequencer, from the primitive at index `upc` to the end of the list. -/
theorem runSeq_plan (plist : List Prim) (rest : List Prim) : ∀ (upc : Nat) (s : State), plist.drop upc = rest →
    runSeq (planSteps rest) (s.withSeq (.running plist upc 0)) = runPlan rest s := by
  induction rest with
  | nil =>
    intro upc s h
    have hp : plist[upc]? = none := by simpa using h
    simp [planSteps, runSeq, seqStep, hp, runPlan]
  | cons p rest ih =>
    intro upc s h
    have hp : plist[upc]? = some p := by
      have := congrArg (·[0]?) h; simpa using this
    have hr : plist.drop (upc + 1) = rest := by
      have := congrArg (List.drop 1) h; simpa [Nat.add_comm] using this
    rw [planSteps, runSeq_prim hp, runPlan]
    cases hrun : p.run s with
    | inl t => rfl
    | inr t => simpa [goOn] using ih (upc + 1) t hr

/-- The state in which the primitives of an accepted operation start. -/
def started (l : Latches) (s : State) : State := (s.tick.withLatches l).withRx []

/-- Everything `operate` can do: it answers a next state, that of the primitive list run from the accepted state. -/
theorem operate_eq (l : Latches) (plist : List Prim) (s : State) :
    operate l plist s = .next (runPlan plist (started l s)) := by
  simp only [operate, accept]
  rw [runSeq_plan plist plist 0 _ (by simp)]; rfl

/-! A primitive that no answer stops. -/

/-- The effect of a serial primitive that is not stopped. -/
def moved (move : Byte → Answer → State → State) (bytes : List Byte) (s : State) : State :=
  (bytes.foldl (fun t b => move b t.answer t.tick) s).tick

/-- The effect of a primitive that is not stopped. -/
def Prim.effect : Prim → State → State
  | .drive line level, s => drivePin line level s.tick
  | .busWrite bytes, s => moved writeByte bytes s
  | .busTransfer bytes, s => moved transferByte bytes s
  | .wait ms, s => waitFor ms s.tick
  | .cfgWrite reg v, s => writeCfg reg v s.tick
  | .cfgRead reg, s => readCfg reg s.tick

end Sys2Proof.Machine
end

