-- ==== Sys2Proof/Laws/Effects.lean ====
section
/-! SUPPORT. What a primitive list does when no answer stops it, and where the first fault stops it: the events, the
answers used, and what stays. -/

namespace Sys2Proof.Machine
open Sys2Proof.Safety

/-- `t` comes after `s` with the events `ev` and `k` answers used, all of it inside one operation. -/
structure Grew (s t : State) (ev : List Event) (k : Nat) : Prop where
  seq : t.seq = s.seq
  latches : t.latches = s.latches
  trace : t.trace = s.trace ++ ev
  stamps : ∃ ts, t.stamps = s.stamps ++ ts ∧ ts.length = ev.length
  now : s.now.ms ≤ t.now.ms
  host : t.host = s.host
  params : t.params = s.params
  resetInput : t.resetInput = s.resetInput
  answers : t.answers = s.answers.drop k
  draws : t.draws = s.draws + k

theorem Grew.refl (s : State) : Grew s s [] 0 := by
  constructor <;> simp

theorem Grew.trans {s t u : State} {e f : List Event} {j k : Nat} (h : Grew s t e j) (g : Grew t u f k) :
    Grew s u (e ++ f) (j + k) where
  seq := g.seq.trans h.seq
  latches := g.latches.trans h.latches
  trace := by rw [g.trace, h.trace, List.append_assoc]
  stamps := by
    obtain ⟨ts, h1, h2⟩ := h.stamps
    obtain ⟨us, g1, g2⟩ := g.stamps
    exact ⟨ts ++ us, by rw [g1, h1, List.append_assoc], by simp [h2, g2]⟩
  now := h.now.trans g.now
  host := g.host.trans h.host
  params := g.params.trans h.params
  resetInput := g.resetInput.trans h.resetInput
  answers := by rw [g.answers, h.answers, List.drop_drop]
  draws := by rw [g.draws, h.draws, Nat.add_assoc]

/-- The answers after `k` used ones are the later ones of before. -/
theorem Grew.answerAt {s t : State} {ev : List Event} {k : Nat} (h : Grew s t ev k) (j : Nat) :
    t.answerAt j = s.answerAt (k + j) := by
  simp [State.answerAt, h.answers, h.draws, Nat.add_assoc]

theorem tick_now_le (s : State) : s.now.ms ≤ s.tick.now.ms := s.now.ms_le_later

theorem grew_tick (s : State) : Grew s s.tick [] 1 where
  seq := rfl
  latches := rfl
  trace := by simp
  stamps := ⟨[], by simp, rfl⟩
  now := tick_now_le s
  host := rfl
  params := rfl
  resetInput := rfl
  answers := by simp
  draws := rfl

/-- An update that appends the events of `es`, moves time forward or not at all, and may change pins, configuration
registers and result buffer. -/
theorem grew_drivePin (line : ControlLine) (l : Level) (s : State) :
    Grew s (drivePin line l s.tick) [.drive line l] 1 := by
  refine (grew_tick s).trans (f := [.drive line l]) (k := 0) ?_
  constructor <;> simp

theorem grew_writeByte (b : Byte) (s : State) : Grew s (writeByte b s.answer s.tick) [.tx b] 1 := by
  refine (grew_tick s).trans (f := [.tx b]) (k := 0) ?_
  constructor <;> simp

theorem grew_transferByte (b : Byte) (s : State) :
    Grew s (transferByte b s.answer s.tick) [.xf b (incoming s 0)] 1 := by
  refine (grew_tick s).trans (f := [.xf b (incoming s 0)]) (k := 0) ?_
  constructor <;> simp [incoming, State.answer_eq]

theorem grew_waitFor (ms : Half) (s : State) : Grew s (waitFor ms s.tick) [.wait ms] 1 := by
  refine (grew_tick s).trans (f := [.wait ms]) (k := 0) ?_
  constructor <;> simp

theorem grew_writeCfg (reg : Fin 4) (v : Half) (s : State) :
    Grew s (writeCfg reg v s.tick) (if reg = 0 then [.backlight (s.cfg.set reg v).backlight] else []) 1 := by
  refine (grew_tick s).trans (f := if reg = 0 then [.backlight (s.cfg.set reg v).backlight] else []) (k := 0) ?_
  by_cases h : reg = 0 <;> constructor <;> simp [h]

theorem grew_readCfg (reg : Fin 4) (s : State) : Grew s (readCfg reg s.tick) [] 1 := by
  refine (grew_tick s).trans (f := []) (k := 0) ?_
  constructor <;> simp

theorem grew_leaveSdo (a : Answer) (s : State) : Grew s (leaveSdo a s) [] 0 := by
  constructor <;> simp

/-- The bytes of a `BusWrite`, without the step that finishes it. -/
theorem grew_foldl_writeByte (bytes : List Byte) : ∀ s : State,
    Grew s (bytes.foldl (fun t b => writeByte b t.answer t.tick) s) (bytes.map Event.tx) bytes.length := by
  induction bytes with
  | nil => exact fun s => Grew.refl s
  | cons b bytes ih =>
    intro s
    simpa [Nat.add_comm 1] using (grew_writeByte b s).trans (ih _)

theorem incomingBytes_succ (s : State) (j n : Nat) :
    incomingBytes s j (n + 1) = incoming s j :: incomingBytes s (j + 1) n := by
  simp [incomingBytes, List.range_succ_eq_map, Function.comp_def, Nat.add_assoc, Nat.add_comm 1]

theorem Grew.incomingBytes {s t : State} {ev : List Event} {k : Nat} (h : Grew s t ev k) (j n : Nat) :
    incomingBytes t j n = Safety.incomingBytes s (k + j) n := by
  simp [Safety.incomingBytes, incoming, h.answerAt, Nat.add_assoc]

theorem Grew.transferEvents {s t : State} {ev : List Event} {k : Nat} (h : Grew s t ev k) (j : Nat) (bytes : List Byte) :
    transferEvents t j bytes = Safety.transferEvents s (k + j) bytes := by
  simp [Safety.transferEvents, h.incomingBytes]

/-- The bytes of a `BusTransfer`, without the step that finishes it. -/
theorem grew_foldl_transferByte (bytes : List Byte) : ∀ s : State,
    Grew s (bytes.foldl (fun t b => transferByte b t.answer t.tick) s) (transferEvents s 0 bytes) bytes.length := by
  induction bytes with
  | nil => exact fun s => Grew.refl s
  | cons b bytes ih =>
    intro s
    have h := (grew_transferByte b s).trans (ih _)
    rw [(grew_transferByte b s).transferEvents 0 bytes] at h
    rw [Nat.add_comm 1 bytes.length] at h
    simpa [Safety.transferEvents, incomingBytes_succ] using h

/-- The steps that have one event each, in one list. -/
@[simp] theorem flatten_map_singleton {α β : Type} (f : α → β) (as : List α) :
    (as.map fun a => [f a]).flatten = as.map f := by
  induction as <;> simp_all

@[simp] theorem flatten_map_singleton_id {α : Type} (as : List α) : (as.map fun a => [a]).flatten = as := by
  induction as <;> simp_all

/-- A whole primitive that no answer stops: its events and its steps. -/
theorem grew_effect (p : Prim) (s : State) : Grew s (p.effect s) (primEvents s 0 p).flatten p.steps := by
  cases p with
  | drive line l => exact grew_drivePin line l s
  | wait ms => exact grew_waitFor ms s
  | cfgRead reg => exact grew_readCfg reg s
  | cfgWrite reg v => simpa [primEvents, Prim.effect, Prim.steps] using grew_writeCfg reg v s
  | busWrite bytes =>
    simpa [primEvents, Prim.steps, Prim.effect, moved, List.flatten_append] using (grew_foldl_writeByte bytes s).trans (grew_tick _)
  | busTransfer bytes =>
    simpa [primEvents, Prim.steps, Prim.effect, moved, List.flatten_append] using (grew_foldl_transferByte bytes s).trans (grew_tick _)

/-- Events read from a later state, by the answers still to come. -/
theorem Grew.primEvents {s t : State} {ev : List Event} {k : Nat} (h : Grew s t ev k) (hc : t.cfg = s.cfg) (j : Nat) (p : Prim) :
    primEvents t j p = Safety.primEvents s (k + j) p := by
  cases p <;> simp [Safety.primEvents, h.transferEvents, hc]

/-- R20: the level after more events is that of the later ones, from the level before them. -/
theorem lineLevel_append (start : Level) (line : ControlLine) (a b : List Event) :
    lineLevel start line (a ++ b) = lineLevel (lineLevel start line a) line b := by
  induction a generalizing start with
  | nil => rfl
  | cons e a ih => cases e <;> simp [lineLevel, ih]

theorem backlightLevel_append (start : Level) (a b : List Event) :
    backlightLevel start (a ++ b) = backlightLevel (backlightLevel start a) b := by
  induction a generalizing start with
  | nil => rfl
  | cons e a ih => cases e <;> simp [backlightLevel, ih]

/-! No fault. -/

/-- The later fault points, seen from the state after the earlier steps. -/
theorem Grew.quietFrom {s t : State} {ev : List Event} {k : Nat} (h : Grew s t ev k) (j : Nat) (bs : List Bool) :
    quietFrom t j bs = Safety.quietFrom s (k + j) bs := by
  induction bs generalizing j with
  | nil => rfl
  | cons b bs ih => simp [Safety.quietFrom, h.answerAt, ih, Nat.add_assoc]

theorem quietFrom_append (s : State) (j : Nat) (as bs : List Bool) :
    quietFrom s j (as ++ bs) = (quietFrom s j as && quietFrom s (j + as.length) bs) := by
  induction as generalizing j with
  | nil => simp [quietFrom]
  | cons a as ih => simp [quietFrom, ih, Bool.and_assoc, Nat.add_assoc, Nat.add_comm 1]

theorem moveAll_quiet {move : Byte → Answer → State → State} {e : Byte → State → List Event}
    (hm : ∀ b s, Grew s (move b s.answer s.tick) (e b s) 1) (bytes : List Byte) : ∀ s : State,
    quietFrom s 0 (List.replicate (bytes.length + 1) true) = true →
    moveAll move bytes s = .inr (moved move bytes s) := by
  induction bytes with
  | nil => intro s h; simp_all [quietFrom, moveAll, moved, State.answer_eq]
  | cons b bytes ih =>
    intro s h
    rw [List.length_cons, List.replicate_succ, Safety.quietFrom, Bool.and_eq_true] at h
    have h2 := ih (move b s.answer s.tick) (by rw [(hm b s).quietFrom]; simpa using h.2)
    have h1 : s.answer.fault = false := by simpa [State.answer_eq] using h.1
    simp [moveAll, h1, h2, moved]

/-- A primitive whose fault points are all quiet has its effect. -/
theorem run_quiet (p : Prim) (s : State)
    (h : quietFrom s 0 (List.replicate p.steps (isFaultPoint s.params.faultPoints p)) = true) :
    p.run s = .inr (p.effect s) := by
  cases p with
  | drive line l =>
    have hf : pinFault s.answer s.tick = false := by
      simpa [quietFrom, isFaultPoint, Prim.steps, pinFault, State.answer_eq, Bool.and_comm, or_iff_not_imp_left] using h
    simp [Prim.run, Prim.effect, hf]
  | wait ms =>
    have hf : pinFault s.answer s.tick = false := by
      simpa [quietFrom, isFaultPoint, Prim.steps, pinFault, State.answer_eq, Bool.and_comm, or_iff_not_imp_left] using h
    simp [Prim.run, Prim.effect, hf]
  | cfgWrite reg v => rfl
  | cfgRead reg => rfl
  | busWrite bytes => exact moveAll_quiet grew_writeByte bytes s h
  | busTransfer bytes => exact moveAll_quiet grew_transferByte bytes s h

/-- The effect of a whole list that no answer stops. -/
def planEffect : List Prim → State → State
  | [], s => s
  | p :: ps, s => planEffect ps (p.effect s)

theorem runPlan_quiet (plan : List Prim) : ∀ s : State,
    quietFrom s 0 (faultSteps s.params.faultPoints plan) = true →
    runPlan plan s = complete .ok (planEffect plan s).rx (planEffect plan s).tick := by
  induction plan with
  | nil => intro s _; rfl
  | cons p ps ih =>
    intro s h
    have g := grew_effect p s
    rw [faultSteps, quietFrom_append, Bool.and_eq_true] at h
    rw [runPlan, run_quiet p s h.1]
    refine ih _ ?_
    rw [g.params, g.quietFrom]
    simpa using h.2

theorem quietFrom_started (l : Latches) (s : State) (plan : List Prim) (h : NoFault plan s) :
    quietFrom (started l s) 0 (faultSteps (started l s).params.faultPoints plan) = true := by
  have e : ∀ j bs, quietFrom (started l s) j bs = quietFrom s (1 + j) bs := by
    intro j bs
    have : ∀ j, (started l s).answerAt j = s.answerAt (j + 1) := fun j => State.tick_answerAt s j
    induction bs generalizing j with
    | nil => rfl
    | cons b bs ih => simp [quietFrom, this, ih, Nat.add_comm 1]
  rw [e]; exact h

/-- `operate` when the oracle reports no fault at a fault point: the effects of the whole list, and code 0. -/
theorem operate_noFault (l : Latches) (plan : List Prim) (s : State) (h : NoFault plan s) :
    operate l plan s =
      .next (complete .ok (planEffect plan (started l s)).rx (planEffect plan (started l s)).tick) := by
  rw [operate_eq, runPlan_quiet plan _ (quietFrom_started l s plan h)]

/-- What `operate` then leaves, apart from pins, configuration registers and result buffer. -/
theorem ended_of_grew {s u : State} {l : Latches} {ev : List Event} {k : Nat} (g : Grew (started l s) u ev k) (rx : List Byte) :
    Ended s (complete .ok rx u.tick) l ev ⟨.ok, rx⟩ (k + 2) := by
  have g' := g.trans (grew_tick u)
  have a0 := tick_now_le s
  constructor
  · rfl
  · exact g'.latches
  · simpa [started] using g'.trace
  · simpa [started] using g'.stamps
  · exact a0.trans g'.now
  · show u.tick.host.receive _ = _
    rw [g'.host]; rfl
  · exact g'.params
  · exact g'.resetInput
  · show u.tick.answers = _
    rw [g'.answers]
    show List.drop (k + 1) s.answers.tail = _
    simp [Nat.add_assoc]
  · show u.tick.draws = _
    rw [g'.draws]; simp [started]; omega

/-! The first fault. -/

/-- A serial primitive stopped at its step `k`, `n` being its byte count and `u` the state after `k` bytes: only a fault
with a byte to come leaves `SDO` open. -/
def stoppedAt (k n : Nat) (u : State) : State := transportFault (if k < n then leaveSdo u.answer u.tick else u.tick)

/-- A primitive stopped by a fault at its step `k`. -/
def Prim.stopped (k : Nat) : Prim → State → State
  | .drive _ _, s => transportFault s.tick
  | .wait _, s => transportFault s.tick
  | .busWrite bytes, s =>
    stoppedAt k bytes.length ((bytes.take k).foldl (fun t b => writeByte b t.answer t.tick) s)
  | .busTransfer bytes, s =>
    stoppedAt k bytes.length ((bytes.take k).foldl (fun t b => transferByte b t.answer t.tick) s)
  | .cfgWrite _ _, s => s
  | .cfgRead _, s => s

theorem moveAll_fault {move : Byte → Answer → State → State} {e : Byte → State → List Event}
    (hm : ∀ b s, Grew s (move b s.answer s.tick) (e b s) 1) (bytes : List Byte) : ∀ (s : State) (k : Nat),
    k ≤ bytes.length → quietFrom s 0 (List.replicate k true) = true → (s.answerAt k).fault = true →
    moveAll move bytes s =
      .inl (stoppedAt k bytes.length ((bytes.take k).foldl (fun t b => move b t.answer t.tick) s)) := by
  induction bytes with
  | nil =>
    intro s k hk _ hf
    obtain rfl : k = 0 := by simpa using hk
    simp [moveAll, State.answer_eq, hf, stoppedAt]
  | cons b bytes ih =>
    intro s k hk hq hf
    cases k with
    | zero => simp [moveAll, State.answer_eq, hf, stoppedAt]
    | succ k =>
      rw [List.replicate_succ, Safety.quietFrom, Bool.and_eq_true] at hq
      have h1 : s.answer.fault = false := by simpa [State.answer_eq] using hq.1
      have h2 := ih (move b s.answer s.tick) k (by simpa using hk)
        (by rw [(hm b s).quietFrom]; simpa using hq.2) (by rw [(hm b s).answerAt, Nat.add_comm]; exact hf)
      simpa [moveAll, h1, stoppedAt] using h2

theorem run_fault (p : Prim) (s : State) (k : Nat) (hk : k < p.steps)
    (hp : isFaultPoint s.params.faultPoints p = true) (hq : quietFrom s 0 (List.replicate k true) = true)
    (hf : (s.answerAt k).fault = true) : p.run s = .inl (p.stopped k s) := by
  cases p with
  | cfgWrite reg v => simp [isFaultPoint] at hp
  | cfgRead reg => simp [isFaultPoint] at hp
  | drive line l =>
    obtain rfl : k = 0 := by simpa [Prim.steps] using hk
    have : pinFault s.answer s.tick = true := by simpa [pinFault, State.answer_eq, hf, isFaultPoint] using hp
    simp [Prim.run, this, Prim.stopped]
  | wait ms =>
    obtain rfl : k = 0 := by simpa [Prim.steps] using hk
    have : pinFault s.answer s.tick = true := by simpa [pinFault, State.answer_eq, hf, isFaultPoint] using hp
    simp [Prim.run, this, Prim.stopped]
  | busWrite bytes => exact moveAll_fault grew_writeByte bytes s k (Nat.le_of_lt_succ hk) hq hf
  | busTransfer bytes => exact moveAll_fault grew_transferByte bytes s k (Nat.le_of_lt_succ hk) hq hf

/-- All the steps of a primitive list but the one that completes. -/
def stepCount : List Prim → Nat
  | [] => 0
  | p :: ps => p.steps + stepCount ps

theorem length_faultSteps (fp : FaultPoints) (plan : List Prim) : (faultSteps fp plan).length = stepCount plan := by
  induction plan with
  | nil => rfl
  | cons p ps ih => simp [faultSteps, stepCount, ih]

/-- A list whose first fault is at step `k`: the primitives before the faulting one have their effects, and it stops. -/
theorem runPlan_fault (plan : List Prim) : ∀ (s : State) (k : Nat),
    (faultSteps s.params.faultPoints plan)[k]? = some true → (s.answerAt k).fault = true →
    quietFrom s 0 ((faultSteps s.params.faultPoints plan).take k) = true →
    ∃ pre p post j, plan = pre ++ p :: post ∧ k = stepCount pre + j ∧ j < p.steps ∧
      isFaultPoint s.params.faultPoints p = true ∧ runPlan plan s = p.stopped j (planEffect pre s) := by
  induction plan with
  | nil => intro s k h; simp [faultSteps] at h
  | cons p ps ih =>
    intro s k h hf hq
    have g := grew_effect p s
    by_cases hk : k < p.steps
    · have hp : isFaultPoint s.params.faultPoints p = true := by
        rw [faultSteps, List.getElem?_append_left (by simpa using hk)] at h
        simpa [List.getElem?_replicate, hk] using h
      have hq' : quietFrom s 0 (List.replicate k true) = true := by
        rw [faultSteps, List.take_append_of_le_length (by simpa using hk.le), List.take_replicate,
          Nat.min_eq_left hk.le, hp] at hq
        exact hq
      exact ⟨[], p, ps, k, rfl, by simp [stepCount], hk, hp, by
        rw [runPlan, run_fault p s k hk hp hq' hf]; rfl⟩
    · obtain ⟨i, rfl⟩ := Nat.exists_eq_add_of_le (Nat.le_of_not_lt hk)
      rw [faultSteps, List.take_append, List.take_of_length_le (by simp), quietFrom_append, Bool.and_eq_true] at hq
      rw [faultSteps, List.getElem?_append_right (by simp)] at h
      simp only [List.length_replicate, Nat.add_sub_cancel_left] at h hq
      obtain ⟨pre, q, post, j, h1, h2, h3, h4, h5⟩ := ih (p.effect s) i (by rw [g.params]; exact h)
        (by rw [g.answerAt]; exact hf) (by rw [g.params, g.quietFrom]; simpa using hq.2)
      refine ⟨p :: pre, q, post, j, by simp [h1], by simp [stepCount, h2]; omega, h3, by rw [← g.params]; exact h4, ?_⟩
      rw [runPlan, run_quiet p s hq.1]
      exact h5

/-- `operate` when the first fault is at step `k`. -/
theorem operate_firstFault (l : Latches) (plan : List Prim) (s : State) (k : Nat) (h : FirstFault plan s k) :
    ∃ pre p post j, plan = pre ++ p :: post ∧ k = stepCount pre + j ∧ j < p.steps ∧
      isFaultPoint s.params.faultPoints p = true ∧
      operate l plan s = .next (p.stopped j (planEffect pre (started l s))) := by
  obtain ⟨h1, h2, h3⟩ := h
  have ha : ∀ j, (started l s).answerAt j = s.answerAt (j + 1) := fun j => State.tick_answerAt s j
  have hq : ∀ j bs, quietFrom (started l s) j bs = quietFrom s (1 + j) bs := by
    intro j bs
    induction bs generalizing j with
    | nil => rfl
    | cons b bs ih => simp [quietFrom, ha, ih, Nat.add_comm 1]
  obtain ⟨pre, p, post, j, e1, e2, e3, e4, e5⟩ := runPlan_fault plan (started l s) k h1 (by rw [ha]; exact h2)
    (by rw [hq]; exact h3)
  exact ⟨pre, p, post, j, e1, e2, e3, e4, by rw [operate_eq, e5]⟩

/-- Either no fault point's answer is a fault, or there is a first one. -/
theorem noFault_or_firstFault (plan : List Prim) (s : State) : NoFault plan s ∨ ∃ k, FirstFault plan s k := by
  unfold NoFault FirstFault
  suffices H : ∀ (bs : List Bool) (j : Nat), quietFrom s j bs = true ∨
      ∃ k, bs[k]? = some true ∧ (s.answerAt (j + k)).fault = true ∧ quietFrom s j (bs.take k) = true by
    rcases H (faultSteps s.params.faultPoints plan) 1 with h | ⟨k, h1, h2, h3⟩
    · exact .inl h
    · exact .inr ⟨k, h1, by rw [Nat.add_comm]; exact h2, h3⟩
  intro bs
  induction bs with
  | nil => intro j; exact .inl rfl
  | cons b bs ih =>
    intro j
    by_cases hb : (b && (s.answerAt j).fault) = true
    · rw [Bool.and_eq_true] at hb
      exact .inr ⟨0, by simp [hb.1], hb.2, rfl⟩
    · rw [Bool.not_eq_true] at hb
      rcases ih (j + 1) with h | ⟨k, h1, h2, h3⟩
      · exact .inl (by simp [quietFrom, hb, h])
      · exact .inr ⟨k + 1, by simpa using h1, by rw [show j + (k + 1) = j + 1 + k by omega]; exact h2,
          by simp [quietFrom, hb, h3]⟩

/-! The state in which the primitives start. -/

section
variable (l : Latches) (s : State)

@[simp] theorem started_pins : (started l s).pins = s.pins := rfl
@[simp] theorem started_cfg : (started l s).cfg = s.cfg := rfl
@[simp] theorem started_latches : (started l s).latches = l := rfl
@[simp] theorem started_rx : (started l s).rx = [] := rfl
@[simp] theorem started_seq : (started l s).seq = s.seq := rfl
@[simp] theorem started_trace : (started l s).trace = s.trace := rfl
@[simp] theorem started_stamps : (started l s).stamps = s.stamps := rfl
@[simp] theorem started_now : (started l s).now = s.now.later := rfl
@[simp] theorem started_host : (started l s).host = s.host := rfl
@[simp] theorem started_params : (started l s).params = s.params := rfl
@[simp] theorem started_resetInput : (started l s).resetInput = s.resetInput := rfl
@[simp] theorem started_answers : (started l s).answers = s.answers.tail := rfl
@[simp] theorem started_draws : (started l s).draws = s.draws + 1 := rfl
@[simp] theorem started_answerAt (j : Nat) : (started l s).answerAt j = s.answerAt (j + 1) := State.tick_answerAt s j

@[simp] theorem started_incomingBytes (j n : Nat) : incomingBytes (started l s) j n = incomingBytes s (j + 1) n := by
  simp [Safety.incomingBytes, incoming, Nat.add_right_comm]

@[simp] theorem started_transferEvents (j : Nat) (bytes : List Byte) :
    transferEvents (started l s) j bytes = transferEvents s (j + 1) bytes := by
  simp [Safety.transferEvents]

@[simp] theorem started_quietFrom (j : Nat) (bs : List Bool) : quietFrom (started l s) j bs = quietFrom s (j + 1) bs := by
  induction bs generalizing j with
  | nil => rfl
  | cons b bs ih => simp [Safety.quietFrom, ih]

end

/-! The bytes of a serial primitive: what they leave of pins, configuration registers and result buffer. -/

/-- The pins after the bytes of a serial primitive: the clock low and `SDO` at the last answer's level, if any byte moved. -/
def pinsAfterBytes (bytes : List Byte) (s : State) : Pins :=
  if bytes = [] then s.pins else { s.pins with sck := .low, sdo := (s.answerAt (bytes.length - 1)).sdo }

theorem foldl_writeByte_rest (bytes : List Byte) : ∀ s : State,
    (bytes.foldl (fun t b => writeByte b t.answer t.tick) s).cfg = s.cfg ∧
    (bytes.foldl (fun t b => writeByte b t.answer t.tick) s).rx = s.rx ∧
    (bytes.foldl (fun t b => writeByte b t.answer t.tick) s).pins = pinsAfterBytes bytes s := by
  induction bytes with
  | nil => intro s; simp [pinsAfterBytes]
  | cons b bytes ih =>
    intro s
    obtain ⟨h1, h2, h3⟩ := ih (writeByte b s.answer s.tick)
    rw [List.foldl_cons]
    refine ⟨by rw [h1]; rfl, ?_, ?_⟩
    · rw [h2]; simp
    · rw [h3]
      cases bytes with
      | nil => simp [pinsAfterBytes, State.answer_eq]
      | cons c bytes => simp [pinsAfterBytes, (grew_writeByte b s).answerAt, Nat.add_comm 1]

@[simp] theorem moved_writeByte_cfg (bytes : List Byte) (s : State) : (moved writeByte bytes s).cfg = s.cfg :=
  (foldl_writeByte_rest bytes s).1

@[simp] theorem moved_writeByte_rx (bytes : List Byte) (s : State) : (moved writeByte bytes s).rx = s.rx :=
  (foldl_writeByte_rest bytes s).2.1

@[simp] theorem moved_writeByte_pins (bytes : List Byte) (s : State) : (moved writeByte bytes s).pins = pinsAfterBytes bytes s :=
  (foldl_writeByte_rest bytes s).2.2

theorem foldl_transferByte_rest (bytes : List Byte) : ∀ s : State,
    (bytes.foldl (fun t b => transferByte b t.answer t.tick) s).cfg = s.cfg ∧
    (bytes.foldl (fun t b => transferByte b t.answer t.tick) s).rx = s.rx ++ incomingBytes s 0 bytes.length ∧
    (bytes.foldl (fun t b => transferByte b t.answer t.tick) s).pins = pinsAfterBytes bytes s := by
  induction bytes with
  | nil => intro s; simp [pinsAfterBytes, Safety.incomingBytes]
  | cons b bytes ih =>
    intro s
    obtain ⟨h1, h2, h3⟩ := ih (transferByte b s.answer s.tick)
    rw [List.foldl_cons]
    refine ⟨by rw [h1]; rfl, ?_, ?_⟩
    · rw [h2, (grew_transferByte b s).incomingBytes, List.length_cons, incomingBytes_succ]; simp [incoming, State.answer_eq]
    · rw [h3]
      cases bytes with
      | nil => simp [pinsAfterBytes, State.answer_eq]
      | cons c bytes => simp [pinsAfterBytes, (grew_transferByte b s).answerAt, Nat.add_comm 1]

@[simp] theorem moved_transferByte_cfg (bytes : List Byte) (s : State) : (moved transferByte bytes s).cfg = s.cfg :=
  (foldl_transferByte_rest bytes s).1

@[simp] theorem moved_transferByte_rx (bytes : List Byte) (s : State) : (moved transferByte bytes s).rx = s.rx ++ incomingBytes s 0 bytes.length :=
  (foldl_transferByte_rest bytes s).2.1

@[simp] theorem moved_transferByte_pins (bytes : List Byte) (s : State) : (moved transferByte bytes s).pins = pinsAfterBytes bytes s :=
  (foldl_transferByte_rest bytes s).2.2

/-- The pins a fault at step `k` of a serial primitive leaves: those after its first `k` bytes, with `SDO` open only where
a byte was to come (U3). -/
theorem stoppedAt_pins (k n : Nat) (u : State) :
    (stoppedAt k n u).pins = if k < n then { u.pins with sdo := u.answer.sdo } else u.pins := by
  unfold stoppedAt; split <;> simp

theorem stopped_busWrite_pins (k : Nat) (bytes : List Byte) (s : State) (hk : k ≤ bytes.length) :
    ((Prim.busWrite bytes).stopped k s).pins =
      if k < bytes.length then { pinsAfterBytes (bytes.take k) s with sdo := (s.answerAt k).sdo }
      else pinsAfterBytes bytes s := by
  have g := (grew_foldl_writeByte (bytes.take k) s).answerAt 0
  rw [List.length_take, Nat.min_eq_left hk, Nat.add_zero] at g
  rw [Prim.stopped, stoppedAt_pins, (foldl_writeByte_rest _ s).2.2, State.answer_eq, g]
  by_cases h : k < bytes.length
  · simp [h]
  · simp [h, List.take_of_length_le (Nat.le_of_not_lt h)]

theorem stopped_busTransfer_pins (k : Nat) (bytes : List Byte) (s : State) (hk : k ≤ bytes.length) :
    ((Prim.busTransfer bytes).stopped k s).pins =
      if k < bytes.length then { pinsAfterBytes (bytes.take k) s with sdo := (s.answerAt k).sdo }
      else pinsAfterBytes bytes s := by
  have g := (grew_foldl_transferByte (bytes.take k) s).answerAt 0
  rw [List.length_take, Nat.min_eq_left hk, Nat.add_zero] at g
  rw [Prim.stopped, stoppedAt_pins, (foldl_transferByte_rest _ s).2.2, State.answer_eq, g]
  by_cases h : k < bytes.length
  · simp [h]
  · simp [h, List.take_of_length_le (Nat.le_of_not_lt h)]

/-- A whole list that no answer stops, with no configuration write in it: its events and its steps. -/
theorem grew_planEffect (plan : List Prim) (hc : ∀ p ∈ plan, ∀ reg v, p ≠ .cfgWrite reg v) : ∀ s : State,
    Grew s (planEffect plan s) (planEvents s 0 plan).flatten (stepCount plan) ∧ (planEffect plan s).cfg = s.cfg := by
  induction plan with
  | nil => exact fun s => ⟨Grew.refl s, rfl⟩
  | cons p ps ih =>
    intro s
    have hcfg : (p.effect s).cfg = s.cfg := by
      cases p with
      | cfgWrite reg v => exact absurd rfl (hc _ (by simp) reg v)
      | _ => simp [Prim.effect]
    have g := grew_effect p s
    obtain ⟨h1, h2⟩ := ih (fun q hq => hc q (by simp [hq])) (p.effect s)
    have he : ∀ j qs, planEvents (p.effect s) j qs = planEvents s (p.steps + j) qs := by
      intro j qs
      induction qs generalizing j with
      | nil => rfl
      | cons q qs ihq => simp [planEvents, g.primEvents hcfg, ihq, Nat.add_assoc]
    refine ⟨?_, h2.trans hcfg⟩
    have := g.trans h1
    rw [he] at this
    simpa [planEvents, planEffect, stepCount, Nat.add_comm] using this

end Sys2Proof.Machine
end

