-- ==== Sys2Proof/Laws/PerInstr.lean ====
section
/-! SUPPORT. Statements made of every instruction, one lemma per constructor. -/

namespace Sys2Proof.Laws.EncodedLength

/-- R50, R53: a descriptor is four header bytes and then the inline bytes. -/
def Statement (i : Instr) : Prop := (encode i).length = 4 + i.inlineBytes.length ∧ (encode i).drop 4 = i.inlineBytes

theorem csAssert : Statement .csAssert := ⟨rfl, rfl⟩

theorem csDeassert : Statement .csDeassert := ⟨rfl, rfl⟩

theorem selectCommand : Statement .selectCommand := ⟨rfl, rfl⟩

theorem selectData : Statement .selectData := ⟨rfl, rfl⟩

theorem write (bytes : List Byte) : Statement (.write bytes) := ⟨by simp [encode, Instr.inlineBytes], rfl⟩

theorem transfer (bytes : List Byte) : Statement (.transfer bytes) := ⟨by simp [encode, Instr.inlineBytes], rfl⟩

theorem command (opcode : Byte) (payload : List Byte) : Statement (.command opcode payload) := ⟨by simp [encode, Instr.inlineBytes], rfl⟩

theorem readRegister (opcode : Byte) (count : Half) : Statement (.readRegister opcode count) := ⟨rfl, rfl⟩

theorem writeData (bytes : List Byte) : Statement (.writeData bytes) := ⟨by simp [encode, Instr.inlineBytes], rfl⟩

theorem hwReset : Statement .hwReset := ⟨rfl, rfl⟩

theorem swReset : Statement .swReset := ⟨rfl, rfl⟩

theorem cfgWrite (reg : Fin 4) (value : Half) : Statement (.cfgWrite reg value) := ⟨rfl, rfl⟩

theorem cfgRead (reg : Fin 4) : Statement (.cfgRead reg) := ⟨rfl, rfl⟩

theorem noop : Statement .noop := ⟨rfl, rfl⟩

theorem sleepOut : Statement .sleepOut := ⟨rfl, rfl⟩

theorem displayOn : Statement .displayOn := ⟨rfl, rfl⟩

theorem columnAddressSet (a b : Half) : Statement (.columnAddressSet a b) := ⟨rfl, rfl⟩

theorem pageAddressSet (a b : Half) : Statement (.pageAddressSet a b) := ⟨rfl, rfl⟩

theorem memoryWrite : Statement .memoryWrite := ⟨rfl, rfl⟩

theorem readStatus (count : Half) : Statement (.readStatus count) := ⟨rfl, rfl⟩

theorem readPowerMode (count : Half) : Statement (.readPowerMode count) := ⟨rfl, rfl⟩

theorem readMadctl (count : Half) : Statement (.readMadctl count) := ⟨rfl, rfl⟩

theorem readPixelFormat (count : Half) : Statement (.readPixelFormat count) := ⟨rfl, rfl⟩

end Sys2Proof.Laws.EncodedLength
end

