-- ==== Sys2Proof/Laws/Safety.lean ====
section
/-! SUPPORT. The observer of the timed trace: what following an INIT leaves of it, and the monitor of a longer trace. -/

namespace Sys2Proof.Safety

open Sys2Proof.Machine

section
variable (m : Monitor)
@[simp] theorem closeBracket_hazards : m.closeBracket.hazards = m.hazards := rfl
@[simp] theorem closeBracket_session : m.closeBracket.session = false := rfl
@[simp] theorem forget_hazards : m.forget.hazards = m.hazards := rfl
@[simp] theorem forget_cs : m.forget.cs = m.cs := rfl
@[simp] theorem forget_dc : m.forget.dc = m.dc := rfl
@[simp] theorem forget_lowSince : m.forget.lowSince = m.lowSince := rfl
@[simp] theorem forget_highSince : m.forget.highSince = m.highSince := rfl
@[simp] theorem forget_swResetAt : m.forget.swResetAt = m.swResetAt := rfl
@[simp] theorem forget_known : m.forget.known = false := rfl
@[simp] theorem forget_session : m.forget.session = false := rfl
/-- Everything a frame's end can do to the hazards: a table entry out of its place is one more. -/
theorem frameEnd_hazards (p : Params) :
    (m.frameEnd p).hazards = m.hazards ∨ (m.frameEnd p).hazards = m.hazards ++ [.tableOutOfPlace] := by
  unfold Monitor.frameEnd; dsimp only
  split <;> (try split_ifs) <;> first | exact .inl rfl | exact .inr rfl
@[simp] theorem frameEnd_cs (p : Params) : (m.frameEnd p).cs = .high := by
  unfold Monitor.frameEnd; dsimp only; split <;> (try split_ifs) <;> rfl
@[simp] theorem frameEnd_swResetAt (p : Params) : (m.frameEnd p).swResetAt = m.swResetAt := by
  unfold Monitor.frameEnd; dsimp only; split <;> (try split_ifs) <;> rfl
@[simp] theorem frameStart_cs : m.frameStart.cs = .low := by
  unfold Monitor.frameStart; split_ifs with h <;> simp [Monitor.forget, Monitor.lose, Monitor.closeBracket, h]
@[simp] theorem frameStart_swResetAt : m.frameStart.swResetAt = m.swResetAt := by
  unfold Monitor.frameStart; split_ifs <;> rfl
end

/-- Everything `follow` can do: it changes `bringUp` and `known` alone. -/
theorem follow_eq (m : Monitor) (p : Params) (e : Event) :
    ∃ es k, Monitor.follow p m e = { m with bringUp := es, known := k } := by
  unfold Monitor.follow
  split
  · exact ⟨m.bringUp, m.known, rfl⟩
  · split_ifs
    · exact ⟨none, m.clean, rfl⟩
    · exact ⟨_, m.known, rfl⟩
    · exact ⟨none, m.known, rfl⟩

section
variable (m : Monitor) (p : Params) (e : Event)
@[simp] theorem follow_hazards : (Monitor.follow p m e).hazards = m.hazards := by
  obtain ⟨_, _, h⟩ := follow_eq m p e; rw [h]
@[simp] theorem follow_cs : (Monitor.follow p m e).cs = m.cs := by obtain ⟨_, _, h⟩ := follow_eq m p e; rw [h]
@[simp] theorem follow_dc : (Monitor.follow p m e).dc = m.dc := by obtain ⟨_, _, h⟩ := follow_eq m p e; rw [h]
@[simp] theorem follow_lowSince : (Monitor.follow p m e).lowSince = m.lowSince := by
  obtain ⟨_, _, h⟩ := follow_eq m p e; rw [h]
@[simp] theorem follow_highSince : (Monitor.follow p m e).highSince = m.highSince := by
  obtain ⟨_, _, h⟩ := follow_eq m p e; rw [h]
@[simp] theorem follow_swResetAt : (Monitor.follow p m e).swResetAt = m.swResetAt := by
  obtain ⟨_, _, h⟩ := follow_eq m p e; rw [h]
end

/-- A byte starts the settle window exactly where it is the opcode byte 0x01. -/
theorem byte_swResetAt (m : Monitor) (e : Event) (b : Byte) (t : Time) :
    (m.byte e b t).swResetAt = if m.dc = .low ∧ b = 0x01 then some t else m.swResetAt := by
  unfold Monitor.byte Monitor.opcodeByte
  by_cases h : m.hazardsOfByte t = [] <;> by_cases hd : m.dc = .low <;> by_cases hb : b = 0x01 <;> simp [h, hd, hb]

/-! What one event of HW_RESET or SW_RESET does to `dc` and `swResetAt`. -/

@[simp] theorem observe_drive_swResetAt (m : Monitor) (p : Params) (line : ControlLine) (l : Level)
    (t : Time) : (Monitor.observe p m (.drive line l) t).swResetAt = m.swResetAt := by
  unfold Monitor.observe
  cases line <;> cases l <;> simp only [follow_swResetAt, Monitor.take] <;> first | rfl | simp | (split <;> simp)

@[simp] theorem observe_drive_dc (m : Monitor) (p : Params) (l : Level) (t : Time) :
    (Monitor.observe p m (.drive .dc l) t).dc = l := by
  simp [Monitor.observe, Monitor.take]

@[simp] theorem observe_wait (m : Monitor) (p : Params) (d : Half) (t : Time) :
    Monitor.observe p m (.wait d) t = Monitor.follow p m (.wait d) := rfl

@[simp] theorem observe_tx_swResetAt (m : Monitor) (p : Params) (b : Byte) (t : Time) :
    (Monitor.observe p m (.tx b) t).swResetAt = if m.dc = .low ∧ b = 0x01 then some t else m.swResetAt := by
  simp [Monitor.observe, Monitor.take, byte_swResetAt]

/-- The monitor of a trace that has grown by `ev` at the times `ts`, parameters as before. -/
theorem monitor_append {s t : State} {ev : List Event} {ts : List Time} (hl : s.stamps.length = s.trace.length)
    (ht : t.trace = s.trace ++ ev) (hs : t.stamps = s.stamps ++ ts) (hp : t.params = s.params) :
    monitor t = (ev.zip ts).foldl (fun m et => Monitor.observe s.params m et.1 et.2) (monitor s) := by
  unfold monitor
  rw [ht, hs, hp, List.zip_append hl.symm, List.foldl_append]

end Sys2Proof.Safety
end

