-- ==== Sys2Proof/Laws/Step.lean ====
section
/-! SUPPORT. What one step of the machine can be, and the one induction behind every invariant of it. -/

namespace Sys2Proof.Machine

/-- Every meaning is an accepted operation run to its end. -/
theorem exec_operates (i : Instr) (s : State) : ∃ l plan, exec i s = operate l plan s := by
  cases i <;> exact ⟨_, _, rfl⟩

/-- A change of the host agent alone. -/
theorem submitFirst_cases {bytes : List Byte} {next : List Byte → List HostMove} {s t : State}
    (h : submitFirst bytes next s = .next t) :
    (∃ i rest, decode bytes = .instr i rest ∧ exec i (s.withProgram (next rest)) = .next t) ∨
    ∃ rest, decode bytes = .unsupported rest ∧ t = rejectDescriptor (s.withProgram (next rest)) := by
  unfold submitFirst at h
  cases hd : decode bytes with
  | instr i rest => rw [hd] at h; exact .inl ⟨i, rest, rfl, h⟩
  | unsupported rest => rw [hd] at h; cases h; exact .inr ⟨rest, rfl, rfl⟩
  | truncated => rw [hd] at h; cases h

/-- A change of the host's program or macro alone, its records as they were. -/
structure SameRecords (h h' : HostAgent) : Prop where
  completions : h'.completions = h.completions
  macroEnds : h'.macroEnds = h.macroEnds

/-- The host's records, perhaps with later ones. -/
structure GrewRecords (h h' : HostAgent) : Prop where
  completions : h.completions <+: h'.completions
  macroEnds : h.macroEnds <+: h'.macroEnds

theorem SameRecords.grew {h h' : HostAgent} (e : SameRecords h h') : GrewRecords h h' :=
  ⟨by rw [e.completions], by rw [e.macroEnds]⟩

theorem GrewRecords.receive {h h' : HostAgent} (g : GrewRecords h h') (c : Completion) :
    GrewRecords h (h'.receive c) := by
  refine ⟨g.completions.trans ⟨[c], rfl⟩, g.macroEnds.trans ?_⟩
  unfold HostAgent.receive
  dsimp only
  split <;> simp

/-- What the host's move can be: a change of the host alone, or an instruction run after one. -/
theorem hostAct_cases {s t : State} (h : hostAct s = .next t) :
    (∃ h', t = s.withHost h' ∧ GrewRecords s.host h') ∨
    ∃ i h', exec i (s.withHost h') = .next t ∧ SameRecords s.host h' := by
  have same : ∀ ps, SameRecords s.host (s.withProgram ps).host := fun _ => ⟨rfl, rfl⟩
  have sub : ∀ {bytes next}, submitFirst bytes next s = .next t →
      (∃ h', t = s.withHost h' ∧ GrewRecords s.host h') ∨
      ∃ i h', exec i (s.withHost h') = .next t ∧ SameRecords s.host h' := by
    intro bytes next hs
    obtain ⟨i, rest, -, he⟩ | ⟨rest, -, he⟩ := submitFirst_cases hs
    · exact .inr ⟨i, _, he, same _⟩
    · exact .inl ⟨_, he, (same (next rest)).grew.receive _⟩
  unfold hostAct at h
  split at h
  · unfold jobTurn at h
    split at h
    · exact sub h
    · cases h; exact .inl ⟨_, rfl, ⟨List.prefix_rfl, ⟨_, rfl⟩⟩⟩
  · split at h
    · cases h; exact .inl ⟨s.host, rfl, ⟨List.prefix_rfl, List.prefix_rfl⟩⟩
    · cases h; exact .inl ⟨_, rfl, ⟨List.prefix_rfl, List.prefix_rfl⟩⟩
    · exact sub h
    · unfold callMacro at h
      split at h
      · split at h
        · split at h <;> cases h
          exact .inl ⟨_, rfl, ⟨List.prefix_rfl, List.prefix_rfl⟩⟩
        · cases h
      · split at h <;> cases h
        · exact .inl ⟨_, rfl, ⟨List.prefix_rfl, List.prefix_rfl⟩⟩
        · exact .inl ⟨_, rfl, ⟨List.prefix_rfl, ⟨_, rfl⟩⟩⟩

/-- What a step can be: a block reset, the sequencer's step, or, once time has passed, a change of the host alone or an
instruction run after the host has taken it from its program. -/
theorem step_cases {s t : State} (h : step s = .next t) :
    (s.resetInput = true ∧ t = blockReset s) ∨
    (s.resetInput = false ∧ s.seq ≠ .idle ∧ t = seqStep s) ∨
    (s.resetInput = false ∧ s.seq = .idle ∧ ∃ h', t = s.elapse.withHost h' ∧ GrewRecords s.host h') ∨
    (s.resetInput = false ∧ s.seq = .idle ∧
      ∃ i h', exec i (s.elapse.withHost h') = .next t ∧ SameRecords s.host h') := by
  unfold step at h
  by_cases hr : s.resetInput
  · simp only [hr, if_true] at h; cases h; exact .inl ⟨hr, rfl⟩
  · rw [if_neg hr] at h
    cases hs : s.seq with
    | running plist upc bidx =>
      rw [hs] at h; cases h
      exact .inr (.inl ⟨by simpa using hr, by simp, rfl⟩)
    | idle =>
      rw [hs] at h
      rcases hostAct_cases h with hh | hh
      · exact .inr (.inr (.inl ⟨by simpa using hr, rfl, hh⟩))
      · exact .inr (.inr (.inr ⟨by simpa using hr, rfl, hh⟩))

/-- A property of the state that each operation of the sequencer keeps. -/
structure SeqKept (P : State → Prop) : Prop where
  seq : ∀ s q, P s → P (s.withSeq q)
  rx : ∀ s r, P s → P (s.withRx r)
  receive : ∀ s c, P s → P (s.withHost (s.host.receive c))
  elapse : ∀ s, P s → P s.elapse
  tick : ∀ s, P s → P s.tick
  sdo : ∀ a s, P s → P (leaveSdo a s)
  drive : ∀ line l s, P s → P (drivePin line l s)
  write : ∀ b a s, P s → P (writeByte b a s)
  transfer : ∀ b a s, P s → P (transferByte b a s)
  wait : ∀ d s, P s → P (waitFor d s)
  cfgWrite : ∀ reg v s, P s → P (writeCfg reg v s)
  fault : ∀ s, P s → P (emit .fault s)

section
variable {P : State → Prop} (k : SeqKept P)
include k

theorem SeqKept.complete {s : State} (h : P s) (c : ResultCode) (rx : List Byte) : P (Machine.complete c rx s) :=
  k.seq _ _ (k.receive _ _ h)

theorem SeqKept.transportFault {s : State} (h : P s) : P (Machine.transportFault s) :=
  k.complete (k.rx _ _ (k.fault _ h)) _ _

/-- A step of a serial primitive, whose position in the list becomes `q` or, after the last byte, `r`. -/
theorem SeqKept.serial {move : Byte → Answer → State → State} (hm : ∀ b a s, P s → P (move b a s)) (next : Option Byte)
    (a : Answer) {s : State} (h : P s) (q r : Seq) :
    P (match serialStep move next a s with
      | .again t => t.withSeq q
      | .done t => t.withSeq r
      | .fault t => t) := by
  cases next <;> by_cases hf : a.fault = true <;> simp only [serialStep, hf, if_true, Bool.false_eq_true, if_false]
  · exact k.transportFault h
  · exact k.seq _ _ h
  · exact k.transportFault (k.sdo _ _ h)
  · exact k.seq _ _ (hm _ _ _ h)

theorem SeqKept.seqStep {s : State} (h : P s) : P (Machine.seqStep s) := by
  have ht := k.tick s h
  unfold Machine.seqStep
  split
  · exact h
  · rename_i plist upc bidx hs
    split
    · exact k.complete ht _ _
    · rename_i p _
      cases p with
      | drive line l =>
        simp only [primStep]; by_cases hf : pinFault s.answer s.tick = true
        · simpa [hf] using k.transportFault ht
        · simpa [hf] using k.seq _ _ (k.drive line l _ ht)
      | wait d =>
        simp only [primStep]; by_cases hf : pinFault s.answer s.tick = true
        · simpa [hf] using k.transportFault ht
        · simpa [hf] using k.seq _ _ (k.wait d _ ht)
      | cfgWrite reg v => exact k.seq _ _ (k.cfgWrite reg v _ ht)
      | cfgRead reg => exact k.seq _ _ (k.rx _ _ ht)
      | busWrite bytes => exact k.serial k.write bytes[bidx]? s.answer ht _ _
      | busTransfer bytes => exact k.serial k.transfer bytes[bidx]? s.answer ht _ _

theorem SeqKept.runSeq (n : Nat) {s : State} (h : P s) : P (Machine.runSeq n s) := by
  induction n generalizing s with
  | zero => exact h
  | succ n ih => exact ih (k.seqStep h)

/-- A property the sequencer keeps and the latches do not enter is kept by every instruction. -/
theorem SeqKept.exec (hl : ∀ s l, P s → P (s.withLatches l)) {i : Instr} {s t : State} (h : P s)
    (he : Machine.exec i s = .next t) : P t := by
  obtain ⟨l, plan, e⟩ := exec_operates i s
  rw [e] at he
  cases he
  exact k.runSeq _ (k.seq _ _ (k.rx _ _ (hl _ _ (k.tick _ h))))

/-- A property that the sequencer keeps, that the latches and the host do not enter, and that holds after a block
reset, is an invariant of the step. -/
theorem SeqKept.step (hl : ∀ s l, P s → P (s.withLatches l)) (hh : ∀ s h, P s → P (s.withHost h))
    (hreset : ∀ s, P s → P (blockReset s)) {s t : State} (h : P s) (he : Machine.step s = .next t) : P t := by
  rcases step_cases he with ⟨-, rfl⟩ | ⟨-, -, rfl⟩ | ⟨-, -, h', rfl, -⟩ | ⟨-, -, i, h', hx, -⟩
  · exact hreset s h
  · exact k.seqStep h
  · exact hh _ _ (k.elapse _ h)
  · exact k.exec hl (hh _ _ (k.elapse _ h)) hx

end

end Sys2Proof.Machine
end

