-- ==== Sys2Proof/Tests/Slice0.lean ====
section
/-! SUPPORT. Tests, with results from spec/95_test_vectors.md (vectors V1 to V57, programs P1 to P3) and from the
encoding tables of spec/30_encoding.md, and one witness for the hypotheses of each obligation. -/

namespace Sys2Proof.Tests

open Sys2Proof.Machine Sys2Proof.Safety

/-! ## Small states -/

/-- A step without a fault, with this byte on `SDI`. -/
def quiet (sdi : Byte) : Answer := ⟨false, sdi, .low⟩

/-- A step that reports a fault. -/
def broken : Answer := ⟨true, 0, .low⟩

def calm (n : Nat) : List Answer := List.replicate n (quiet 0)

/-- The state after reset, with these answers first. -/
def fresh (answers : List Answer) : State := State.reset.withAnswers answers

/-- `answers` after `n` quiet ones, then quiet ones again. -/
def atStep (n : Nat) (answers : List Answer) : State := fresh (calm n ++ answers ++ calm 100)

def ran (o : Host.Outcome State Fault Refusal) (p : State → Bool) : Bool :=
  match o with
  | .next t => p t
  | .fault _ => false
  | .refused _ => false

def stopped (o : Host.Outcome State Fault Refusal) (f : Option Fault) (r : Option Refusal) : Bool :=
  match o with
  | .next _ => false
  | .fault x => f == some x && r.isNone
  | .refused x => r == some x && f.isNone

/-- The events, the one completion, and the levels of `CS` and `DC`. -/
def shows (events : List Event) (code : ResultCode) (rx : List Byte) (cs dc : Level) (t : State) : Bool :=
  t.trace == events && t.host.completions == [⟨code, rx⟩] && t.pins.cs == cs && t.pins.dc == dc && t.seq == .idle

def opened : State := (fresh (calm 20)).withPins { Pins.reset with cs := .low, dc := .low }

/-! ## Decoding: words written out from R50, R52, R55 and R58 -/

theorem test_decode_pins :
    decode [0x01, 0, 0, 0] = .instr .csAssert [] ∧ decode [0x02, 0, 0, 0] = .instr .csDeassert [] ∧
    decode [0x03, 0, 0, 0] = .instr .selectCommand [] ∧ decode [0x04, 0, 0, 0, 0x01] = .instr .selectData [0x01] := by
  decide +kernel

theorem test_decode_bytes :
    decode [0x05, 0, 0, 2, 0xAB, 0xCD] = .instr (.write [0xAB, 0xCD]) [] ∧
    decode [0x06, 0, 0, 2, 0x12, 0x34] = .instr (.transfer [0x12, 0x34]) [] ∧
    decode [0x12, 0, 0, 4, 0xF8, 0x00, 0xF8, 0x00, 0x10] = .instr (.writeData [0xF8, 0x00, 0xF8, 0x00]) [0x10] := by
  decide +kernel

theorem test_decode_command :
    decode [0x10, 0xE0, 0, 3, 1, 2, 3] = .instr (.command 0xE0 [1, 2, 3]) [] ∧
    decode [0x10, 0x2A, 0, 3, 1, 2, 3] = .instr (.command 0x2A [1, 2, 3]) [] ∧
    decode [0x10, 0x01, 0, 0] = .instr (.command 0x01 []) [] ∧
    decode [0x10, 0x2C, 0, 1, 9] = .instr (.command 0x2C [9]) [] := by
  decide +kernel

theorem test_decode_command_aliases :
    decode [0x10, 0x00, 0, 0] = .instr .noop [] ∧ decode [0x10, 0x11, 0, 0] = .instr .sleepOut [] ∧
    decode [0x10, 0x29, 0, 0] = .instr .displayOn [] ∧ decode [0x10, 0x2C, 0, 0] = .instr .memoryWrite [] ∧
    decode [0x10, 0x2A, 0, 4, 0x12, 0x34, 0xAB, 0xCD] = .instr (.columnAddressSet 0x1234 0xABCD) [] ∧
    decode [0x10, 0x2B, 0, 4, 0x00, 0xEF, 0x01, 0x3F] = .instr (.pageAddressSet 239 319) [] := by
  decide +kernel

theorem test_decode_read :
    decode [0x11, 0xDA, 0x01, 0x02, 5] = .instr (.readRegister 0xDA 0x0102) [5] ∧
    decode [0x11, 0x09, 0, 4] = .instr (.readStatus 4) [] ∧ decode [0x11, 0x0A, 0, 0] = .instr (.readPowerMode 0) [] ∧
    decode [0x11, 0x0B, 0xFF, 0xFF] = .instr (.readMadctl 0xFFFF) [] ∧
    decode [0x11, 0x0C, 0, 2] = .instr (.readPixelFormat 2) [] := by
  decide +kernel

theorem test_decode_resets_and_configuration :
    decode [0x20, 0, 0, 0] = .instr .hwReset [] ∧ decode [0x21, 0, 0, 0] = .instr .swReset [] ∧
    decode [0x50, 0x03, 0x01, 0xF4] = .instr (.cfgWrite 3 500) [] ∧
    decode [0x50, 0x00, 0xFF, 0xFE] = .instr (.cfgWrite 0 0xFFFE) [] ∧
    decode [0x51, 0x03, 0, 0] = .instr (.cfgRead 3) [] := by
  decide +kernel

/-- V40 to V49. -/
theorem test_decode_failures :
    ([[0x00, 0, 0, 0], [0x07, 0, 0, 0], [0x01, 0, 0, 1], [0x02, 1, 0, 0], [0x05, 1, 0, 0], [0x12, 0x80, 0, 0],
      [0x20, 0, 0, 1], [0x50, 4, 0, 0x32], [0x51, 0, 0, 1], [0xFF, 0xFF, 0xFF, 0xFF]] : List (List Byte)).all
      (fun d => decode (d ++ [7]) == .unsupported [7]) = true := by
  decide +kernel

theorem test_decode_truncated :
    decode [] = .truncated ∧ decode [0x01, 0, 0] = .truncated ∧ decode [0x05, 0, 0, 2, 0xAB] = .truncated := by
  decide +kernel

theorem test_encode_words :
    encode (.columnAddressSet 10 20) = [0x10, 0x2A, 0, 4, 0x00, 0x0A, 0x00, 0x14] ∧
    encode (.writeData [0xF8, 0x00]) = [0x12, 0, 0, 2, 0xF8, 0x00] ∧
    encode (.readRegister 0x09 4) = [0x11, 0x09, 0, 4] ∧ encode (.cfgWrite 1 200) = [0x50, 0x01, 0x00, 0xC8] ∧
    encode (.cfgRead 3) = [0x51, 0x03, 0, 0] ∧ encode .swReset = [0x21, 0, 0, 0] := by
  decide +kernel

/-- The table's words, as its column "match" gives them; the word of COMMAND with a zero `ARG` and `LEN` is NOOP's. -/
theorem test_table_words :
    decodeTableWord 32 0x01000000 = some .csAssert ∧ decodeTableWord 32 0x05000003 = some (.write [0, 0, 0]) ∧
    decodeTableWord 32 0x10AA0002 = some (.command 0xAA [0, 0]) ∧ decodeTableWord 32 0x10000000 = some .noop ∧
    decodeTableWord 32 0x102A0004 = some (.columnAddressSet 0 0) ∧ decodeTableWord 32 0x11090000 = some (.readStatus 0) ∧
    decodeTableWord 32 0x50030032 = some (.cfgWrite 3 50) ∧ decodeTableWord 32 0x51040000 = none := by
  decide +kernel

/-! ## Well-formedness -/

theorem test_illFormed_longBytes : (Instr.write (List.replicate 65536 0)).wellFormed = false := by
  rw [Instr.wellFormed, fitsLen, List.length_replicate]; decide +kernel

theorem test_illFormed_longPayload : (Instr.command 0xAA (List.replicate 65536 0)).wellFormed = false := by
  rw [Instr.wellFormed, fitsLen, List.length_replicate]; decide +kernel

theorem test_illFormed_aliasedCommand :
    (Instr.command 0x2C []).wellFormed = false ∧ (Instr.command 0x2A [0, 0, 0, 0]).wellFormed = false := by
  decide +kernel

theorem test_illFormed_aliasedRead : (Instr.readRegister 0x0C 1).wellFormed = false := by decide +kernel

theorem test_wellFormed_longestBytes : (Instr.writeData (List.replicate 65535 0)).wellFormed = true := by
  rw [Instr.wellFormed, fitsLen, List.length_replicate]; decide +kernel

theorem test_wellFormed_besideAliases :
    (Instr.command 0x01 []).wellFormed = true ∧ (Instr.command 0x2A [0, 0, 0]).wellFormed = true ∧
    (Instr.readRegister 0x0D 0).wellFormed = true := by
  decide +kernel

/-! ## The transport operations -/

/-- V1, V2. -/
theorem test_csAssert :
    ran (exec .csAssert (fresh (calm 9))) (shows [.drive .cs .low] .ok [] .low .high) = true ∧
    ran (exec .csAssert opened) (shows [.drive .cs .low] .ok [] .low .low) = true := by
  decide +kernel

/-- V3. -/
theorem test_csDeassert : ran (exec .csDeassert opened) (shows [.drive .cs .high] .ok [] .high .low) = true := by
  decide +kernel

/-- V4. -/
theorem test_selectCommand :
    ran (exec .selectCommand (fresh (calm 9))) (shows [.drive .dc .low] .ok [] .high .low) = true := by
  decide +kernel

/-- V5. -/
theorem test_selectData : ran (exec .selectData opened) (shows [.drive .dc .high] .ok [] .low .high) = true := by
  decide +kernel

/-- V6, V7. -/
theorem test_write :
    ran (exec (.write [0xAB, 0xCD]) (fresh (calm 9))) (shows [.tx 0xAB, .tx 0xCD] .ok [] .high .high) = true ∧
    ran (exec (.write []) (fresh (calm 9))) (shows [] .ok [] .high .high) = true := by
  decide +kernel

/-- V56. -/
theorem test_write_fault :
    ran (exec (.write [0xAB, 0xCD]) (atStep 2 [broken])) (shows [.tx 0xAB, .fault] .transportFault [] .high .high) =
      true := by
  decide +kernel

/-- V8, V9. -/
theorem test_transfer :
    ran (exec (.transfer [0x12, 0x34]) (atStep 1 [quiet 0xA5, quiet 0x5A]))
      (shows [.xf 0x12 0xA5, .xf 0x34 0x5A] .ok [0xA5, 0x5A] .high .high) = true ∧
    ran (exec (.transfer []) (fresh (calm 9))) (shows [] .ok [] .high .high) = true := by
  decide +kernel

/-- R144: a fault after the last byte, here of none, moves no pin, whatever the oracle's level. -/
theorem test_write_fault_keepsPins :
    ran (exec (.write []) (atStep 1 [⟨true, 0, .high⟩])) (fun t => t.pins == Pins.reset) = true ∧
    ran (exec (.write [1]) (atStep 1 [⟨false, 0, .high⟩, ⟨true, 0, .low⟩])) (fun t =>
      t.pins == { Pins.reset with sdo := .high }) = true := by
  decide +kernel

/-- V57. -/
theorem test_transfer_fault :
    ran (exec (.transfer [0x12, 0x34]) (atStep 1 [broken])) (shows [.fault] .transportFault [] .high .high) = true := by
  decide +kernel

/-- R71, written out for the byte 0xA5: each bit is set up with the clock low and stands while the clock is high. -/
theorem test_byteWave :
    risingSamples .low (byteWave 0xA5 Pins.reset) = [.high, .low, .high, .low, .low, .high, .low, .high] ∧
    (byteWave 0xA5 Pins.reset).length = 24 ∧ captureSdi 0xA5 = 0xA5 := by
  decide +kernel

/-! ## The command framer -/

/-- V13, with the first three of its bytes, and V19. -/
theorem test_command :
    ran (exec (.command 0xE0 [1, 2, 3]) (fresh (calm 20)))
      (shows [.drive .cs .low, .drive .dc .low, .tx 0xE0, .drive .dc .high, .tx 1, .tx 2, .tx 3, .drive .cs .high]
        .ok [] .high .high) = true ∧
    ran (exec (.command 0x01 []) opened)
      (shows [.drive .cs .low, .drive .dc .low, .tx 0x01, .drive .dc .high, .drive .cs .high] .ok [] .high .high) =
      true := by
  decide +kernel

/-- V50 and V51 with another opcode, V52. -/
theorem test_command_fault :
    ran (exec (.command 0x2D []) (atStep 3 [broken]))
      (shows [.drive .cs .low, .drive .dc .low, .fault] .transportFault [] .low .low) = true ∧
    ran (exec (.command 0x2D []) (atStep 4 [broken]))
      (shows [.drive .cs .low, .drive .dc .low, .tx 0x2D, .fault] .transportFault [] .low .low) = true ∧
    ran (exec (.columnAddressSet 0 0x3F) (atStep 8 [broken]))
      (shows [.drive .cs .low, .drive .dc .low, .tx 0x2A, .drive .dc .high, .tx 0, .tx 0, .fault]
        .transportFault [] .low .high) = true := by
  decide +kernel

/-- V11. -/
theorem test_noop :
    ran (exec .noop (fresh (calm 20)))
      (shows [.drive .cs .low, .drive .dc .low, .tx 0x00, .drive .dc .high, .drive .cs .high] .ok [] .high .high) =
      true := by
  decide +kernel

/-- P1, descriptor 5. -/
theorem test_sleepOut :
    ran (exec .sleepOut (fresh (calm 20)))
      (shows [.drive .cs .low, .drive .dc .low, .tx 0x11, .drive .dc .high, .drive .cs .high] .ok [] .high .high) =
      true := by
  decide +kernel

/-- P1, descriptor 6. -/
theorem test_displayOn :
    ran (exec .displayOn (fresh (calm 20)))
      (shows [.drive .cs .low, .drive .dc .low, .tx 0x29, .drive .dc .high, .drive .cs .high] .ok [] .high .high) =
      true := by
  decide +kernel

/-- V12. -/
theorem test_memoryWrite :
    ran (exec .memoryWrite (fresh (calm 20)))
      (shows [.drive .cs .low, .drive .dc .low, .tx 0x2C, .drive .dc .high, .drive .cs .high] .ok [] .high .high) =
      true := by
  decide +kernel

/-- V10 with the coordinates of R122's example. -/
theorem test_columnAddressSet :
    ran (exec (.columnAddressSet 0x1234 0xABCD) (fresh (calm 20)))
      (shows [.drive .cs .low, .drive .dc .low, .tx 0x2A, .drive .dc .high, .tx 0x12, .tx 0x34, .tx 0xAB, .tx 0xCD,
        .drive .cs .high] .ok [] .high .high) = true := by
  decide +kernel

/-- P2, descriptor 2. -/
theorem test_pageAddressSet :
    ran (exec (.pageAddressSet 63 63) (fresh (calm 20)))
      (shows [.drive .cs .low, .drive .dc .low, .tx 0x2B, .drive .dc .high, .tx 0x00, .tx 0x3F, .tx 0x00, .tx 0x3F,
        .drive .cs .high] .ok [] .high .high) = true := by
  decide +kernel

/-- R92, with an opcode that is not a read. -/
theorem test_readRegister :
    ran (exec (.readRegister 0xDA 1) (atStep 6 [quiet 0x93]))
      (shows [.drive .cs .low, .drive .dc .low, .tx 0xDA, .drive .dc .high, .xf 0 0x93, .drive .cs .high]
        .ok [0x93] .high .high) = true := by
  decide +kernel

/-- V14. -/
theorem test_readStatus :
    ran (exec (.readStatus 4) (atStep 6 [quiet 0x00, quiet 0x61]))
      (shows [.drive .cs .low, .drive .dc .low, .tx 0x09, .drive .dc .high, .xf 0 0, .xf 0 0x61, .xf 0 0, .xf 0 0,
        .drive .cs .high] .ok [0x00, 0x61, 0x00, 0x00] .high .high) = true := by
  decide +kernel

/-- V53: "the two bytes read are discarded". -/
theorem test_readStatus_fault :
    ran (exec (.readStatus 4) (atStep 6 [quiet 0x00, quiet 0x61, broken]))
      (shows [.drive .cs .low, .drive .dc .low, .tx 0x09, .drive .dc .high, .xf 0 0, .xf 0 0x61, .fault]
        .transportFault [] .low .high) = true := by
  decide +kernel

/-- V16. -/
theorem test_readPowerMode :
    ran (exec (.readPowerMode 0) (fresh (calm 20)))
      (shows [.drive .cs .low, .drive .dc .low, .tx 0x0A, .drive .dc .high, .drive .cs .high] .ok [] .high .high) =
      true := by
  decide +kernel

/-- R58, R92. -/
theorem test_readMadctl :
    ran (exec (.readMadctl 1) (atStep 6 [quiet 0x48]))
      (shows [.drive .cs .low, .drive .dc .low, .tx 0x0B, .drive .dc .high, .xf 0 0x48, .drive .cs .high]
        .ok [0x48] .high .high) = true := by
  decide +kernel

/-- V15. -/
theorem test_readPixelFormat :
    ran (exec (.readPixelFormat 2) (atStep 6 [quiet 0x00, quiet 0x55]))
      (shows [.drive .cs .low, .drive .dc .low, .tx 0x0C, .drive .dc .high, .xf 0 0, .xf 0 0x55, .drive .cs .high]
        .ok [0x00, 0x55] .high .high) = true := by
  decide +kernel

/-- V17, V18: "sets DC first and then asserts CS". -/
theorem test_writeData :
    ran (exec (.writeData [0xF8, 0x00]) (fresh (calm 20)))
      (shows [.drive .dc .high, .drive .cs .low, .tx 0xF8, .tx 0x00, .drive .cs .high] .ok [] .high .high) = true ∧
    ran (exec (.writeData []) opened)
      (shows [.drive .dc .high, .drive .cs .low, .drive .cs .high] .ok [] .high .high) = true := by
  decide +kernel

/-- V54: a fault after the last byte. -/
theorem test_writeData_fault :
    ran (exec (.writeData [0xF8, 0x00]) (atStep 5 [broken]))
      (shows [.drive .dc .high, .drive .cs .low, .tx 0xF8, .tx 0x00, .fault] .transportFault [] .low .high) = true := by
  decide +kernel

/-! ## The reset sequencer -/

/-- V20, V21. -/
theorem test_hwReset :
    ran (exec .hwReset (fresh (calm 20))) (fun t =>
      shows [.drive .rst .low, .wait 50, .drive .rst .high, .wait 50] .ok [] .high .high t && t.now.fixed == 100 &&
        t.stamps.map Time.fixed == [0, 50, 50, 100] && t.pins.rst == .high) = true ∧
    ran (exec .hwReset ((fresh (calm 20)).withCfg { Cfg.reset with tRstLow := 200 })) (fun t =>
      shows [.drive .rst .low, .wait 200, .drive .rst .high, .wait 50] .ok [] .high .high t && t.now.fixed == 250) = true := by
  decide +kernel

/-- R143: with `FAULT_POINTS = all_primitives` a wait can fault; it then "has no effect". -/
theorem test_hwReset_fault :
    ran (exec .hwReset ((atStep 2 [broken]).withParams { State.reset.params with faultPoints := .allPrimitives }))
      (fun t => shows [.drive .rst .low, .fault] .transportFault [] .high .high t && t.now.fixed == 0 && t.pins.rst == .low) =
      true := by
  decide +kernel

/-- V22. -/
theorem test_swReset :
    ran (exec .swReset (fresh (calm 20))) (fun t =>
      shows [.drive .cs .low, .drive .dc .low, .tx 0x01, .drive .dc .high, .drive .cs .high, .wait 120]
        .ok [] .high .high t && t.now.fixed == 120) = true := by
  decide +kernel

/-- V55. -/
theorem test_swReset_fault :
    ran (exec .swReset (atStep 3 [broken])) (fun t =>
      shows [.drive .cs .low, .drive .dc .low, .fault] .transportFault [] .low .low t && t.now.fixed == 0) = true := by
  decide +kernel

/-! ## Configuration -/

/-- V25, V26, V28, V29. -/
theorem test_cfgWrite :
    ran (exec (.cfgWrite 1 200) (fresh (calm 9)))
      (fun t => shows [] .ok [] .high .high t && t.cfg == ⟨0, 200, 50, 120⟩) = true ∧
    ran (exec (.cfgWrite 1 10) ((fresh (calm 9)).withCfg ⟨0, 200, 50, 120⟩)) (fun t => t.cfg == ⟨0, 50, 50, 120⟩) =
      true ∧
    ran (exec (.cfgWrite 0 1) (fresh (calm 9)))
      (fun t => shows [.backlight .high] .ok [] .high .high t && t.pins.bl == .high && t.cfg.ctrl == 1) = true ∧
    ran (exec (.cfgWrite 0 0xFFFE) (fresh (calm 9)))
      (fun t => shows [.backlight .low] .ok [] .high .high t && t.pins.bl == .low && t.cfg.ctrl == 0) = true := by
  decide +kernel

/-- The "more clamp points" of the vectors. -/
theorem test_clampPoints :
    legal 1 49 = 50 ∧ legal 1 50 = 50 ∧ legal 1 51 = 51 ∧ legal 2 0 = 50 ∧ legal 3 119 = 120 ∧ legal 3 120 = 120 ∧
    legal 3 121 = 121 ∧ legal 3 0xFFFF = 65535 ∧ legal 0 0xFFFF = 1 := by
  decide +kernel

/-- V24. -/
theorem test_cfgRead :
    ran (exec (.cfgRead 3) (fresh (calm 9))) (shows [] .ok [0x00, 0x78] .high .high) = true ∧
    ran (exec (.cfgRead 3) ((fresh (calm 9)).withCfg ⟨0, 50, 50, 500⟩)) (shows [] .ok [0x01, 0xF4] .high .high) =
      true := by
  decide +kernel

/-! ## The step -/

/-- What the host places is what the step runs; the rest of its bytes stay. -/
theorem test_step_submits :
    ran (step ((fresh (calm 9)).withProgram [.submit [0x01, 0, 0, 0, 0x02, 0, 0, 0]])) (fun t =>
      shows [.drive .cs .low] .ok [] .low .high t && t.host.program == [.submit [0x02, 0, 0, 0]]) = true := by
  decide +kernel

theorem test_withFetchWord :
    ran (step ((fresh (calm 9)).withFetchWord 32 0x50030000)) (fun t =>
      shows [] .ok [] .high .high t && t.cfg.tSwrst == 120 && t.host.program == []) = true := by
  decide +kernel

/-- V42. -/
theorem test_step_rejects :
    ran (step ((fresh []).withProgram [.submit [0x01, 0, 0, 1]]))
      (shows [] .unsupportedOperation [] .high .high) = true := by
  decide +kernel

theorem test_step_truncated :
    stopped (step ((fresh []).withProgram [.submit [0x05, 0, 0, 2, 0xAB]])) (some .truncatedDescriptor) none = true := by
  decide +kernel

/-- R170: a running operation is dropped without a completion. -/
theorem test_blockReset :
    ran (step (((opened.withSeq (.running [.wait 50] 0 0)).withTrace [.fault]).withResetInput true)) (fun t =>
      t.pins == Pins.reset && t.seq == .idle && t.trace == [] && t.host.completions == [] && t.resetInput == false) =
      true := by
  decide +kernel

/-- R140: the numeric codes. -/
theorem test_resultCodes :
    ([.ok, .transportFault, .unsupportedOperation, .timingAssumptionViolated] : List ResultCode).map ResultCode.bits =
      [0, 1, 2, 3] := by
  decide +kernel

/-- The last of the notes on V50 to V57: "the next descriptor is accepted normally"; the fault observation stays. -/
theorem test_after_fault :
    ran (step ((atStep 3 [broken]).withProgram [.submit [0x21, 0, 0, 0, 0x02, 0, 0, 0]])) (fun t => t.host.faulted &&
      ran (step t) (fun u => u.host.completions == [⟨.transportFault, []⟩, ⟨.ok, []⟩] && u.pins.cs == .high &&
        u.host.faulted)) = true := by
  decide +kernel

/-! ## Macros -/

/-- V30, V31, V36 to V39: pixel counts and frames. -/
theorem test_frames :
    (⟨0, 0, 0, 0⟩ : AddressWindow).frames = 0 ∧ (⟨0, 0, 64, 0⟩ : AddressWindow).pixelCount = 65 ∧
    (⟨0, 0, 64, 0⟩ : AddressWindow).frames = 1 ∧ (⟨0, 0, 63, 63⟩ : AddressWindow).frames = 64 ∧
    (⟨0, 0, 239, 319⟩ : AddressWindow).frames = 1200 ∧
    (⟨0, 0, 65535, 65535⟩ : AddressWindow).pixelCount = 4294967296 ∧
    (⟨0, 0, 65535, 65535⟩ : AddressWindow).frames = 67108864 ∧ (⟨5, 5, 5, 68⟩ : AddressWindow).frames = 1 := by
  decide +kernel

/-- P3: the five descriptors. -/
theorem test_clearExpansion :
    ((clearExpansion ⟨0, 0, 64, 0⟩ 0x001F).map encode).map (List.take 8) =
      [[0x10, 0x2A, 0, 4, 0, 0, 0, 0], [0x10, 0x2B, 0, 4, 0, 0x40, 0, 0], [0x10, 0x2C, 0, 0],
       [0x12, 0, 0, 0x40, 0, 0x1F, 0, 0x1F], [0x10, 0, 0, 0]] := by
  decide +kernel

/-- The parameters of P1. -/
def paramsP1 : Params :=
  { State.reset.params with
    initTable := [(0xAA, [0x01, 0x02]), (0x11, []), (0x29, [])]
    diagList := [(0x09, 4)] }

/-- P1: the seven descriptors. -/
theorem test_initExpansion :
    (initExpansion paramsP1 true true).map encode =
      [[0x20, 0, 0, 0], [0x21, 0, 0, 0], [0x11, 0x09, 0, 4], [0x10, 0xAA, 0, 2, 1, 2], [0x10, 0x11, 0, 0],
       [0x10, 0x29, 0, 0], [0x11, 0x09, 0, 4]] := by
  decide +kernel

/-- P1, "variant with a fault": INIT ends with code 1. -/
theorem test_init_fault :
    ran (step (((atStep 7 [broken]).withParams paramsP1).withJob (some ⟨.init true true, 3⟩))) (fun t =>
      shows [.drive .cs .low, .drive .dc .low, .tx 0xAA, .drive .dc .high, .tx 0x01, .fault]
        .transportFault [] .low .high t && t.host.job == none && t.host.macroEnds == [.transportFault]) = true := by
  decide +kernel

/-- "`CLEAR 5, 0, 4, 0, c` and `CLEAR 0, 9, 0, 8, c` submit nothing and end with code 2". -/
theorem test_clear_refused :
    ([⟨5, 0, 4, 0⟩, ⟨0, 9, 0, 8⟩] : List AddressWindow).all (fun w =>
      ran (step ((fresh []).withProgram [.call (.clear w 7)])) (fun t =>
        t.host == ⟨[], none, [], [.unsupportedOperation]⟩ && t.trace == [])) = true := by
  decide +kernel

theorem test_init_refused :
    stopped (step (((fresh []).withParams { paramsP1 with initTable := [(0x29, []), (0x11, [])] }).withProgram
      [.call (.init true false)])) none (some .initTableOutsidePremises) = true ∧
    stopped (step (((fresh []).withParams { paramsP1 with diagList := [(0x2E, 4)] }).withProgram
      [.call (.init true false)])) none (some .diagListOutsidePremises) = true := by
  decide +kernel

/-- A time at which no more than the waits' bounds has passed. -/
def exactly (n : Nat) : Time := ⟨n, 0, 0⟩

/-- An observer of the machine of P1 that has seen a complete INIT, which ended long before 300, after these events at
300. -/
noncomputable def watched (events : List Event) : Monitor :=
  events.foldl (fun m e => Monitor.observe paramsP1 m e (exactly 300))
    { Monitor.start with highSince := some (exactly 50), known := true }

/-- The events of `COMMAND b` with these payload bytes (R90). -/
def commandFrame (b : Byte) (payload : List Byte) : List Event :=
  [.drive .cs .low, .drive .dc .low, .tx b, .drive .dc .high] ++ payload.map Event.tx ++ [.drive .cs .high]

/-- Such an observer finds a byte at 300 long after the pulse; with no opcode 0x01 seen, only these hazards are left. -/
theorem watched_hazards (m : Monitor) (hp : m.highSince = some (exactly 50)) (hs : m.swResetAt = none) :
    m.hazardsOfByte (exactly 300) =
      (if m.cs = .high then [.byteOutsideFrame] else []) ++ (if m.pixelData && !m.known then [.dataBeforeInit] else []) ++
      (if m.pixelData && !m.session then [.dataOutsideSession] else []) ++
      (if m.pixelData && !m.windowed then [.dataWithoutWindow] else []) := by
  have h : m.resetDone (exactly 300) = true := by simp [Monitor.resetDone, hp, exactly]; norm_num
  simp [Monitor.hazardsOfByte, h, Monitor.settling, hs]

/-- R22, R182: an opcode byte 0x01 and then a byte at once is a hazard an observer sees. -/
theorem test_monitor_settle :
    (({ Monitor.start with cs := .low, dc := .low, highSince := some (exactly 50) }).opcodeByte 0x01
      (exactly 300)).hazardsOfByte (exactly 300) = [.byteInSettleWindow] := by
  simp [Monitor.start, Monitor.opcodeByte, Monitor.hazardsOfByte, Monitor.resetDone, Monitor.settling, Monitor.pixelData,
    exactly]
  norm_num

/-- R125, R186: the order of CLEAR, after a status read, meets no hazard; a window sent after 0x2C is no window of the
session. -/
theorem test_monitor_bracket :
    (watched (commandFrame 0x0A [] ++ commandFrame 0x2A [0, 1, 0, 2] ++ commandFrame 0x2B [0, 3, 0, 4] ++
      commandFrame 0x2C [] ++ [.drive .cs .low, .tx 7])).hazards = [] ∧
    (watched (commandFrame 0x2C [] ++ commandFrame 0x2A [0, 1, 0, 2] ++ commandFrame 0x2B [0, 3, 0, 4] ++
      [.drive .cs .low, .tx 7])).hazards = [.dataBeforeInit, .dataOutsideSession, .dataWithoutWindow] := by
  constructor <;>
  simp [watched, commandFrame, Monitor.start, Monitor.observe, Monitor.take, Monitor.byte, Monitor.opcodeByte,
    Monitor.frameStart, Monitor.frameEnd, frameOf, txBytes, xfBytes, isTableEntry, paramsP1, bracketOpcode, aliasedRead,
    Monitor.closeBracket, Monitor.forget, Monitor.lose, Monitor.pixelData, Monitor.follow, watched_hazards]

/-- U10, N10, U14: nothing is known after a 0x2C cut by a fault, after two opcode bytes in a frame, or after a 0x2A with
three bytes. -/
theorem test_monitor_irregular :
    (watched [.drive .cs .low, .drive .dc .low, .tx 0x2C, .fault, .drive .cs .high]).known = false ∧
    (watched [.drive .cs .low, .drive .dc .low, .tx 0x2A, .tx 0x2C, .drive .dc .high, .drive .cs .high]).known = false ∧
    (watched (commandFrame 0x2A [0, 1, 0])).known = false := by
  refine ⟨?_, ?_, ?_⟩ <;>
  simp [watched, commandFrame, Monitor.start, Monitor.observe, Monitor.take, Monitor.byte, Monitor.opcodeByte,
    Monitor.frameStart, Monitor.frameEnd, frameOf, txBytes, xfBytes, isTableEntry, paramsP1, bracketOpcode, aliasedRead,
    Monitor.closeBracket, Monitor.forget, Monitor.lose, Monitor.pixelData, Monitor.follow, watched_hazards]

/-- R180, U14: nothing is known after a read of another opcode, a status read with other bytes than dummies, or a data frame
without a byte outside a session; a status read of dummies leaves the panel known (R173). -/
theorem test_monitor_reads :
    (watched ([.drive .cs .low, .drive .dc .low, .tx 0x2A, .drive .dc .high, .xf 0 1, .xf 0 2, .drive .cs .high])).known =
      false ∧
    (watched ([.drive .cs .low, .drive .dc .low, .tx 0x09, .drive .dc .high, .xf 7 1, .drive .cs .high])).known = false ∧
    (watched ([.drive .dc .high, .drive .cs .low, .drive .cs .high])).known = false ∧
    (watched ([.drive .cs .low, .drive .dc .low, .tx 0x09, .drive .dc .high, .xf 0 1, .drive .cs .high])).known = true := by
  refine ⟨?_, ?_, ?_, ?_⟩ <;>
  simp [watched, Monitor.start, Monitor.observe, Monitor.take, Monitor.byte, Monitor.opcodeByte, Monitor.frameStart,
    Monitor.frameEnd, frameOf, txBytes, xfBytes, paramsP1, State.reset, bracketOpcode, aliasedRead, Monitor.closeBracket,
    Monitor.forget, Monitor.lose, Monitor.pixelData, Monitor.follow, watched_hazards]

/-- R185, U4: a table entry sent again after INIT is a hazard, and the panel is known no more. -/
theorem test_monitor_tableAgain :
    (watched (commandFrame 0xAA [0x01, 0x02])).hazards = [.tableOutOfPlace] ∧
    (watched (commandFrame 0xAA [0x01, 0x02])).known = false := by
  constructor <;>
  simp [watched, commandFrame, Monitor.start, Monitor.observe, Monitor.take, Monitor.byte, Monitor.opcodeByte,
    Monitor.frameStart, Monitor.frameEnd, frameOf, txBytes, xfBytes, isTableEntry, paramsP1, bracketOpcode, aliasedRead,
    Monitor.inPlace, Monitor.closeBracket, Monitor.forget, Monitor.lose, Monitor.pixelData, Monitor.follow,
    watched_hazards]

/-- P1: the events of INIT to the end of its table, waits and incoming bytes aside; the last of them makes the panel known,
and every entry before it is at its place. -/
theorem test_monitor_bringUp :
    let before (n : Nat) := { Monitor.start with clean := true, bringUp := some ((initTraffic paramsP1 true).take n) }
    initTraffic paramsP1 false = [.drive .rst .low, .wait 0, .drive .rst .high, .wait 0] ++ commandFrame 0x01 [] ++
      [.wait 0] ++ commandFrame 0xAA [0x01, 0x02] ++ commandFrame 0x11 [] ++ commandFrame 0x29 [] ∧
    (Monitor.follow paramsP1 (before 35) (.drive .cs .high)).known = true ∧
    (before 25).inPlace paramsP1 = true ∧ (before 24).inPlace paramsP1 = false := by
  decide +kernel

/-- R21: an idle step and a call of a macro let time pass. -/
theorem test_time_between_operations :
    ran (step (fresh [])) (fun t => t.now == (exactly 0).later) = true ∧
    ran (step ((fresh []).withProgram [.call (.clear ⟨0, 0, 0, 0⟩ 7)])) (fun t => t.now == (exactly 0).later) = true := by
  decide +kernel

/-! ## Witnesses: a state and operands that meet the hypotheses of each obligation, each clause at a boundary -/

/-- The state after reset with `FAULT_POINTS = all_primitives`. -/
def anyPrimitive (answers : List Answer) : State :=
  (fresh answers).withParams { State.reset.params with faultPoints := .allPrimitives }

theorem witness_DecodeOfEncode :
    (Instr.writeData (List.replicate 65535 0)).wellFormed = true ∧ (Instr.command 0x2A [1, 2, 3]).wellFormed = true ∧
    (Instr.command 0x2C [0]).wellFormed = true ∧ (Instr.readRegister 0x08 0xFFFF).wellFormed = true :=
  ⟨test_wellFormed_longestBytes, by decide +kernel⟩

theorem witness_EncodeOfDecode :
    decode [0x05, 0, 0, 1, 0xAB, 0xCD] = .instr (.write [0xAB]) [0xCD] ∧
    decode [0x51, 0x03, 0, 0] = .instr (.cfgRead 3) [] := by
  decide +kernel

theorem witness_MeaningsRunTheExpansion :
    (Instr.command 0xFF []).wellFormed = true ∧ (Instr.cfgWrite 3 0).wellFormed = true := by decide +kernel

theorem witness_StepRunsDecodedInstruction :
    let s := (fresh []).withProgram [.submit [0x21, 0, 0, 0, 0x51, 0, 0, 0]]
    s.resetInput = false ∧ s.seq = .idle ∧ s.host.job = none ∧
      s.host.program = .submit [0x21, 0, 0, 0, 0x51, 0, 0, 0] :: [] ∧
      decode [0x21, 0, 0, 0, 0x51, 0, 0, 0] = .instr .swReset [0x51, 0, 0, 0] := by
  decide +kernel

theorem witness_RunningStepIsTheSequencers :
    let s := (fresh []).withSeq (.running [.busWrite [1]] 0 1)
    s.resetInput = false ∧ s.seq = .running [.busWrite [1]] 0 1 := ⟨rfl, rfl⟩

theorem witness_RejectedDescriptorChangesNothing :
    let s := (fresh []).withProgram [.submit [0x50, 4, 0, 0x32]]
    s.resetInput = false ∧ s.seq = .idle ∧ s.host.job = none ∧ s.host.program = .submit [0x50, 4, 0, 0x32] :: [] ∧
      decode [0x50, 4, 0, 0x32] = .unsupported [] := by
  decide +kernel

theorem witness_TruncatedDescriptorStops :
    let s := (fresh []).withProgram [.submit [0x10, 0xFF, 0xFF, 0xFF, 0]]
    s.resetInput = false ∧ s.seq = .idle ∧ s.host.job = none ∧
      s.host.program = .submit (0x10 :: [0xFF, 0xFF, 0xFF, 0]) :: [] ∧
      decode [0x10, 0xFF, 0xFF, 0xFF, 0] = .truncated := by
  decide +kernel

theorem witness_BlockResetStep : ((fresh []).withResetInput true).resetInput = true := rfl

/-- A state inside an operation, with a trace, in which all invariants hold. -/
def inside : State :=
  (((((fresh (calm 9)).withPins { Pins.reset with cs := .low, bl := .high }).withCfg ⟨1, 50, 50, 120⟩).withSeq
    (.running (commandPlan 0x2D [7]) 1 0)).withTrace [.backlight .high, .drive .cs .low, .wait 50]).withStamps
    [exactly 0, exactly 0, exactly 50] |>.withNow (exactly 50)

theorem witness_invariants : CfgLegal inside ∧ PinsFollowTrace inside ∧ ClockIdle inside ∧ SeqBounded inside := by
  refine ⟨by decide +kernel, by decide +kernel, by decide +kernel, ?_⟩
  simp [SeqBounded, inside, commandPlan, byteCount]

theorem witness_TimelineOk : TimelineOk inside := by
  have f : inside.stamps = [exactly 0, exactly 0, exactly 50] := rfl
  have n : inside.now = exactly 50 := rfl
  refine ⟨by simp [n, exactly], rfl, by simp [f, exactly], by simp [f, n, exactly], ?_⟩
  intro i j d ti tj hij hw hi hj
  have e : inside.trace = [.backlight .high, .drive .cs .low, .wait 50] := rfl
  rw [e] at hw
  rw [f] at hi hj
  match j, hij, hw, hj with
  | 2, hij, hw, hj =>
    match i, hij, hi with
    | 0, _, hi => simp at hw hi hj; subst hw hi hj; norm_num [exactly]
    | 1, _, hi => simp at hw hi hj; subst hw hi hj; norm_num [exactly]
  | 0, _, hw, _ => simp at hw
  | 1, _, hw, _ => simp at hw

theorem witness_StepKeepsInvariant : Inv inside ∧ ∃ t, step inside = .next t :=
  ⟨⟨witness_invariants.1, witness_invariants.2.1, witness_invariants.2.2.1, witness_TimelineOk,
    witness_invariants.2.2.2⟩, _, rfl⟩

theorem witness_ConfigurationStaysLegal : CfgLegal inside ∧ ∃ t, step inside = .next t :=
  ⟨witness_invariants.1, _, rfl⟩

theorem witness_StepKeepsPinsOnTrace : PinsFollowTrace inside ∧ ∃ t, step inside = .next t :=
  ⟨witness_invariants.2.1, _, rfl⟩

theorem witness_StepKeepsTimeline : TimelineOk inside ∧ ∃ t, step inside = .next t := ⟨witness_TimelineOk, _, rfl⟩

theorem witness_StepKeepsSequencerBounded :
    (Instr.writeData (List.replicate 65535 0)).wellFormed = true ∧ (Instr.readRegister 0xDA 0xFFFF).wellFormed = true ∧
    SeqBounded inside ∧ ClockIdle inside ∧ ∃ t, step inside = .next t :=
  ⟨test_wellFormed_longestBytes, by decide +kernel, witness_invariants.2.2.2, witness_invariants.2.2.1, _, rfl⟩

theorem witness_StepOnlyAppends : inside.resetInput = false ∧ ∃ t, step inside = .next t := ⟨rfl, _, rfl⟩

theorem witness_EveryOperationEndsOnce :
    (Instr.command 0x2D []).wellFormed = true ∧ NoFault (planOf (.command 0x2D []) (fresh (calm 9))) (fresh (calm 9)) ∧
    FirstFault (planOf (.command 0x2D []) (atStep 3 [broken])) (atStep 3 [broken]) 2 := by
  decide +kernel

theorem witness_FaultObservation :
    Instr.swReset.wellFormed = true ∧ NoFault (planOf .swReset (fresh (calm 9))) (fresh (calm 9)) ∧
    FirstFault (planOf .swReset (atStep 4 [broken])) (atStep 4 [broken]) 3 := by
  decide +kernel

/-- The earliest and the latest step of a READ_REGISTER that can fault, and a HW_RESET with all primitives. -/
theorem witness_FaultKeepsAPrefix :
    (Instr.readRegister 0xDA 2).wellFormed = true ∧
    FirstFault (planOf (.readRegister 0xDA 2) (atStep 3 [broken])) (atStep 3 [broken]) 2 ∧
    FirstFault (planOf (.readRegister 0xDA 2) (atStep 8 [broken])) (atStep 8 [broken]) 7 ∧
    FirstFault (planOf .hwReset (anyPrimitive [quiet 0, broken])) (anyPrimitive [quiet 0, broken]) 0 := by
  decide +kernel

/-- Steps 3 and 4 are where the opcode write ends and where `DC=1` stands; a fault strikes at 3 and at 5. -/
theorem witness_PinLevelsAfterAFault :
    (fresh []).params.faultPoints = .serialOnly ∧
    FirstFault [.busWrite [1, 2]] (atStep 3 [broken]) 2 ∧
    FirstFault [.busTransfer [1, 2]] (atStep 1 [broken]) 0 ∧
    FirstFault (commandPlan 0x2D [1]) (atStep 4 [broken]) 3 ∧
    FirstFault (commandPlan 0x2D [1]) (atStep 6 [broken]) 5 ∧
    FirstFault (readPlan 0xDA 1 (fresh []).params.dummy) (atStep 4 [broken]) 3 ∧
    FirstFault (readPlan 0xDA 1 (fresh []).params.dummy) (atStep 6 [broken]) 5 ∧
    FirstFault [.drive .dc .high, .drive .cs .low, .busWrite [], .drive .cs .high] (atStep 3 [broken]) 2 ∧
    FirstFault (commandPlan 0x01 [] ++ [.wait (Cfg.reset.get 3)]) (atStep 4 [broken]) 3 := by
  decide +kernel

/-- A first primitive, and the last wait of SW_RESET. -/
theorem witness_PinStepFaultHasNoEffect :
    let s := anyPrimitive (calm 7 ++ [broken])
    (anyPrimitive [quiet 0, broken]).params.faultPoints = .allPrimitives ∧
    NoFault [] (anyPrimitive [quiet 0, broken]) ∧
    ((anyPrimitive [quiet 0, broken]).answerAt ((faultSteps .allPrimitives []).length + 1)).fault = true ∧
    s.params.faultPoints = .allPrimitives ∧ NoFault (commandPlan 0x01 []) s ∧
    (s.answerAt ((faultSteps .allPrimitives (commandPlan 0x01 [])).length + 1)).fault = true := by
  decide +kernel

theorem witness_FaultedWaitTakesNoTime :
    (anyPrimitive []).params.faultPoints = .allPrimitives ∧
    FirstFault (planOf .hwReset (anyPrimitive (calm 2 ++ [broken]))) (anyPrimitive (calm 2 ++ [broken])) 1 ∧
    FirstFault (planOf .hwReset (anyPrimitive (calm 4 ++ [broken]))) (anyPrimitive (calm 4 ++ [broken])) 3 ∧
    FirstFault (planOf .swReset (anyPrimitive (calm 7 ++ [broken]))) (anyPrimitive (calm 7 ++ [broken])) 6 := by
  decide +kernel

theorem witness_OnlyTheNamedOperationsDrive : ∃ t, exec (.cfgWrite 1 10) (fresh (calm 9)) = .next t := ⟨_, rfl⟩

theorem witness_VariantAndClockRateHaveNoEffect : ∃ t, exec .swReset (atStep 3 [broken]) = .next t := ⟨_, rfl⟩

theorem witness_PinOperationsDriveOneLine :
    NoFault [.drive .cs .low] State.reset ∧ NoFault [.drive .cs .high] State.reset ∧
    NoFault [.drive .dc .low] (anyPrimitive (calm 2)) ∧ NoFault [.drive .dc .high] (anyPrimitive (calm 2)) := by
  decide +kernel

theorem witness_OperationsWithoutBytesCannotFault :
    clocksBytes .hwReset = false ∧ State.reset.params.faultPoints = .serialOnly ∧
    clocksBytes (.cfgWrite 0 1) = false ∧ clocksBytes (.cfgRead 3) = false := by
  decide +kernel

theorem witness_WriteSendsItsBytes :
    NoFault [.busWrite []] (fresh (calm 9)) ∧ NoFault [.busWrite [0xAB, 0xCD]] (fresh (calm 9)) := by decide +kernel

theorem witness_TransferExchangesBytes :
    NoFault [.busTransfer []] (fresh (calm 9)) ∧ NoFault [.busTransfer [0x12, 0x34]] (fresh (calm 9)) := by
  decide +kernel

theorem witness_CommandSendsOneFrame :
    NoFault (commandPlan 0xFF []) (fresh (calm 9)) ∧ NoFault (commandPlan 0x2A [1, 2, 3]) (fresh (calm 20)) := by
  decide +kernel

theorem witness_CommandFramingProperty : NoFault (commandPlan 0xE0 [1, 2]) (anyPrimitive (calm 20)) := by
  decide +kernel

theorem witness_CommandAliasesSendTheirFrame :
    NoFault (commandPlan 0x00 []) (fresh (calm 9)) ∧ NoFault (commandPlan 0x11 []) (fresh (calm 9)) ∧
    NoFault (commandPlan 0x29 []) (fresh (calm 9)) ∧ NoFault (commandPlan 0x2C []) (fresh (calm 9)) ∧
    NoFault (commandPlan 0x2A (be16 0 ++ be16 0xFFFF)) (fresh (calm 20)) ∧
    NoFault (commandPlan 0x2B (be16 0 ++ be16 0xFFFF)) (fresh (calm 20)) := by
  decide +kernel

theorem witness_ReadRegisterSendsOneFrame :
    NoFault (readPlan 0xDA 0 (fresh []).params.dummy) (fresh (calm 20)) ∧
    NoFault (readPlan 0xDA 4 (fresh []).params.dummy) (fresh (calm 20)) := by
  decide +kernel

theorem witness_ReadAliasesSendTheirFrame :
    NoFault (readPlan 0x09 0 (fresh []).params.dummy) (fresh (calm 20)) ∧
    NoFault (readPlan 0x0A 1 (fresh []).params.dummy) (fresh (calm 20)) ∧
    NoFault (readPlan 0x0B 2 (fresh []).params.dummy) (fresh (calm 20)) ∧
    NoFault (readPlan 0x0C 3 (fresh []).params.dummy) (fresh (calm 20)) := by
  decide +kernel

theorem witness_WriteDataSendsOneFrame :
    NoFault [.drive .dc .high, .drive .cs .low, .busWrite [], .drive .cs .high] (fresh (calm 9)) ∧
    NoFault [.drive .dc .high, .drive .cs .low, .busWrite [0xF8, 0x00], .drive .cs .high] (fresh (calm 9)) := by
  decide +kernel

theorem witness_HwResetPulsesTheLine :
    NoFault [.drive .rst .low, .wait State.reset.cfg.tRstLow, .drive .rst .high, .wait State.reset.cfg.tRstHigh]
      State.reset := by
  decide +kernel

theorem witness_SwResetSendsAndWaits :
    NoFault (commandPlan 0x01 [] ++ [.wait (fresh []).cfg.tSwrst]) (fresh (calm 9)) := by decide +kernel

theorem reset_timelineOk (answers : List Answer) : TimelineOk (fresh answers) := by
  refine ⟨Time.ms_nonneg _, rfl, List.Pairwise.nil, ?_, ?_⟩
  · intro t h; cases h
  · intro i j d ti tj _ h; simp [fresh, State.reset] at h

/-- Both waits at their least legal values. -/
theorem witness_ResetTimingProperties :
    CfgLegal (fresh (calm 9)) ∧
    NoFault [.drive .rst .low, .wait (fresh []).cfg.tRstLow, .drive .rst .high, .wait (fresh []).cfg.tRstHigh]
      (fresh (calm 9)) ∧
    NoFault (commandPlan 0x01 [] ++ [.wait (fresh []).cfg.tSwrst]) (fresh (calm 9)) := by
  decide +kernel

theorem witness_HwResetMeetsThePulseRule :
    CfgLegal State.reset ∧ TimelineOk State.reset ∧
    NoFault [.drive .rst .low, .wait State.reset.cfg.tRstLow, .drive .rst .high, .wait State.reset.cfg.tRstHigh]
      State.reset :=
  ⟨by decide +kernel, reset_timelineOk [], by decide +kernel⟩

theorem witness_SwResetOutlastsTheSettleWindow :
    CfgLegal (fresh (calm 9)) ∧ TimelineOk (fresh (calm 9)) ∧
    NoFault (commandPlan 0x01 [] ++ [.wait (fresh []).cfg.tSwrst]) (fresh (calm 9)) :=
  ⟨by decide +kernel, reset_timelineOk _, by decide +kernel⟩

/-- The first descriptor of INIT and the last of a CLEAR. -/
theorem witness_MacroSubmitsItsNextDescriptor :
    let s := ((fresh []).withParams paramsP1).withJob (some ⟨.init true true, 0⟩)
    let t := (fresh []).withJob (some ⟨.clear ⟨0, 0, 64, 0⟩ 7, 4⟩)
    (s.resetInput = false ∧ s.seq = .idle ∧ s.host.job = some ⟨.init true true, 0⟩ ∧
      ((Macro.init true true).expansion s.params)[0]? = some .hwReset ∧ fitsLen Instr.hwReset.inlineBytes = true) ∧
    (t.resetInput = false ∧ t.seq = .idle ∧ t.host.job = some ⟨.clear ⟨0, 0, 64, 0⟩ 7, 4⟩ ∧
      ((Macro.clear ⟨0, 0, 64, 0⟩ 7).expansion t.params)[4]? = some (.command 0x00 []) ∧
      fitsLen (Instr.command 0x00 []).inlineBytes = true) := by
  decide +kernel

theorem witness_MacroStopsAtItsFirstFailure :
    let s := (fresh (calm 9)).withJob (some ⟨.clear ⟨0, 0, 64, 0⟩ 7, 2⟩)
    let t := (atStep 3 [broken]).withJob (some ⟨.clear ⟨0, 0, 64, 0⟩ 7, 2⟩)
    Instr.memoryWrite.wellFormed = true ∧ s.host.job = some ⟨.clear ⟨0, 0, 64, 0⟩ 7, 2⟩ ∧
      NoFault (planOf .memoryWrite s) s ∧ t.host.job = some ⟨.clear ⟨0, 0, 64, 0⟩ 7, 2⟩ ∧
      FirstFault (planOf .memoryWrite t) t 2 := by
  decide +kernel

/-- INIT and CLEAR, each one past its last descriptor. -/
theorem witness_MacroEndsWithCodeZero :
    let s := ((fresh []).withParams paramsP1).withJob (some ⟨.init true true, 7⟩)
    let t := (fresh []).withJob (some ⟨.clear ⟨0, 0, 64, 0⟩ 7, 5⟩)
    (s.resetInput = false ∧ s.seq = .idle ∧ s.host.job = some ⟨.init true true, 7⟩ ∧
      ((Macro.init true true).expansion s.params).length ≤ 7) ∧
    (t.resetInput = false ∧ t.seq = .idle ∧ t.host.job = some ⟨.clear ⟨0, 0, 64, 0⟩ 7, 5⟩ ∧
      ((Macro.clear ⟨0, 0, 64, 0⟩ 7).expansion t.params).length ≤ 5) := by
  decide +kernel

/-- P1, and a CLEAR without a frame. -/
theorem witness_MacroRunsToItsEnd :
    let s := ((fresh (calm 80)).withParams paramsP1).withJob (some ⟨.init true true, 0⟩)
    let t := (fresh (calm 80)).withJob (some ⟨.clear ⟨0, 0, 0, 0⟩ 7, 0⟩)
    (s.resetInput = false ∧ s.seq = .idle ∧ s.host.job = some ⟨.init true true, 0⟩ ∧
      (∀ i ∈ (Macro.init true true).expansion s.params, fitsLen i.inlineBytes = true) ∧
      ∀ j, j < (((Macro.init true true).expansion s.params).map fun i => planSteps (planOf i s) + 1).sum →
        (s.answerAt j).fault = false) ∧
    (t.resetInput = false ∧ t.seq = .idle ∧ t.host.job = some ⟨.clear ⟨0, 0, 0, 0⟩ 7, 0⟩ ∧
      (∀ i ∈ (Macro.clear ⟨0, 0, 0, 0⟩ 7).expansion t.params, fitsLen i.inlineBytes = true) ∧
      ∀ j, j < (((Macro.clear ⟨0, 0, 0, 0⟩ 7).expansion t.params).map fun i => planSteps (planOf i t) + 1).sum →
        (t.answerAt j).fault = false) := by
  decide +kernel

theorem witness_InitExpansionInOrder :
    paramsP1.initTable[0]? = some (0xAA, [0x01, 0x02]) ∧ paramsP1.initTable[2]? = some (0x29, []) ∧
    paramsP1.diagList[0]? = some (0x09, 4) := by
  decide +kernel

theorem witness_ClearExpansionCounts :
    (⟨7, 9, 7, 9⟩ : AddressWindow).valid = true ∧ (⟨0, 0, 65535, 65535⟩ : AddressWindow).valid = true := by
  decide +kernel

theorem witness_ClearRefusedWindow :
    let s := (fresh []).withProgram [.call (.clear ⟨5, 0, 4, 0⟩ 7)]
    s.resetInput = false ∧ s.seq = .idle ∧ s.host.job = none ∧
      s.host.program = .call (.clear ⟨5, 0, 4, 0⟩ 7) :: [] ∧ (4 : Half).toNat < (5 : Half).toNat ∧
      (8 : Half).toNat < (9 : Half).toNat := by
  decide +kernel

theorem witness_ClearStartsWithAValidWindow :
    let s := (fresh []).withProgram [.call (.clear ⟨9, 9, 9, 0xFFFF⟩ 7)]
    s.resetInput = false ∧ s.seq = .idle ∧ s.host.job = none ∧
      s.host.program = .call (.clear ⟨9, 9, 9, 0xFFFF⟩ 7) :: [] ∧ (9 : Half).toNat ≤ (9 : Half).toNat ∧
      (9 : Half).toNat ≤ (0xFFFF : Half).toNat := by
  decide +kernel

/-- A window of one frame, with every answer the run draws quiet. -/
theorem witness_ClearTraffic :
    let s := (fresh (calm 112)).withJob (some ⟨.clear ⟨0, 0, 64, 0⟩ 7, 0⟩)
    s.resetInput = false ∧ s.seq = .idle ∧ s.host.job = some ⟨.clear ⟨0, 0, 64, 0⟩ 7, 0⟩ ∧
      (⟨0, 0, 64, 0⟩ : AddressWindow).valid = true ∧
      ∀ j, j < 70 * (⟨0, 0, 64, 0⟩ : AddressWindow).frames + 42 → (s.answerAt j).fault = false := by
  decide +kernel

/-- WRITE without bytes; WRITE_DATA after its last byte; READ_REGISTER before its first and between two. -/
theorem witness_SerialFaultKeepsThePins :
    let data : List Prim := [.drive .dc .high, .drive .cs .low]
    let opcode : List Prim := [.drive .cs .low, .drive .dc .low, .busWrite [0xDA], .drive .dc .high]
    planOf (.write []) (atStep 1 [broken]) = [] ++ .busWrite [] :: [] ∧
    FirstFault (planOf (.write []) (atStep 1 [broken])) (atStep 1 [broken])
      ((faultSteps (atStep 1 [broken]).params.faultPoints []).length + 0) ∧
    planOf (.writeData [7, 8]) (atStep 5 [broken]) = data ++ .busWrite [7, 8] :: [.drive .cs .high] ∧
    FirstFault (planOf (.writeData [7, 8]) (atStep 5 [broken])) (atStep 5 [broken])
      ((faultSteps (atStep 5 [broken]).params.faultPoints data).length + 2) ∧
    planOf (.readRegister 0xDA 2) (fresh []) = opcode ++ .busTransfer [0, 0] :: [.drive .cs .high] ∧
    FirstFault (planOf (.readRegister 0xDA 2) (atStep 6 [broken])) (atStep 6 [broken])
      ((faultSteps (atStep 6 [broken]).params.faultPoints opcode).length + 0) ∧
    FirstFault (planOf (.readRegister 0xDA 2) (atStep 7 [broken])) (atStep 7 [broken])
      ((faultSteps (atStep 7 [broken]).params.faultPoints opcode).length + 1) := by
  decide +kernel

/-- Inside the premises, and outside each of them. -/
theorem witness_InitStartsInsideItsPremises :
    let s := ((fresh []).withParams paramsP1).withProgram [.call (.init true false)]
    s.resetInput = false ∧ s.seq = .idle ∧ s.host.job = none ∧ s.host.program = .call (.init true false) :: [] ∧
      initTableOk paramsP1.initTable = true ∧ diagListOk paramsP1.diagList = true ∧
      initTableOk [(0x29, []), (0x11, [])] = false ∧ diagListOk [(0x08, 4)] = false ∧
      diagListOk [(0x0D, 4)] = false := by
  decide +kernel

end Sys2Proof.Tests
end

section
/-! PROOFS. Each invariant of the block (R16, R20, R21, R71), through every operation of the sequencer. -/

namespace Sys2Proof.Machine
open Sys2Proof.Safety

/-! ## Configuration registers (R16) -/

/-- R137: a register write changes the registers, and for `CR0` also drives `BL` and records it. -/
theorem writeCfg_cases (reg : Fin 4) (v : Half) (s : State) :
    writeCfg reg v s = s.withCfg (s.cfg.set reg v) ∨
    ∃ l p, writeCfg reg v s = emit (.backlight l) ((s.withCfg (s.cfg.set reg v)).withPins p) := by
  unfold writeCfg
  split_ifs
  · exact .inr ⟨_, _, rfl⟩
  · exact .inl rfl

/-- R16: bit 0 alone is kept of a value written to `CR0`. -/
theorem legal_zero (v : Half) : legal 0 v = (v.extractLsb' 0 1).setWidth 16 := by
  apply BitVec.eq_of_toNat_eq
  simp [legal, Nat.and_one_is_mod, Nat.mod_eq_of_lt (show v.toNat % 2 < 65536 by omega)]

theorem legal_zero_le (v : Half) : (legal 0 v).toNat ≤ 1 := by
  have h : (legal 0 v).toNat = v.toNat % 2 := by simp [legal, Nat.and_one_is_mod]
  omega

/-- R16: a value is raised to a bound that fits 16 bits. -/
theorem raiseTo_toNat {bound : Nat} (hb : bound < 65536) (v : Half) : (raiseTo bound v).toNat = max v.toNat bound := by
  unfold raiseTo
  split_ifs with h
  · rw [BitVec.toNat_ofNat, Nat.mod_eq_of_lt hb, max_eq_right h.le]
  · rw [max_eq_left (Nat.le_of_not_lt h)]

theorem legal_one_toNat (v : Half) : (legal 1 v).toNat = max v.toNat 50 := raiseTo_toNat (by decide) v
theorem legal_two_toNat (v : Half) : (legal 2 v).toNat = max v.toNat 50 := raiseTo_toNat (by decide) v
theorem legal_three_toNat (v : Half) : (legal 3 v).toNat = max v.toNat 120 := raiseTo_toNat (by decide) v

@[simp] theorem Cfg.get_set_same (c : Cfg) (reg : Fin 4) (v : Half) : (c.set reg v).get reg = legal reg v := by
  fin_cases reg <;> rfl

theorem Cfg.get_set_other (c : Cfg) {reg r : Fin 4} (v : Half) (h : r ≠ reg) : (c.set reg v).get r = c.get r := by
  fin_cases reg <;> fin_cases r <;> simp_all [Cfg.set, Cfg.get]

/-- R16, R138: a register write leaves legal values, and `BL` at `CR0.BL`. -/
theorem cfgLegal_writeCfg (reg : Fin 4) (v : Half) {s : State} (h : CfgLegal s) : CfgLegal (writeCfg reg v s) := by
  obtain ⟨h0, h1, h2, h3, hbl⟩ := h
  unfold CfgLegal
  rw [writeCfg_cfg, writeCfg_pins]
  match reg with
  | 0 => exact ⟨legal_zero_le v, h1, h2, h3, rfl⟩
  | 1 => exact ⟨h0, (legal_one_toNat v).symm ▸ le_max_right _ _, h2, h3, hbl⟩
  | 2 => exact ⟨h0, h1, (legal_two_toNat v).symm ▸ le_max_right _ _, h3, hbl⟩
  | 3 => exact ⟨h0, h1, h2, (legal_three_toNat v).symm ▸ le_max_right _ _, hbl⟩

theorem seqKept_cfgLegal : SeqKept CfgLegal where
  seq _ _ h := h
  rx _ _ h := h
  receive _ _ h := h
  elapse _ h := h
  tick _ h := h
  sdo _ _ h := h
  drive line _ _ h := by cases line <;> exact h
  write _ _ _ h := h
  transfer _ _ _ h := h
  wait _ _ h := h
  cfgWrite reg v _ h := cfgLegal_writeCfg reg v h
  fault _ h := h

/-- R26: the reset values are legal. -/
theorem cfgLegal_reset : CfgLegal State.reset := by decide

theorem step_cfgLegal {s t : State} (h : CfgLegal s) (he : step s = .next t) : CfgLegal t :=
  seqKept_cfgLegal.step (fun _ _ h => h) (fun _ _ h => h) (fun _ _ => cfgLegal_reset) h he

/-! ## Pins and trace (R20) -/

theorem pinsFollowTrace_drivePin (line : ControlLine) (l : Level) {s : State} (h : PinsFollowTrace s) :
    PinsFollowTrace (drivePin line l s) := by
  obtain ⟨hcs, hdc, hrst, hbl⟩ := h
  unfold PinsFollowTrace
  cases line <;> simp [lineLevel_append, backlightLevel_append, lineLevel, backlightLevel, *]

theorem pinsFollowTrace_writeCfg (reg : Fin 4) (v : Half) {s : State} (h : PinsFollowTrace s) :
    PinsFollowTrace (writeCfg reg v s) := by
  obtain ⟨hcs, hdc, hrst, hbl⟩ := h
  unfold PinsFollowTrace
  by_cases hr : reg = 0 <;> simp [lineLevel_append, backlightLevel_append, lineLevel, backlightLevel, *]

/-- An event that names no pin leaves every pin at its latest event. -/
theorem pinsFollowTrace_emit {e : Event} (hd : ∀ line l, e ≠ .drive line l) (hb : ∀ l, e ≠ .backlight l) {s : State}
    (h : PinsFollowTrace s) : PinsFollowTrace (emit e s) := by
  obtain ⟨hcs, hdc, hrst, hbl⟩ := h
  unfold PinsFollowTrace
  cases e <;> simp_all [lineLevel_append, backlightLevel_append, lineLevel, backlightLevel]

theorem seqKept_pinsFollowTrace : SeqKept PinsFollowTrace where
  seq _ _ h := h
  rx _ _ h := h
  receive _ _ h := h
  elapse _ h := h
  tick _ h := h
  sdo _ _ h := h
  drive line l _ h := pinsFollowTrace_drivePin line l h
  write b a s h := pinsFollowTrace_emit (s := clockOut b a s) (by simp) (by simp) h
  transfer b a s h := pinsFollowTrace_emit (e := .xf b (captureSdi a.sdi)) (s := clockOut b a s) (by simp) (by simp) h
  wait d s h := pinsFollowTrace_emit (s := s.withNow (s.now.wait d)) (by simp) (by simp) h
  cfgWrite reg v _ h := pinsFollowTrace_writeCfg reg v h
  fault _ h := pinsFollowTrace_emit (by simp) (by simp) h

theorem step_pinsFollowTrace {s t : State} (h : PinsFollowTrace s) (he : step s = .next t) : PinsFollowTrace t :=
  seqKept_pinsFollowTrace.step (fun _ _ h => h) (fun _ _ h => h) (fun _ _ => ⟨rfl, rfl, rfl, rfl⟩) h he

/-! ## Times (R21, R43) -/

theorem timelineOk_of_empty {s : State} (ht : s.trace = []) (hs : s.stamps = []) : TimelineOk s := by
  refine ⟨s.now.ms_nonneg, ?_, ?_, ?_, ?_⟩ <;> simp [ht, hs]

/-- R21: time may pass. -/
theorem timelineOk_withNow {n : Time} {s : State} (hn : s.now.ms ≤ n.ms) (h : TimelineOk s) :
    TimelineOk (s.withNow n) := by
  obtain ⟨-, hlen, hord, hnow, hwait⟩ := h
  exact ⟨n.ms_nonneg, hlen, hord, fun t ht => ⟨t.ms_nonneg, (hnow t ht).2.trans hn⟩, hwait⟩

/-- R43: an event may be stamped with `now`, where a `WAIT(d)` finds every earlier stamp `d` ms before it. -/
theorem timelineOk_emit {e : Event} {s : State} (h : TimelineOk s)
    (he : ∀ d, e = .wait d → ∀ t ∈ s.stamps, t.ms + d.toNat ≤ s.now.ms) : TimelineOk (emit e s) := by
  obtain ⟨h0, hlen, hord, hnow, hwait⟩ := h
  refine ⟨h0, by simp [hlen], ?_, ?_, ?_⟩
  · rw [emit_stamps, List.pairwise_append]
    exact ⟨hord, List.pairwise_singleton _ _, by simpa using fun t ht => (hnow t ht).2⟩
  · intro t ht
    rw [emit_stamps, List.mem_append, List.mem_singleton] at ht
    rcases ht with ht | rfl
    · exact hnow t ht
    · exact ⟨h0, le_rfl⟩
  · intro i j d ti tj hij hd hi hj
    rw [emit_trace] at hd
    rw [emit_stamps] at hi hj
    have hjlen : j < s.trace.length + 1 := by simpa using (List.getElem?_eq_some_iff.mp hd).1
    have hi' : s.stamps[i]? = some ti := by rwa [List.getElem?_append_left (by omega)] at hi
    obtain hj' | rfl := Nat.lt_succ_iff_lt_or_eq.mp hjlen
    · rw [List.getElem?_append_left hj'] at hd
      rw [List.getElem?_append_left (by omega)] at hj
      exact hwait i j d ti tj hij hd hi' hj
    · have hed : e = .wait d := by simpa using hd
      have htj : s.now = tj := by simpa [← hlen] using hj
      exact htj ▸ he d hed ti (List.mem_of_getElem? hi')

/-- R21: no event is later than `now`. -/
theorem stamp_le_now {s : State} (h : TimelineOk s) {t : Time} (ht : t ∈ s.stamps) : t.ms ≤ s.now.ms := by
  obtain ⟨-, -, -, hnow, -⟩ := h
  exact (hnow t ht).2

theorem timelineOk_waitFor (d : Half) {s : State} (h : TimelineOk s) : TimelineOk (waitFor d s) := by
  refine timelineOk_emit (timelineOk_withNow (s.now.ms_le_wait d) h) fun d' hd t ht => ?_
  cases hd
  simpa using stamp_le_now h ht

/-- An event that is no wait keeps the timeline in order. -/
theorem timelineOk_emit_now {e : Event} (he : ∀ d, e ≠ .wait d) {s : State} (h : TimelineOk s) : TimelineOk (emit e s) :=
  timelineOk_emit h fun d hd => absurd hd (he d)

theorem seqKept_timelineOk : SeqKept TimelineOk where
  seq _ _ h := h
  rx _ _ h := h
  receive _ _ h := h
  elapse s h := timelineOk_withNow s.now.ms_le_later h
  tick s h := timelineOk_withNow (s := s) s.now.ms_le_later h
  sdo _ _ h := h
  drive line l s h := timelineOk_emit_now (s := s.withPins (s.pins.set line l)) (by simp) h
  write b a s h := timelineOk_emit_now (s := clockOut b a s) (by simp) h
  transfer b a s h := timelineOk_emit_now (e := .xf b (captureSdi a.sdi)) (s := clockOut b a s) (by simp) h
  wait d _ h := timelineOk_waitFor d h
  cfgWrite reg v s h := by
    obtain e | ⟨l, p, e⟩ := writeCfg_cases reg v s <;> rw [e]
    · exact h
    · exact timelineOk_emit_now (s := (s.withCfg (s.cfg.set reg v)).withPins p) (by simp) h
  fault _ h := timelineOk_emit_now (by simp) h

theorem step_timelineOk {s t : State} (h : TimelineOk s) (he : step s = .next t) : TimelineOk t :=
  seqKept_timelineOk.step (fun _ _ h => h) (fun _ _ h => h) (fun _ _ => timelineOk_of_empty rfl rfl) h he

/-! ## The clock (R71) -/

theorem seqKept_clockIdle : SeqKept ClockIdle where
  seq _ _ h := h
  rx _ _ h := h
  receive _ _ h := h
  elapse _ h := h
  tick _ h := h
  sdo _ _ h := h
  drive line _ _ h := by cases line <;> exact h
  write _ _ _ _ := rfl
  transfer _ _ _ _ := rfl
  wait _ _ h := h
  cfgWrite reg v s h := by
    unfold ClockIdle
    rw [writeCfg_pins]
    split_ifs <;> exact h
  fault _ h := h

theorem step_clockIdle {s t : State} (h : ClockIdle s) (he : step s = .next t) : ClockIdle t :=
  seqKept_clockIdle.step (fun _ _ h => h) (fun _ _ h => h) (fun _ _ => rfl) h he

end Sys2Proof.Machine
end

section
/-! PROOFS. The primitive list of each operation (R55, R70), and what stands in it. -/

namespace Sys2Proof.Machine
open Sys2Proof.Safety

/-- The operations whose completion hands over bytes (R18). -/
def returnsBytes (i : Instr) : Prop :=
  i.baseMnemonic = "TRANSFER" ∨ i.baseMnemonic = "READ_REGISTER" ∨ i.baseMnemonic = "CFG_READ"

/-- What a primitive in the list of an operation may do: R11's pins, R137's registers, R18's bytes, R51's byte counts. -/
def permits (i : Instr) : Prim → Prop
  | .drive line _ => drives i line = true
  | .busWrite bytes => clocksBytes i = true ∧ (i.wellFormed = true → bytes.length ≤ 65535)
  | .busTransfer bytes => clocksBytes i = true ∧ returnsBytes i ∧ (i.wellFormed = true → bytes.length ≤ 65535)
  | .wait _ => True
  | .cfgWrite reg v => i = .cfgWrite reg v
  | .cfgRead _ => returnsBytes i

/-- The meaning of `i` in `s` is its descriptor's latches and this primitive list, which for a well-formed instruction is
the one those latches expand to (R70), and which keeps to what the operation is for. -/
structure RunsPlan (i : Instr) (s : State) (plan : List Prim) : Prop where
  exec_eq : exec i s = operate (latchesOf (encode i)) plan s
  planOf_eq : i.wellFormed = true → planOf i s = plan
  length_le : plan.length ≤ 6
  permitted : ∀ p ∈ plan, permits i p

/-- R51: "one operation moves at most 65535 bytes". -/
theorem length_le_of_fitsLen {bytes : List Byte} (h : fitsLen bytes = true) : bytes.length ≤ 65535 :=
  Nat.le_of_lt_succ (by simpa [fitsLen] using h)

theorem latchesOf_header (opc arg : Byte) (len : Half) (bytes : List Byte) :
    latchesOf (header opc arg len ++ bytes) = ⟨opc, arg, len, bytes⟩ := by
  simp [header, be16, latchesOf]

theorem latchesOf_header_nil (opc arg : Byte) (len : Half) : latchesOf (header opc arg len) = ⟨opc, arg, len, []⟩ := by
  simp [header, be16, latchesOf]

/-- R70, R90: the latches of COMMAND expand to its list. -/
theorem expand_command {opcode : Byte} {payload : List Byte} (h : fitsLen payload = true) (c : Cfg) (dummy : Byte) :
    expand ⟨0x10, opcode, lenOf payload, payload⟩ c dummy = commandPlan opcode payload := by
  unfold commandPlan
  rw [← if_congr (lenOf_eq_zero h) rfl rfl]
  rfl

section
variable {i : Instr} {s : State}

/-- An operation that is COMMAND, under its own name or another of R58. -/
theorem runsPlan_command {opcode : Byte} {payload : List Byte} (hx : exec i s = operateCommand opcode payload s)
    (hl : latchesOf (encode i) = ⟨0x10, opcode, lenOf payload, payload⟩)
    (hfit : i.wellFormed = true → fitsLen payload = true) (hcs : drives i .cs = true) (hdc : drives i .dc = true)
    (hb : clocksBytes i = true) : RunsPlan i s (commandPlan opcode payload) where
  exec_eq := by rw [hl, hx]; rfl
  planOf_eq hw := by rw [planOf, hl, expand_command (hfit hw)]
  length_le := by unfold commandPlan; split_ifs <;> simp
  permitted := by
    have hlen := fun hw => length_le_of_fitsLen (hfit hw)
    unfold commandPlan
    split_ifs
    · simp [permits, hcs, hdc, hb]
    · simpa [permits, hcs, hdc, hb] using hlen

/-- An operation that is READ_REGISTER, under its own name or another of R58. -/
theorem runsPlan_read {opcode : Byte} {count : Half} (hx : exec i s = operateRead opcode count s)
    (hl : latchesOf (encode i) = ⟨0x11, opcode, count, []⟩) (hcs : drives i .cs = true) (hdc : drives i .dc = true)
    (hb : clocksBytes i = true) (hr : returnsBytes i) : RunsPlan i s (readPlan opcode count s.params.dummy) where
  exec_eq := by rw [hl, hx]; rfl
  planOf_eq _ := by rw [planOf, hl]; rfl
  length_le := by simp [readPlan]
  permitted := by
    have hc : count.toNat ≤ 65535 := Nat.le_of_lt_succ count.isLt
    simp [readPlan, permits, hcs, hdc, hb, hr, hc]

end

/-- Every operation runs a primitive list that keeps to what the operation is for (R70). -/
theorem exists_runsPlan (i : Instr) (s : State) : ∃ plan, RunsPlan i s plan := by
  cases i with
  | csAssert => exact ⟨_, rfl, fun _ => rfl, by simp, by simp [permits, drives]⟩
  | csDeassert => exact ⟨_, rfl, fun _ => rfl, by simp, by simp [permits, drives]⟩
  | selectCommand => exact ⟨_, rfl, fun _ => rfl, by simp, by simp [permits, drives]⟩
  | selectData => exact ⟨_, rfl, fun _ => rfl, by simp, by simp [permits, drives]⟩
  | hwReset => exact ⟨_, rfl, fun _ => rfl, by simp, by simp [permits, drives]⟩
  | swReset =>
    exact ⟨_, rfl, fun _ => rfl, by simp [commandPlan], by simp [permits, drives, commandPlan, clocksBytes]⟩
  | write bytes =>
    have hl := latchesOf_header 0x05 0 (lenOf bytes) bytes
    exact ⟨[.busWrite bytes], by rw [encode, hl]; rfl, fun _ => by rw [planOf, encode, hl]; rfl, by simp,
      by simpa [permits, clocksBytes, Instr.wellFormed] using length_le_of_fitsLen⟩
  | transfer bytes =>
    have hl := latchesOf_header 0x06 0 (lenOf bytes) bytes
    exact ⟨[.busTransfer bytes], by rw [encode, hl]; rfl, fun _ => by rw [planOf, encode, hl]; rfl, by simp,
      by simpa [permits, clocksBytes, Instr.wellFormed, returnsBytes, Instr.baseMnemonic] using length_le_of_fitsLen⟩
  | writeData bytes =>
    have hl := latchesOf_header 0x12 0 (lenOf bytes) bytes
    exact ⟨[.drive .dc .high, .drive .cs .low, .busWrite bytes, .drive .cs .high], by rw [encode, hl]; rfl,
      fun _ => by rw [planOf, encode, hl]; rfl, by simp,
      by simpa [permits, drives, clocksBytes, Instr.wellFormed] using length_le_of_fitsLen⟩
  | cfgWrite reg v =>
    have hl := latchesOf_header_nil 0x50 (BitVec.ofNat 8 reg) v
    exact ⟨[.cfgWrite reg v], by rw [encode, hl]; rfl, fun _ => by rw [planOf, encode, hl]; fin_cases reg <;> rfl,
      by simp, by simp [permits]⟩
  | cfgRead reg =>
    exact ⟨[.cfgRead reg], rfl, fun _ => by fin_cases reg <;> rfl, by simp,
      by simp [permits, returnsBytes, Instr.baseMnemonic]⟩
  | command opcode payload =>
    exact ⟨_, runsPlan_command rfl (latchesOf_header _ _ _ _) (by simp +contextual [Instr.wellFormed]) rfl rfl rfl⟩
  | readRegister opcode count =>
    exact ⟨_, runsPlan_read rfl (latchesOf_header_nil _ _ _) rfl rfl rfl (.inr (.inl rfl))⟩
  | noop => exact ⟨_, runsPlan_command rfl rfl (fun _ => rfl) rfl rfl rfl⟩
  | sleepOut => exact ⟨_, runsPlan_command rfl rfl (fun _ => rfl) rfl rfl rfl⟩
  | displayOn => exact ⟨_, runsPlan_command rfl rfl (fun _ => rfl) rfl rfl rfl⟩
  | memoryWrite => exact ⟨_, runsPlan_command rfl rfl (fun _ => rfl) rfl rfl rfl⟩
  | columnAddressSet a b =>
    exact ⟨_, runsPlan_command (payload := encodeXY a b) rfl (latchesOf_header 0x10 0x2A 4 (encodeXY a b))
      (fun _ => rfl) rfl rfl rfl⟩
  | pageAddressSet a b =>
    exact ⟨_, runsPlan_command (payload := encodeXY a b) rfl (latchesOf_header 0x10 0x2B 4 (encodeXY a b))
      (fun _ => rfl) rfl rfl rfl⟩
  | readStatus count =>
    exact ⟨_, runsPlan_read rfl (latchesOf_header_nil _ _ _) rfl rfl rfl (.inr (.inl rfl))⟩
  | readPowerMode count =>
    exact ⟨_, runsPlan_read rfl (latchesOf_header_nil _ _ _) rfl rfl rfl (.inr (.inl rfl))⟩
  | readMadctl count =>
    exact ⟨_, runsPlan_read rfl (latchesOf_header_nil _ _ _) rfl rfl rfl (.inr (.inl rfl))⟩
  | readPixelFormat count =>
    exact ⟨_, runsPlan_read rfl (latchesOf_header_nil _ _ _) rfl rfl rfl (.inr (.inl rfl))⟩


end Sys2Proof.Machine
end

section
/-! PROOFS. The bounds of the sequencer position (R19), and how an operation ends (R70, R144). -/

namespace Sys2Proof.Machine
open Sys2Proof.Safety

theorem RunsPlan.byteCount_le {i : Instr} {s : State} {plan : List Prim} (r : RunsPlan i s plan)
    (hw : i.wellFormed = true) {p : Prim} (hp : p ∈ plan) : byteCount p ≤ 65535 := by
  have h := r.permitted p hp
  cases p with
  | busWrite bytes => exact h.2 hw
  | busTransfer bytes => exact h.2.2 hw
  | drive _ _ | wait _ | cfgWrite _ _ | cfgRead _ => exact Nat.zero_le _

theorem seqBounded_of_idle {s : State} (h : s.seq = .idle) : SeqBounded s := by
  unfold SeqBounded; rw [h]; trivial

theorem seqBounded_running {s : State} {plist : List Prim} {upc bidx : Nat} (h : s.seq = .running plist upc bidx) :
    SeqBounded s ↔ plist.length ≤ 6 ∧ (∀ p ∈ plist, byteCount p ≤ 65535) ∧ upc ≤ plist.length ∧
      bidx ≤ (plist[upc]?.map byteCount).getD 0 := by
  unfold SeqBounded; rw [h]

theorem planOf_seqBounded {i : Instr} (hw : i.wellFormed = true) (s : State) :
    SeqBounded (accept (latchesOf (encode i)) (planOf i s) s) := by
  obtain ⟨plan, r⟩ := exists_runsPlan i s
  rw [r.planOf_eq hw, seqBounded_running rfl]
  exact ⟨r.length_le, fun p hp => r.byteCount_le hw hp, Nat.zero_le _, Nat.zero_le _⟩

/-- Only a byte that the primitive has can move. -/
theorem primStep_again {p : Prim} {bidx : Nat} {a : Answer} {s t : State} (h : primStep p bidx a s = .again t) :
    bidx + 1 ≤ byteCount p := by
  have serial : ∀ {move : Byte → Answer → State → State} {bytes : List Byte},
      serialStep move bytes[bidx]? a s = .again t → bidx + 1 ≤ bytes.length := by
    intro move bytes h
    cases hb : bytes[bidx]? with
    | none => simp only [hb, serialStep] at h; split at h <;> cases h
    | some b => exact (List.getElem?_eq_some_iff.mp hb).1
  cases p with
  | busWrite bytes => exact serial h
  | busTransfer bytes => exact serial h
  | drive _ _ | wait _ => simp only [primStep] at h; split at h <;> cases h
  | cfgWrite _ _ | cfgRead _ => cases h

/-- A fault ends the operation. -/
theorem primStep_fault {p : Prim} {bidx : Nat} {a : Answer} {s t : State} (h : primStep p bidx a s = .fault t) :
    ∃ u, t = transportFault u := by
  have serial : ∀ {move : Byte → Answer → State → State} {next : Option Byte},
      serialStep move next a s = .fault t → ∃ u, t = transportFault u := by
    intro move next h
    cases next <;> simp only [serialStep] at h <;> split at h <;> cases h <;> exact ⟨_, rfl⟩
  cases p with
  | busWrite bytes => exact serial h
  | busTransfer bytes => exact serial h
  | drive _ _ | wait _ => simp only [primStep] at h; split at h <;> cases h; exact ⟨_, rfl⟩
  | cfgWrite _ _ | cfgRead _ => cases h

/-- Where a sequencer step can leave the position (R19, R70): the operation has ended, a byte that the primitive has has
moved, or the primitive is finished. -/
theorem seqStep_position {s : State} {plist : List Prim} {upc bidx : Nat} (hs : s.seq = .running plist upc bidx) :
    (seqStep s).seq = .idle ∨
    (∃ p, plist[upc]? = some p ∧ bidx + 1 ≤ byteCount p ∧ (seqStep s).seq = .running plist upc (bidx + 1)) ∨
    (upc < plist.length ∧ (seqStep s).seq = .running plist (upc + 1) 0) := by
  cases hp : plist[upc]? with
  | none => left; simp [seqStep, hs, hp]
  | some p =>
    cases hstep : primStep p bidx s.answer s.tick with
    | again t => exact .inr (.inl ⟨p, rfl, primStep_again hstep, by simp [seqStep, hs, hp, hstep]⟩)
    | done t => exact .inr (.inr ⟨(List.getElem?_eq_some_iff.mp hp).1, by simp [seqStep, hs, hp, hstep]⟩)
    | fault t =>
      obtain ⟨u, rfl⟩ := primStep_fault hstep
      left; simp [seqStep, hs, hp, hstep]

theorem seqStep_seqBounded {s : State} (h : SeqBounded s) : SeqBounded (seqStep s) := by
  cases hs : s.seq with
  | idle => simpa [seqStep, hs] using h
  | running plist upc bidx =>
    obtain ⟨hlen, hbytes, hupc, -⟩ := (seqBounded_running hs).mp h
    obtain hidle | ⟨p, hp, hbidx, hseq⟩ | ⟨hlt, hseq⟩ := seqStep_position hs
    · exact seqBounded_of_idle hidle
    · exact (seqBounded_running hseq).mpr ⟨hlen, hbytes, hupc, by simpa [hp] using hbidx⟩
    · exact (seqBounded_running hseq).mpr ⟨hlen, hbytes, hlt, Nat.zero_le _⟩

/-! ## How an operation ends -/

/-- The host is handed nothing before the end. -/
theorem planEffect_host (plan : List Prim) (s : State) : (planEffect plan s).host = s.host := by
  induction plan generalizing s with
  | nil => rfl
  | cons p ps ih => exact (ih _).trans (grew_effect p s).host

theorem stoppedAt_ended (k n : Nat) (u : State) :
    (stoppedAt k n u).seq = .idle ∧ (stoppedAt k n u).host = u.host.receive ⟨.transportFault, []⟩ := by
  unfold stoppedAt; split_ifs <;> simp

/-- R144: a primitive stopped by a fault ends the operation with code 1 and no bytes. -/
theorem stopped_ended {fp : FaultPoints} {p : Prim} (hp : isFaultPoint fp p = true) (k : Nat) (s : State) :
    (p.stopped k s).seq = .idle ∧ (p.stopped k s).host = s.host.receive ⟨.transportFault, []⟩ := by
  cases p with
  | drive _ _ | wait _ => exact ⟨rfl, rfl⟩
  | busWrite bytes =>
    have h := stoppedAt_ended k bytes.length ((bytes.take k).foldl (fun t b => writeByte b t.answer t.tick) s)
    rwa [(grew_foldl_writeByte _ s).host] at h
  | busTransfer bytes =>
    have h := stoppedAt_ended k bytes.length ((bytes.take k).foldl (fun t b => transferByte b t.answer t.tick) s)
    rwa [(grew_foldl_transferByte _ s).host] at h
  | cfgWrite _ _ | cfgRead _ => simp [isFaultPoint] at hp

/-- R137, R74: the primitives that put bytes into `RX`. -/
def fillsRx : Prim → Prop
  | .busTransfer _ | .cfgRead _ => True
  | .drive _ _ | .busWrite _ | .wait _ | .cfgWrite _ _ => False

theorem effect_rx {p : Prim} (h : ¬ fillsRx p) (s : State) : (p.effect s).rx = s.rx := by
  cases p with
  | busTransfer _ | cfgRead _ => exact absurd trivial h
  | drive _ _ | wait _ | cfgWrite _ _ => simp [Prim.effect]
  | busWrite bytes => exact moved_writeByte_rx bytes s

theorem planEffect_rx {plan : List Prim} (h : ∀ p ∈ plan, ¬ fillsRx p) (s : State) :
    (planEffect plan s).rx = s.rx := by
  induction plan generalizing s with
  | nil => rfl
  | cons p ps ih =>
    rw [List.forall_mem_cons] at h
    exact (ih h.2 _).trans (effect_rx h.1 s)

/-- R70, R140: without a fault an operation ends with code 0 and what its list has put into `RX`. -/
theorem operate_ends_ok {plan : List Prim} {s : State} (l : Latches) (h : NoFault plan s) :
    ∃ t, operate l plan s = .next t ∧ t.seq = .idle ∧
      t.host = s.host.receive ⟨.ok, (planEffect plan (started l s)).rx⟩ := by
  refine ⟨_, operate_noFault l plan s h, rfl, ?_⟩
  rw [complete_host, State.tick_host, planEffect_host, started_host]

/-- R144, R140: with a fault it ends with code 1 and no bytes. -/
theorem operate_ends_fault {plan : List Prim} {s : State} {k : Nat} (l : Latches) (h : FirstFault plan s k) :
    ∃ t, operate l plan s = .next t ∧ t.seq = .idle ∧ t.host = s.host.receive ⟨.transportFault, []⟩ := by
  obtain ⟨pre, p, post, j, -, -, -, hp, he⟩ := operate_firstFault l plan s k h
  obtain ⟨hseq, hhost⟩ := stopped_ended hp j (planEffect pre (started l s))
  exact ⟨_, he, hseq, by rw [hhost, planEffect_host, started_host]⟩

/-- R88: an instruction runs to its end, after which the sequencer is idle. -/
theorem exec_idle {i : Instr} {s t : State} (he : exec i s = .next t) : t.seq = .idle := by
  obtain ⟨l, plan, e⟩ := exec_operates i s
  have ends : ∃ u, operate l plan s = .next u ∧ u.seq = .idle := by
    obtain h | ⟨k, h⟩ := noFault_or_firstFault plan s
    · obtain ⟨u, hu, hidle, -⟩ := operate_ends_ok l h
      exact ⟨u, hu, hidle⟩
    · obtain ⟨u, hu, hidle, -⟩ := operate_ends_fault l h
      exact ⟨u, hu, hidle⟩
  obtain ⟨u, hu, hidle⟩ := ends
  rw [e, hu] at he
  cases he
  exact hidle

theorem step_seqBounded {s t : State} (h : SeqBounded s) (he : step s = .next t) : SeqBounded t := by
  rcases step_cases he with ⟨-, rfl⟩ | ⟨-, -, rfl⟩ | ⟨-, hidle, h', rfl, -⟩ | ⟨-, -, i, h', hx, -⟩
  · exact seqBounded_of_idle rfl
  · exact seqStep_seqBounded h
  · exact seqBounded_of_idle hidle
  · exact seqBounded_of_idle (exec_idle hx)

/-- R70: a well-formed instruction runs the expansion of its descriptor's latches. -/
theorem exec_eq_operate_planOf {i : Instr} (hw : i.wellFormed = true) (s : State) :
    exec i s = operate (latchesOf (encode i)) (planOf i s) s := by
  obtain ⟨plan, r⟩ := exists_runsPlan i s
  rw [r.planOf_eq hw, r.exec_eq]

/-- R18: only the reads have bytes to hand over. -/
theorem returnsBytes_of_rx {i : Instr} (hw : i.wellFormed = true) {s : State} (l : Latches)
    (h : (planEffect (planOf i s) (started l s)).rx ≠ []) : returnsBytes i := by
  obtain ⟨plan, r⟩ := exists_runsPlan i s
  rw [r.planOf_eq hw] at h
  by_contra hn
  refine h (planEffect_rx (fun p hp hf => hn ?_) _)
  have hperm := r.permitted p hp
  cases p with
  | busTransfer bytes => exact hperm.2.1
  | cfgRead reg => exact hperm
  | drive _ _ | busWrite _ | wait _ | cfgWrite _ _ => cases hf

end Sys2Proof.Machine
end

section
/-! PROOFS. What a step only appends to (R20, R41), and what an operation leaves as it was (R11, R138). -/

namespace Sys2Proof.Machine
open Sys2Proof.Safety

/-- `u` comes after `s` with nothing taken back. -/
structure OnlyAppends (s u : State) : Prop where
  trace : s.trace <+: u.trace
  stamps : s.stamps <+: u.stamps
  records : GrewRecords s.host u.host
  params : u.params = s.params
  draws : s.draws ≤ u.draws

theorem OnlyAppends.withHost {s u : State} (a : OnlyAppends s u) {h : HostAgent} (g : GrewRecords s.host h) :
    OnlyAppends s (u.withHost h) := { a with records := g }

theorem OnlyAppends.refl (s : State) : OnlyAppends s s :=
  ⟨List.prefix_rfl, List.prefix_rfl, ⟨List.prefix_rfl, List.prefix_rfl⟩, rfl, le_rfl⟩

theorem OnlyAppends.emit {s u : State} (a : OnlyAppends s u) (e : Event) : OnlyAppends s (Machine.emit e u) :=
  { a with trace := a.trace.trans ⟨[e], rfl⟩, stamps := a.stamps.trans ⟨[u.now], rfl⟩ }

theorem seqKept_onlyAppends (s : State) : SeqKept (OnlyAppends s) where
  seq _ _ a := { a with }
  rx _ _ a := { a with }
  receive _ c a := a.withHost (a.records.receive c)
  elapse _ a := { a with }
  tick _ a := { a with draws := a.draws.trans (Nat.le_succ _) }
  sdo _ _ a := { a with }
  drive line l u a := OnlyAppends.emit (u := u.withPins (u.pins.set line l)) { a with } _
  write b x u a := OnlyAppends.emit (u := clockOut b x u) { a with } _
  transfer b x u a := { OnlyAppends.emit (u := clockOut b x u) { a with } (.xf b (captureSdi x.sdi)) with }
  wait d u a := OnlyAppends.emit (u := u.withNow (u.now.wait d)) { a with } _
  cfgWrite reg v u a := by
    obtain e | ⟨l, p, e⟩ := writeCfg_cases reg v u <;> rw [e]
    · exact { a with }
    · exact OnlyAppends.emit (u := (u.withCfg (u.cfg.set reg v)).withPins p) { a with } _
  fault _ a := a.emit _

theorem step_onlyAppends {s t : State} (hr : s.resetInput = false) (he : step s = .next t) : OnlyAppends s t := by
  have k := seqKept_onlyAppends s
  rcases step_cases he with ⟨hreset, -⟩ | ⟨-, -, rfl⟩ | ⟨-, -, h', rfl, g⟩ | ⟨-, -, i, h', hx, g⟩
  · rw [hr] at hreset; cases hreset
  · exact k.seqStep (.refl s)
  · exact (k.elapse _ (.refl s)).withHost g
  · exact k.exec (fun _ _ a => { a with }) ((k.elapse _ (.refl s)).withHost g.grew) hx

/-! ## What an operation leaves as it was (R11, R138) -/

/-- From `s` to `t` the pins and registers that no primitive of the list names are as they were. -/
structure Framed (plan : List Prim) (s t : State) : Prop where
  line : ∀ line, (∀ lv, .drive line lv ∉ plan) → level t.pins line = level s.pins line
  cfg : (∀ reg v, .cfgWrite reg v ∉ plan) → t.cfg = s.cfg ∧ t.pins.bl = s.pins.bl
  serial : (∀ bytes, .busWrite bytes ∉ plan ∧ .busTransfer bytes ∉ plan) →
    t.pins.sck = s.pins.sck ∧ t.pins.sdo = s.pins.sdo

theorem Framed.of_eq {plan : List Prim} {s t : State} (hpins : t.pins = s.pins) (hcfg : t.cfg = s.cfg) :
    Framed plan s t := by
  refine ⟨?_, ?_, ?_⟩ <;> simp [hpins, hcfg]

theorem Framed.trans {plan : List Prim} {s t u : State} (h : Framed plan s t) (g : Framed plan t u) : Framed plan s u where
  line line hl := (g.line line hl).trans (h.line line hl)
  cfg hc := ⟨(g.cfg hc).1.trans (h.cfg hc).1, (g.cfg hc).2.trans (h.cfg hc).2⟩
  serial hb := ⟨(g.serial hb).1.trans (h.serial hb).1, (g.serial hb).2.trans (h.serial hb).2⟩

theorem Framed.mono {plan plan' : List Prim} {s t : State} (h : Framed plan s t) (hsub : plan ⊆ plan') : Framed plan' s t where
  line line hl := h.line line fun lv hm => hl lv (hsub hm)
  cfg hc := h.cfg fun reg v hm => hc reg v (hsub hm)
  serial hb := h.serial fun bytes => ⟨fun hm => (hb bytes).1 (hsub hm), fun hm => (hb bytes).2 (hsub hm)⟩

/-- A serial primitive, after some or all of its bytes, moves the clock and `SDO` alone. -/
theorem framed_serial {plan : List Prim} (hp : ∃ bytes, .busWrite bytes ∈ plan ∨ .busTransfer bytes ∈ plan) {s t : State}
    (hcfg : t.cfg = s.cfg) (hpins : ∃ sck sdo, t.pins = { s.pins with sck := sck, sdo := sdo }) : Framed plan s t := by
  obtain ⟨sck, sdo, hpins⟩ := hpins
  refine ⟨fun line _ => by cases line <;> simp [level, hpins], fun _ => ⟨hcfg, by rw [hpins]⟩, fun hb => ?_⟩
  obtain ⟨bytes, h | h⟩ := hp
  · exact absurd h (hb bytes).1
  · exact absurd h (hb bytes).2

theorem pinsAfterBytes_serial (bytes : List Byte) (s : State) :
    ∃ sck sdo, pinsAfterBytes bytes s = { s.pins with sck := sck, sdo := sdo } := by
  unfold pinsAfterBytes
  split_ifs
  · exact ⟨s.pins.sck, s.pins.sdo, rfl⟩
  · exact ⟨_, _, rfl⟩

theorem framed_effect (p : Prim) (s : State) : Framed [p] s (p.effect s) := by
  cases p with
  | busWrite bytes =>
    exact framed_serial ⟨bytes, by simp⟩ (moved_writeByte_cfg bytes s)
      (moved_writeByte_pins bytes s ▸ pinsAfterBytes_serial bytes s)
  | busTransfer bytes =>
    exact framed_serial ⟨bytes, by simp⟩ (moved_transferByte_cfg bytes s)
      (moved_transferByte_pins bytes s ▸ pinsAfterBytes_serial bytes s)
  | drive line l =>
    simp only [Prim.effect]
    refine ⟨fun line' h => ?_, fun _ => ⟨by simp, ?_⟩, fun _ => ?_⟩
    · have hne : line' ≠ line := by simpa using h l
      cases line <;> cases line' <;> simp_all [level]
    · cases line <;> simp
    · cases line <;> simp
  | wait _ | cfgRead _ => exact .of_eq (by simp [Prim.effect]) (by simp [Prim.effect])
  | cfgWrite reg v =>
    simp only [Prim.effect]
    refine ⟨fun line _ => ?_, fun h => absurd (List.mem_singleton_self _) (h reg v), fun _ => ?_⟩
    · rw [writeCfg_pins]; cases line <;> split_ifs <;> simp [level]
    · rw [writeCfg_pins]; split_ifs <;> simp

theorem framed_planEffect (plan : List Prim) (s : State) : Framed plan s (planEffect plan s) := by
  induction plan generalizing s with
  | nil => exact .of_eq rfl rfl
  | cons p ps ih =>
    exact ((framed_effect p s).mono (by simp)).trans ((ih _).mono (List.subset_cons_self p ps))

theorem stoppedAt_cfg (k n : Nat) (u : State) : (stoppedAt k n u).cfg = u.cfg := by
  unfold stoppedAt; split_ifs <;> simp

/-- R144: a fault leaves every pin but `SDO` as the bytes before it left them. -/
theorem framed_stopped (p : Prim) (k : Nat) (s : State) : Framed [p] s (p.stopped k s) := by
  have serial : ∀ {n : Nat} {bytes : List Byte} {u : State}, u.pins = pinsAfterBytes bytes s →
      ∃ sck sdo, (stoppedAt k n u).pins = { s.pins with sck := sck, sdo := sdo } := by
    intro n bytes u hu
    obtain ⟨sck, sdo, hpins⟩ := pinsAfterBytes_serial bytes s
    rw [stoppedAt_pins, hu, hpins]
    split_ifs
    · exact ⟨_, _, rfl⟩
    · exact ⟨_, _, rfl⟩
  cases p with
  | busWrite bytes =>
    obtain ⟨hcfg, -, hpins⟩ := foldl_writeByte_rest (bytes.take k) s
    exact framed_serial ⟨bytes, by simp⟩ ((stoppedAt_cfg _ _ _).trans hcfg) (serial hpins)
  | busTransfer bytes =>
    obtain ⟨hcfg, -, hpins⟩ := foldl_transferByte_rest (bytes.take k) s
    exact framed_serial ⟨bytes, by simp⟩ ((stoppedAt_cfg _ _ _).trans hcfg) (serial hpins)
  | drive _ _ | wait _ | cfgWrite _ _ | cfgRead _ => exact .of_eq (by simp [Prim.stopped]) (by simp [Prim.stopped])

/-- R11, R144: an operation moves only the pins and registers that its list names, whatever its outcome. -/
theorem framed_operate {l : Latches} {plan : List Prim} {s t : State} (he : operate l plan s = .next t) :
    Framed plan s t := by
  have start : Framed plan s (started l s) := .of_eq (started_pins l s) (started_cfg l s)
  obtain h | ⟨k, h⟩ := noFault_or_firstFault plan s
  · rw [operate_noFault l plan s h] at he
    cases he
    exact (start.trans (framed_planEffect plan _)).trans (.of_eq (by simp) (by simp))
  · obtain ⟨pre, p, post, j, rfl, -, -, -, hx⟩ := operate_firstFault l plan s k h
    rw [hx] at he
    cases he
    exact (start.trans ((framed_planEffect pre _).mono (by simp))).trans ((framed_stopped p j _).mono (by simp))

/-- What no operation changes: the parameters, the platform's reset input, the host's program. -/
structure SameSetting (s t : State) : Prop where
  params : t.params = s.params
  resetInput : t.resetInput = s.resetInput
  program : t.host.program = s.host.program

theorem seqKept_sameSetting (s : State) : SeqKept (SameSetting s) where
  seq _ _ h := { h with }
  rx _ _ h := { h with }
  receive _ _ h := { h with }
  elapse _ h := { h with }
  tick _ h := { h with }
  sdo _ _ h := { h with }
  drive _ _ _ h := { h with }
  write _ _ _ h := { h with }
  transfer _ _ _ h := { h with }
  wait _ _ h := { h with }
  cfgWrite reg v u h := by
    obtain e | ⟨l, p, e⟩ := writeCfg_cases reg v u <;> rw [e] <;> exact { h with }
  fault _ h := { h with }

theorem exec_sameSetting {i : Instr} {s t : State} (he : exec i s = .next t) : SameSetting s t :=
  (seqKept_sameSetting s).exec (fun _ _ h => { h with }) ⟨rfl, rfl, rfl⟩ he

end Sys2Proof.Machine
end

section
/-! PROOFS. The statements of spec/10_state.md. -/

namespace Sys2Proof.Proofs
open Sys2Proof.Machine Sys2Proof.Safety

/-- Settles O13: the reset record, read register by register. -/
theorem configurationResetValues : Obligations.ConfigurationResetValues := ⟨rfl, rfl, rfl, rfl⟩

/-- Settles O14: the reset record, with no time passed. -/
theorem resetStateOfTheBlock : Obligations.ResetStateOfTheBlock :=
  ⟨rfl, rfl, rfl, rfl, rfl, rfl, rfl, rfl, rfl, rfl, by simp [State.reset]⟩

/-- Settles O15: the registers are legal and the trace is empty. -/
theorem resetMeetsInvariant : Obligations.ResetMeetsInvariant :=
  ⟨cfgLegal_reset, ⟨rfl, rfl, rfl, rfl⟩, rfl, timelineOk_of_empty rfl rfl, seqBounded_of_idle rfl⟩

/-- Settles O16: a register write alone changes registers, and it stores what `legal` makes of the value. -/
theorem configurationStaysLegal : Obligations.ConfigurationStaysLegal :=
  ⟨fun v => ⟨legal_zero v, legal_one_toNat v, legal_two_toNat v, legal_three_toNat v⟩,
    fun s reg v => ⟨s.cfg.get_set_same reg v, fun _ hr => s.cfg.get_set_other v hr⟩,
    cfgLegal_reset, fun _ _ => step_cfgLegal⟩

/-- Settles O17: each update of a named pin comes with its event. -/
theorem stepKeepsPinsOnTrace : Obligations.StepKeepsPinsOnTrace := fun _ _ => step_pinsFollowTrace

/-- Settles O18: an event is stamped with `now`, which a wait has first moved past every stamp by its bound. -/
theorem stepKeepsTimeline : Obligations.StepKeepsTimeline := fun _ _ => step_timelineOk

/-- Settles O19: the lists of the operations fit, and the position moves only inside its list. -/
theorem stepKeepsSequencerBounded : Obligations.StepKeepsSequencerBounded :=
  ⟨fun _ s hw => ⟨planOf_seqBounded hw s, rfl⟩,
    fun _ _ hseq hclock he => ⟨step_seqBounded hseq he, step_clockIdle hclock he⟩⟩

/-- Settles O20: each invariant is kept by itself. -/
theorem stepKeepsInvariant : Obligations.StepKeepsInvariant := by
  rintro s t ⟨hcfg, hpins, hclock, htime, hseq⟩ he
  exact ⟨step_cfgLegal hcfg he, step_pinsFollowTrace hpins he, step_clockIdle hclock he, step_timelineOk htime he,
    step_seqBounded hseq he⟩

/-- Settles O21: every operation of the sequencer and every move of the host only appends. -/
theorem stepOnlyAppends : Obligations.StepOnlyAppends := by
  intro s t hr he
  obtain ⟨htrace, hstamps, hrecords, hparams, hdraws⟩ := step_onlyAppends hr he
  exact ⟨htrace, hstamps, hrecords.completions, hrecords.macroEnds, hparams, hdraws⟩

/-- Settles O22, by whether the oracle reports a fault. -/
theorem everyOperationEndsOnce : Obligations.EveryOperationEndsOnce := by
  intro i s hw
  rw [exec_eq_operate_planOf hw s]
  obtain hok | ⟨k, hk⟩ := noFault_or_firstFault (planOf i s) s
  · obtain ⟨t, he, hidle, hhost⟩ := operate_ends_ok (latchesOf (encode i)) hok
    exact ⟨t, _, he, hidle, hhost, .inl ⟨rfl, hok⟩, returnsBytes_of_rx hw _⟩
  · obtain ⟨t, he, hidle, hhost⟩ := operate_ends_fault (latchesOf (encode i)) hk
    exact ⟨t, _, he, hidle, hhost, .inr ⟨rfl, rfl, k, hk⟩, fun h => absurd rfl h⟩

/-- Settles O23, by the record the host receives. -/
theorem faultObservation : Obligations.FaultObservation := by
  intro i s hw
  rw [exec_eq_operate_planOf hw s]
  constructor
  · intro hok
    obtain ⟨t, he, -, hhost⟩ := operate_ends_ok (latchesOf (encode i)) hok
    exact ⟨t, he, by simp [hhost, HostAgent.faulted]⟩
  · intro k hk
    obtain ⟨t, he, -, hhost⟩ := operate_ends_fault (latchesOf (encode i)) hk
    exact ⟨t, he, by simp [hhost, HostAgent.faulted]⟩

/-- Settles O28: the operation's list names only what the operation is for. -/
theorem onlyTheNamedOperationsDrive : Obligations.OnlyTheNamedOperationsDrive := by
  intro i s t he
  obtain ⟨hparams, hreset, hprogram⟩ := exec_sameSetting he
  obtain ⟨plan, r⟩ := exists_runsPlan i s
  rw [r.exec_eq] at he
  obtain ⟨hline, hcfg, hserial⟩ := framed_operate he
  refine ⟨fun line hd => hline line fun lv hm => ?_, fun hi => hcfg fun reg v hm => hi reg v (r.permitted _ hm),
    fun hb => hserial fun bytes => ?_, hparams, hreset, hprogram⟩
  · have hdrives : drives i line = true := r.permitted _ hm
    exact absurd hdrives (by simp [hd])
  · have hquiet : ¬ clocksBytes i = true := by simp [hb]
    exact ⟨fun hm => hquiet (r.permitted _ hm).1, fun hm => hquiet (r.permitted _ hm).1⟩

end Sys2Proof.Proofs
end

section
/-! PROOFS. The host's turn at an idle sequencer (R88), and the statements of spec/20_memory.md. -/

namespace Sys2Proof.Machine

/-- R88, R21: an idle sequencer leaves the step to the host, once time has passed. -/
theorem step_of_idle {s : State} (hreset : s.resetInput = false) (hidle : s.seq = .idle) :
    step s = hostAct s.elapse := by
  simp [step, hreset, hidle, hostTurn]

/-- A host with no macro in progress submits the first descriptor of its next move. -/
theorem hostAct_submit {s : State} {b : Byte} {bytes : List Byte} {ps : List HostMove}
    (hjob : s.host.job = none) (hprogram : s.host.program = .submit (b :: bytes) :: ps) :
    hostAct s = submitFirst (b :: bytes) (fun rest => pushBytes rest ps) s := by
  simp [hostAct, hjob, hprogram]

theorem submitFirst_truncated {bytes : List Byte} (hdecode : decode bytes = .truncated)
    (next : List Byte → List HostMove) (s : State) :
    submitFirst bytes next s = .fault .truncatedDescriptor := by
  simp [submitFirst, hdecode]

end Sys2Proof.Machine

namespace Sys2Proof.Proofs
open Sys2Proof.Machine

/-- Settles O11: the step is the host's turn, which submits the bytes, and the decoder finds no descriptor in them. -/
theorem truncatedDescriptorStops : Obligations.TruncatedDescriptorStops := by
  intro s b bytes ps hreset hidle hjob hprogram hdecode
  calc step s
      = hostAct s.elapse := step_of_idle hreset hidle
    _ = submitFirst (b :: bytes) (fun rest => pushBytes rest ps) s.elapse := hostAct_submit hjob hprogram
    _ = .fault .truncatedDescriptor := submitFirst_truncated hdecode _ _

end Sys2Proof.Proofs
end

section
/-! PROOFS. The name a descriptor's word has (R58, log 2), and decoding a descriptor (R50 to R55). -/

namespace Sys2Proof
open Sys2Proof.Machine

/-- The instruction under the name the decoder gives its words (R58, log 2). -/
def Instr.named : Instr → Instr
  | .command opcode payload => commandInstr opcode payload
  | .readRegister opcode count => readInstr opcode count
  | i => i

/-- R58: the names that a COMMAND can have, each with the opcode and payload it stands for. -/
theorem commandInstr_cases {motive : Byte → List Byte → Instr → Prop}
    (noop : motive 0x00 [] .noop) (sleepOut : motive 0x11 [] .sleepOut) (displayOn : motive 0x29 [] .displayOn)
    (memoryWrite : motive 0x2C [] .memoryWrite)
    (columns : ∀ a b, motive 0x2A (be16 a ++ be16 b) (.columnAddressSet a b))
    (pages : ∀ a b, motive 0x2B (be16 a ++ be16 b) (.pageAddressSet a b))
    (command : ∀ opcode payload, aliasedCommand opcode payload = false → motive opcode payload (.command opcode payload))
    (opcode : Byte) (payload : List Byte) : motive opcode payload (commandInstr opcode payload) := by
  unfold commandInstr
  split
  · split_ifs with h1 h2 h3 h4
    · exact h1 ▸ noop
    · exact h2 ▸ sleepOut
    · exact h3 ▸ displayOn
    · exact h4 ▸ memoryWrite
    · exact command _ _ (by simpa [aliasedCommand] using ⟨h1, h2, h3, h4⟩)
  · rename_i p q r t
    split_ifs with h1 h2
    · simpa [h1] using columns (ofBe16 p q) (ofBe16 r t)
    · simpa [h2] using pages (ofBe16 p q) (ofBe16 r t)
    · exact command _ _ (by simpa [aliasedCommand] using ⟨h1, h2⟩)
  · rename_i hnil hfour
    have h0 : payload.length ≠ 0 := by simpa using hnil
    have h4 : payload.length ≠ 4 := fun h => by
      obtain ⟨p, q, r, t, rfl⟩ := List.length_eq_four.mp h
      exact hfour p q r t rfl
    exact command _ _ (by simp [aliasedCommand, h0, h4])

/-- R58: the names that a READ_REGISTER can have, each with the opcode it stands for. -/
theorem readInstr_cases {count : Half} {motive : Byte → Instr → Prop}
    (status : motive 0x09 (.readStatus count)) (powerMode : motive 0x0A (.readPowerMode count))
    (madctl : motive 0x0B (.readMadctl count)) (pixelFormat : motive 0x0C (.readPixelFormat count))
    (read : ∀ opcode, aliasedRead opcode = false → motive opcode (.readRegister opcode count))
    (opcode : Byte) : motive opcode (readInstr opcode count) := by
  unfold readInstr
  split_ifs with h1 h2 h3 h4
  · exact h1 ▸ status
  · exact h2 ▸ powerMode
  · exact h3 ▸ madctl
  · exact h4 ▸ pixelFormat
  · exact read _ (by simpa [aliasedRead] using ⟨h1, h2, h3, h4⟩)

/-- A term that is spelled with the alias name where there is one has the decoder's name. -/
theorem named_of_wellFormed {i : Instr} (hw : i.wellFormed = true) : i.named = i := by
  cases i with
  | command opcode payload =>
    revert hw
    exact commandInstr_cases (motive := fun opcode payload i =>
      (Instr.command opcode payload).wellFormed = true → i = .command opcode payload)
      (by decide) (by decide) (by decide) (by decide) (by simp [Instr.wellFormed, aliasedCommand])
      (by simp [Instr.wellFormed, aliasedCommand]) (fun _ _ _ _ => rfl) opcode payload
  | readRegister opcode count =>
    revert hw
    exact readInstr_cases (motive := fun opcode i =>
      (Instr.readRegister opcode count).wellFormed = true → i = .readRegister opcode count)
      (by simp [Instr.wellFormed, aliasedRead]) (by simp [Instr.wellFormed, aliasedRead])
      (by simp [Instr.wellFormed, aliasedRead]) (by simp [Instr.wellFormed, aliasedRead]) (fun _ _ _ => rfl) opcode
  | _ => rfl

/-- R51: a well-formed instruction has inline bytes that its `LEN` can count. -/
theorem fitsLen_inlineBytes {i : Instr} (hw : i.wellFormed = true) : fitsLen i.inlineBytes = true := by
  cases i with
  | write _ | transfer _ | writeData _ => exact hw
  | command opcode payload =>
    obtain ⟨hfit, -⟩ : fitsLen payload = true ∧ _ := by simpa [Instr.wellFormed] using hw
    exact hfit
  | _ => rfl

/-- The decoder's name of an instruction that fits `LEN` is well formed. -/
theorem wellFormed_named {i : Instr} (hfit : fitsLen i.inlineBytes = true) : i.named.wellFormed = true := by
  cases i with
  | command opcode payload =>
    exact commandInstr_cases (motive := fun _ payload i => fitsLen payload = true → i.wellFormed = true)
      (fun _ => rfl) (fun _ => rfl) (fun _ => rfl) (fun _ => rfl) (fun _ _ _ => rfl) (fun _ _ _ => rfl)
      (fun _ _ hname hfit => by simp [Instr.wellFormed, hfit, hname]) opcode payload hfit
  | readRegister opcode count =>
    exact readInstr_cases (motive := fun _ i => i.wellFormed = true) rfl rfl rfl rfl
      (fun _ hname => by simp [Instr.wellFormed, hname]) opcode
  | write _ | transfer _ | writeData _ => exact hfit
  | _ => rfl

/-- `i` and `j` are the same operation of the block, perhaps under two names (R58). -/
structure SameOperation (i j : Instr) : Prop where
  encode : encode i = encode j
  exec : ∀ s, exec i s = exec j s
  baseMnemonic : i.baseMnemonic = j.baseMnemonic

/-- R58: an alias has the words, the meaning and the row of its base operation. -/
theorem sameOperation_named (i : Instr) : SameOperation i.named i := by
  cases i with
  | command opcode payload =>
    exact commandInstr_cases (motive := fun opcode payload i => SameOperation i (.command opcode payload))
      ⟨rfl, fun _ => rfl, rfl⟩ ⟨rfl, fun _ => rfl, rfl⟩ ⟨rfl, fun _ => rfl, rfl⟩ ⟨rfl, fun _ => rfl, rfl⟩
      (fun _ _ => ⟨rfl, fun _ => rfl, rfl⟩) (fun _ _ => ⟨rfl, fun _ => rfl, rfl⟩)
      (fun _ _ _ => ⟨rfl, fun _ => rfl, rfl⟩) opcode payload
  | readRegister opcode count =>
    exact readInstr_cases (motive := fun opcode i => SameOperation i (.readRegister opcode count))
      ⟨rfl, fun _ => rfl, rfl⟩ ⟨rfl, fun _ => rfl, rfl⟩ ⟨rfl, fun _ => rfl, rfl⟩ ⟨rfl, fun _ => rfl, rfl⟩
      (fun _ _ => ⟨rfl, fun _ => rfl, rfl⟩) opcode
  | _ => exact ⟨rfl, fun _ => rfl, rfl⟩

/-! ## Decoding a descriptor -/

/-- R52: a register number in `ARG` is read back. -/
theorem decodeGW_ofNat (reg : Fin 4) (len : Half) (rest : List Byte) :
    decodeGW (BitVec.ofNat 8 reg) len rest = .instr (.cfgWrite reg len) rest := by
  fin_cases reg <;> rfl

theorem decodeGR_ofNat (reg : Fin 4) (rest : List Byte) :
    decodeGR (BitVec.ofNat 8 reg) 0 rest = .instr (.cfgRead reg) rest := by
  fin_cases reg <;> rfl

/-- A header, the inline bytes its `LEN` counts, and what comes after them. -/
theorem decode_header_inline (opc arg : Byte) (bytes rest : List Byte) :
    decode ((header opc arg (lenOf bytes) ++ bytes) ++ rest) = decodeHeader opc arg (lenOf bytes) (bytes ++ rest) := by
  rw [List.append_assoc, decode_header]

/-- R58: the words of a COMMAND are read under the name they have. -/
theorem decode_command (opcode : Byte) {payload : List Byte} (hfit : fitsLen payload = true) (rest : List Byte) :
    decode (encode (.command opcode payload) ++ rest) = .instr (commandInstr opcode payload) rest :=
  (decode_header_inline 0x10 opcode payload rest).trans (decodeInline_lenOf (commandInstr opcode) hfit rest)

theorem commandInstr_columns (a b : Half) : commandInstr 0x2A (be16 a ++ be16 b) = .columnAddressSet a b := by
  simp [commandInstr, be16]

theorem commandInstr_pages (a b : Half) : commandInstr 0x2B (be16 a ++ be16 b) = .pageAddressSet a b := by
  simp [commandInstr, be16]

/-- R53, R54: a descriptor whose inline bytes fit `LEN` is read back, under the decoder's name, with the rest left over. -/
theorem decode_encode {i : Instr} (hfit : fitsLen i.inlineBytes = true) (rest : List Byte) :
    decode (encode i ++ rest) = .instr i.named rest := by
  cases i with
  | csAssert | csDeassert | selectCommand | selectData | hwReset | swReset => rfl
  | write bytes => exact (decode_header_inline 0x05 0 bytes rest).trans (decodeInline_lenOf .write hfit rest)
  | transfer bytes => exact (decode_header_inline 0x06 0 bytes rest).trans (decodeInline_lenOf .transfer hfit rest)
  | writeData bytes => exact (decode_header_inline 0x12 0 bytes rest).trans (decodeInline_lenOf .writeData hfit rest)
  | cfgWrite reg value => exact (decode_header _ _ _ _).trans (decodeGW_ofNat reg value rest)
  | cfgRead reg => exact (decode_header _ _ _ _).trans (decodeGR_ofNat reg rest)
  | command opcode payload => exact decode_command opcode hfit rest
  | noop | sleepOut | displayOn | memoryWrite => exact decode_command _ (payload := []) rfl rest
  | columnAddressSet a b =>
    have h := decode_command 0x2A (payload := be16 a ++ be16 b) rfl rest
    rw [commandInstr_columns] at h
    exact h
  | pageAddressSet a b =>
    have h := decode_command 0x2B (payload := be16 a ++ be16 b) rfl rest
    rw [commandInstr_pages] at h
    exact h
  | readRegister _ count | readStatus count | readPowerMode count | readMadctl count | readPixelFormat count =>
    exact decode_header 0x11 _ count rest

/-! ## What the decoder makes of a header (R52, R55, R56) -/

/-- The headers of format N. -/
def headersN : List (Byte × Instr) :=
  [(0x01, .csAssert), (0x02, .csDeassert), (0x03, .selectCommand), (0x04, .selectData), (0x20, .hwReset), (0x21, .swReset)]

/-- The headers of format B. -/
def headersB : List (Byte × (List Byte → Instr)) := [(0x05, .write), (0x06, .transfer), (0x12, .writeData)]

/-- Every `OPC` of R55; the others are illegal (R56). -/
def listedOpcodes : List Byte := [0x01, 0x02, 0x03, 0x04, 0x05, 0x06, 0x10, 0x11, 0x12, 0x20, 0x21, 0x50, 0x51]

/-- R55: the decoder treats each `OPC` by its format: N, B, C, R, GW, GR, or none. -/
theorem decodeHeader_cases {motive : Byte → (Byte → Half → List Byte → DecodeResult) → Prop}
    (formatN : ∀ p ∈ headersN, motive p.1 (decodeN p.2)) (formatB : ∀ p ∈ headersB, motive p.1 (decodeB p.2))
    (formatC : motive 0x10 fun arg => decodeInline (commandInstr arg))
    (formatR : motive 0x11 fun arg len => .instr (readInstr arg len))
    (formatGW : motive 0x50 decodeGW) (formatGR : motive 0x51 decodeGR)
    (illegal : ∀ opc ∉ listedOpcodes, motive opc fun _ _ => .unsupported)
    (opc : Byte) : motive opc (decodeHeader opc) := by
  by_cases hopc : opc ∈ listedOpcodes
  · simp only [headersN, headersB, List.forall_mem_cons] at formatN formatB
    obtain ⟨n1, n2, n3, n4, n20, n21, -⟩ := formatN
    obtain ⟨b5, b6, b12, -⟩ := formatB
    simp only [listedOpcodes, List.mem_cons, List.not_mem_nil, or_false] at hopc
    rcases hopc with rfl | rfl | rfl | rfl | rfl | rfl | rfl | rfl | rfl | rfl | rfl | rfl | rfl <;> assumption
  · have hd : decodeHeader opc = fun _ _ => .unsupported := by
      funext arg len rest
      simp only [listedOpcodes, List.mem_cons, List.not_mem_nil, or_false, not_or] at hopc
      simp only [decodeHeader, hopc, if_false]
    exact hd ▸ illegal opc hopc

/-! What each format accepts. -/

theorem decodeN_instr {i j : Instr} {arg : Byte} {len : Half} {bytes rest : List Byte}
    (h : decodeN i arg len bytes = .instr j rest) : arg = 0 ∧ len = 0 ∧ j = i ∧ bytes = rest := by
  unfold decodeN at h
  split_ifs at h with hzero
  cases h
  exact ⟨hzero.1, hzero.2, rfl, rfl⟩

/-- R50: the inline bytes are as many as `LEN` says, and so fit it. -/
theorem decodeInline_instr {f : List Byte → Instr} {j : Instr} {len : Half} {bytes rest : List Byte}
    (h : decodeInline f len bytes = .instr j rest) :
    ∃ inline, fitsLen inline = true ∧ len = lenOf inline ∧ bytes = inline ++ rest ∧ j = f inline := by
  unfold decodeInline at h
  split_ifs at h with hlen
  cases h
  refine ⟨bytes.take len.toNat, fitsLen_take len bytes, ?_, (List.take_append_drop _ _).symm, rfl⟩
  simp [lenOf, Nat.min_eq_left hlen]

theorem decodeB_instr {f : List Byte → Instr} {j : Instr} {arg : Byte} {len : Half} {bytes rest : List Byte}
    (h : decodeB f arg len bytes = .instr j rest) : arg = 0 ∧ decodeInline f len bytes = .instr j rest := by
  unfold decodeB at h
  split_ifs at h with hzero
  exact ⟨hzero, h⟩

theorem decodeGW_instr {j : Instr} {arg : Byte} {len : Half} {bytes rest : List Byte}
    (h : decodeGW arg len bytes = .instr j rest) :
    ∃ reg : Fin 4, arg = BitVec.ofNat 8 reg ∧ j = .cfgWrite reg len ∧ bytes = rest := by
  unfold decodeGW at h
  split_ifs at h with hreg
  cases h
  exact ⟨⟨arg.toNat, hreg⟩, by simp, rfl, rfl⟩

theorem decodeGR_instr {j : Instr} {arg : Byte} {len : Half} {bytes rest : List Byte}
    (h : decodeGR arg len bytes = .instr j rest) :
    ∃ reg : Fin 4, arg = BitVec.ofNat 8 reg ∧ len = 0 ∧ j = .cfgRead reg ∧ bytes = rest := by
  unfold decodeGR at h
  split_ifs at h with hreg
  cases h
  exact ⟨⟨arg.toNat, hreg.1⟩, by simp, hreg.2, rfl, rfl⟩

/-- What a decoder accepts after a header with `opc` is a well-formed instruction, in the words of its descriptor. -/
def Sound (opc : Byte) (decoder : Byte → Half → List Byte → DecodeResult) : Prop :=
  ∀ (arg : Byte) (len : Half) (bytes rest : List Byte) (i : Instr), decoder arg len bytes = .instr i rest →
    i.wellFormed = true ∧ header opc arg len ++ bytes = encode i ++ rest

theorem headersN_sound : ∀ p ∈ headersN, p.2.wellFormed = true ∧ header p.1 0 0 = encode p.2 := by decide

theorem headersB_sound : ∀ p ∈ headersB, ∀ bytes, (p.2 bytes).wellFormed = fitsLen bytes ∧
    header p.1 0 (lenOf bytes) ++ bytes = encode (p.2 bytes) := by
  simp [headersB, Instr.wellFormed, encode]

theorem decodeHeader_sound (opc : Byte) : Sound opc (decodeHeader opc) := by
  refine decodeHeader_cases (motive := Sound) ?formatN ?formatB ?formatC ?formatR ?formatGW ?formatGR ?illegal opc
  case formatN =>
    intro p hp arg len bytes rest i h
    obtain ⟨rfl, rfl, rfl, rfl⟩ := decodeN_instr h
    obtain ⟨hw, hwords⟩ := headersN_sound p hp
    exact ⟨hw, by rw [hwords]⟩
  case formatB =>
    intro p hp arg len bytes rest i h
    obtain ⟨rfl, h⟩ := decodeB_instr h
    obtain ⟨inline, hfit, rfl, rfl, rfl⟩ := decodeInline_instr h
    obtain ⟨hw, hwords⟩ := headersB_sound p hp inline
    exact ⟨hw.trans hfit, by rw [← hwords, List.append_assoc]⟩
  case formatC =>
    intro arg len bytes rest i h
    obtain ⟨inline, hfit, rfl, rfl, rfl⟩ := decodeInline_instr h
    have hwords := (sameOperation_named (.command arg inline)).encode
    exact ⟨wellFormed_named (i := .command arg inline) hfit, by
      rw [← List.append_assoc]; exact congrArg (· ++ rest) hwords.symm⟩
  case formatR =>
    intro arg len bytes rest i h
    cases h
    have hwords := (sameOperation_named (.readRegister arg len)).encode
    exact ⟨wellFormed_named (i := .readRegister arg len) rfl, congrArg (· ++ bytes) hwords.symm⟩
  case formatGW =>
    intro arg len bytes rest i h
    obtain ⟨reg, rfl, rfl, rfl⟩ := decodeGW_instr h
    exact ⟨rfl, rfl⟩
  case formatGR =>
    intro arg len bytes rest i h
    obtain ⟨reg, rfl, rfl, rfl, rfl⟩ := decodeGR_instr h
    exact ⟨rfl, rfl⟩
  case illegal =>
    intro opc _ arg len bytes rest i h
    cases h

/-- R50: bytes that hold a descriptor start with a header. -/
theorem header_of_decode_instr {bytes rest : List Byte} {i : Instr} (h : decode bytes = .instr i rest) :
    ∃ opc arg len tail, bytes = header opc arg len ++ tail ∧ decodeHeader opc arg len tail = .instr i rest := by
  unfold decode at h
  split at h
  · exact ⟨_, _, _, _, by simp [header], h⟩
  · cases h

/-! What each format refuses. -/

theorem decodeN_unsupported {i : Instr} {arg : Byte} {len : Half} {rest : List Byte} :
    decodeN i arg len rest = .unsupported rest ↔ arg ≠ 0 ∨ len ≠ 0 := by
  unfold decodeN
  split_ifs with h <;> simp_all [imp_iff_not_or]

theorem decodeInline_supported (f : List Byte → Instr) (len : Half) (bytes rest : List Byte) :
    decodeInline f len bytes ≠ .unsupported rest := by
  unfold decodeInline
  split_ifs <;> simp

theorem decodeB_unsupported {f : List Byte → Instr} {arg : Byte} {len : Half} {rest : List Byte} :
    decodeB f arg len rest = .unsupported rest ↔ arg ≠ 0 := by
  unfold decodeB
  split_ifs with h
  · simpa [h] using decodeInline_supported f len rest rest
  · simpa using h

theorem decodeGW_unsupported {arg : Byte} {len : Half} {rest : List Byte} :
    decodeGW arg len rest = .unsupported rest ↔ 3 < arg.toNat := by
  unfold decodeGW
  split_ifs with h
  · simpa using Nat.le_of_lt_succ h
  · simpa using Nat.lt_of_succ_le (Nat.le_of_not_lt h)

theorem decodeGR_unsupported {arg : Byte} {len : Half} {rest : List Byte} :
    decodeGR arg len rest = .unsupported rest ↔ 3 < arg.toNat ∨ len ≠ 0 := by
  unfold decodeGR
  split_ifs with h
  · simpa [h.2] using Nat.le_of_lt_succ h.1
  · simpa [imp_iff_not_or, Nat.succ_le_iff] using h

/-- R56: the headers that no row of R55 matches. -/
def IllegalHeader (opc arg : Byte) (len : Half) : Prop :=
  opc ∉ listedOpcodes ∨
  (opc ∈ ([0x01, 0x02, 0x03, 0x04, 0x20, 0x21] : List Byte) ∧ (arg ≠ 0 ∨ len ≠ 0)) ∨
  (opc ∈ ([0x05, 0x06, 0x12] : List Byte) ∧ arg ≠ 0) ∨
  (opc ∈ ([0x50, 0x51] : List Byte) ∧ 3 < arg.toNat) ∨
  (opc = 0x51 ∧ len ≠ 0)

theorem decodeHeader_unsupported (opc : Byte) : ∀ (arg : Byte) (len : Half) (rest : List Byte),
    decodeHeader opc arg len rest = .unsupported rest ↔ IllegalHeader opc arg len := by
  refine decodeHeader_cases (motive := fun opc decoder => ∀ (arg : Byte) (len : Half) (rest : List Byte),
    decoder arg len rest = .unsupported rest ↔ IllegalHeader opc arg len)
    ?formatN ?formatB ?formatC ?formatR ?formatGW ?formatGR ?illegal opc
  case formatN => simp [headersN, decodeN_unsupported, IllegalHeader, listedOpcodes]
  case formatB => simp [headersB, decodeB_unsupported, IllegalHeader, listedOpcodes]
  case formatC => simp [decodeInline_supported, IllegalHeader, listedOpcodes]
  case formatR => simp [IllegalHeader, listedOpcodes]
  case formatGW => simp [decodeGW_unsupported, IllegalHeader, listedOpcodes]
  case formatGR => simp [decodeGR_unsupported, IllegalHeader, listedOpcodes]
  case illegal => exact fun opc hopc _ _ _ => iff_of_true rfl (.inl hopc)

/-! ## The match and mask rows (R55) -/

theorem append_inj {v w : Nat} {a b : BitVec v} {c d : BitVec w} : a ++ c = b ++ d ↔ a = b ∧ c = d := by
  refine ⟨fun h => ⟨?_, ?_⟩, fun ⟨ha, hc⟩ => ha ▸ hc ▸ rfl⟩
  · rw [← BitVec.extractLsb'_append_eq_left (a := a) (b := c), h, BitVec.extractLsb'_append_eq_left]
  · rw [← BitVec.extractLsb'_append_eq_right (a := a) (b := c), h, BitVec.extractLsb'_append_eq_right]

theorem headerWord_inj {opc arg opc' arg' : Byte} {len len' : Half} :
    headerWord opc arg len = headerWord opc' arg' len' ↔ opc = opc' ∧ arg = arg' ∧ len = len' := by
  rw [← and_assoc, ← append_inj]
  exact append_inj

theorem headerWord_and (opc arg opc' arg' : Byte) (len len' : Half) :
    headerWord opc arg len &&& headerWord opc' arg' len' = headerWord (opc &&& opc') (arg &&& arg') (len &&& len') :=
  BitVec.and_append.trans (congrArg (· ++ (len &&& len')) BitVec.and_append)

/-- R54: a row whose match and mask are written field by field is held against the header field by field. -/
theorem matches_headerWord (mnemonic : String) (opc arg pOpc pArg mOpc mArg : Byte) (len pLen mLen : Half) :
    (⟨mnemonic, headerWord pOpc pArg pLen, headerWord mOpc mArg mLen⟩ : Row).matches (headerWord opc arg len) = true ↔
      opc &&& mOpc = pOpc ∧ arg &&& mArg = pArg ∧ len &&& mLen = pLen := by
  rw [Row.matches, beq_iff_eq, headerWord_and, headerWord_inj]

/-- The rows a header matches. -/
def matchingRows (opc arg : Byte) (len : Half) : List Row := baseRows.filter (·.matches (headerWord opc arg len))

/-- The rows with an `OPC`: at most one. -/
def rowsOf (opc : Byte) : List Row := baseRows.filter fun row => row.pattern.extractLsb' 24 8 = opc

theorem headerWord_opc (opc arg : Byte) (len : Half) : (headerWord opc arg len).extractLsb' 24 8 = opc :=
  (BitVec.extractLsb'_append_eq_of_le (by decide)).trans BitVec.extractLsb'_append_eq_left

/-- Every row's mask covers the whole `OPC`, so a header matches only rows with its own. -/
theorem matchingRows_eq (opc arg : Byte) (len : Half) :
    matchingRows opc arg len = (rowsOf opc).filter (·.matches (headerWord opc arg len)) := by
  have hmask : ∀ row ∈ baseRows, row.mask.extractLsb' 24 8 = BitVec.allOnes 8 := by decide
  have hopc : ∀ row ∈ baseRows, row.matches (headerWord opc arg len) = true → row.pattern.extractLsb' 24 8 = opc := by
    intro row hrow h
    rw [← eq_of_beq h, BitVec.extractLsb'_and, hmask row hrow, headerWord_opc, BitVec.and_allOnes]
  rw [rowsOf, List.filter_filter]
  exact List.filter_congr fun row hrow => by simpa using hopc row hrow

/-- With one row for its `OPC`, a header matches that row or none. -/
theorem matchingRows_eq_ite {opc arg : Byte} {len : Half} {row : Row} {legal : Prop} [Decidable legal]
    (hrow : rowsOf opc = [row]) (hlegal : row.matches (headerWord opc arg len) = true ↔ legal) :
    matchingRows opc arg len = if legal then [row] else [] := by
  rw [matchingRows_eq, hrow, ← if_congr hlegal rfl rfl, List.filter_singleton, Bool.cond_eq_ite]

theorem rowsOf_headersN : ∀ p ∈ headersN, rowsOf p.1 =
    [⟨p.2.baseMnemonic, headerWord p.1 0 0, headerWord (.allOnes 8) (.allOnes 8) (.allOnes 16)⟩] := by decide

theorem rowsOf_headersB : ∀ p ∈ headersB, rowsOf p.1 =
    [⟨(p.2 []).baseMnemonic, headerWord p.1 0 0, headerWord (.allOnes 8) (.allOnes 8) 0⟩] := by decide

theorem baseMnemonic_headersB : ∀ p ∈ headersB, ∀ bytes, (p.2 []).baseMnemonic = (p.2 bytes).baseMnemonic := by
  simp [headersB, Instr.baseMnemonic]

theorem rowsOf_command : rowsOf 0x10 = [⟨"COMMAND", headerWord 0x10 0 0, headerWord (.allOnes 8) 0 0⟩] := by decide

theorem rowsOf_readRegister : rowsOf 0x11 = [⟨"READ_REGISTER", headerWord 0x11 0 0, headerWord (.allOnes 8) 0 0⟩] := by
  decide

theorem rowsOf_cfgWrite : rowsOf 0x50 = [⟨"CFG_WRITE", headerWord 0x50 0 0, headerWord (.allOnes 8) 0xFC 0⟩] := by decide

theorem rowsOf_cfgRead :
    rowsOf 0x51 = [⟨"CFG_READ", headerWord 0x51 0 0, headerWord (.allOnes 8) 0xFC (.allOnes 16)⟩] := by decide

theorem rowsOf_unlisted {opc : Byte} (h : opc ∉ listedOpcodes) : rowsOf opc = [] := by
  have hlisted : ∀ row ∈ baseRows, row.pattern.extractLsb' 24 8 ∈ listedOpcodes := by decide
  exact List.filter_eq_nil_iff.mpr fun row hrow hopc =>
    h (of_decide_eq_true hopc ▸ hlisted row hrow)

/-- R52: the mask 0xFC leaves the register numbers 0 to 3. -/
theorem and_registerMask_eq_zero (arg : Byte) : arg &&& 0xFC = 0 ↔ arg.toNat < 4 := by
  revert arg; decide +kernel

/-- What the rows that a header matches say of the decoder's answer (R54). -/
def Agrees (rows : List Row) (rest : List Byte) : DecodeResult → Prop
  | .instr i _ => ∃ row, rows = [row] ∧ row.mnemonic = i.baseMnemonic
  | .unsupported after => rows = [] ∧ after = rest
  | .truncated => ∃ row, rows = [row]

theorem agrees_decodeInline {row : Row} {f : List Byte → Instr} (hf : ∀ bytes, row.mnemonic = (f bytes).baseMnemonic)
    (len : Half) (rest : List Byte) : Agrees [row] rest (decodeInline f len rest) := by
  unfold decodeInline
  split_ifs
  · exact ⟨row, rfl, hf _⟩
  · exact ⟨row, rfl⟩

theorem decodeHeader_agrees (opc : Byte) : ∀ (arg : Byte) (len : Half) (rest : List Byte),
    Agrees (matchingRows opc arg len) rest (decodeHeader opc arg len rest) := by
  refine decodeHeader_cases (motive := fun opc decoder => ∀ (arg : Byte) (len : Half) (rest : List Byte),
    Agrees (matchingRows opc arg len) rest (decoder arg len rest))
    ?formatN ?formatB ?formatC ?formatR ?formatGW ?formatGR ?illegal opc
  case formatN =>
    intro p hp arg len rest
    have hlegal := matchingRows_eq_ite (arg := arg) (len := len) (legal := arg = 0 ∧ len = 0) (rowsOf_headersN p hp)
      (by simp only [matches_headerWord, BitVec.and_allOnes, true_and])
    rw [hlegal, decodeN]
    split_ifs
    · exact ⟨_, rfl, rfl⟩
    · exact ⟨rfl, rfl⟩
  case formatB =>
    intro p hp arg len rest
    have hlegal := matchingRows_eq_ite (arg := arg) (len := len) (legal := arg = 0) (rowsOf_headersB p hp)
      (by simp only [matches_headerWord, BitVec.and_allOnes, BitVec.ofNat_eq_ofNat, BitVec.and_zero, true_and, and_true])
    rw [hlegal, decodeB]
    split_ifs
    · exact agrees_decodeInline (baseMnemonic_headersB p hp) len rest
    · exact ⟨rfl, rfl⟩
  case formatC =>
    intro arg len rest
    have hlegal := matchingRows_eq_ite (arg := arg) (len := len) (legal := True) rowsOf_command
      (by simp only [matches_headerWord, BitVec.and_allOnes, BitVec.ofNat_eq_ofNat, BitVec.and_zero, and_self])
    rw [hlegal, if_pos trivial]
    exact agrees_decodeInline (fun bytes => (sameOperation_named (.command arg bytes)).baseMnemonic.symm) len rest
  case formatR =>
    intro arg len rest
    have hlegal := matchingRows_eq_ite (arg := arg) (len := len) (legal := True) rowsOf_readRegister
      (by simp only [matches_headerWord, BitVec.and_allOnes, BitVec.ofNat_eq_ofNat, BitVec.and_zero, and_self])
    rw [hlegal, if_pos trivial]
    exact ⟨_, rfl, (sameOperation_named (.readRegister arg len)).baseMnemonic.symm⟩
  case formatGW =>
    intro arg len rest
    have hlegal := matchingRows_eq_ite (arg := arg) (len := len) (legal := arg.toNat < 4) rowsOf_cfgWrite
      (by
        rw [matches_headerWord, and_registerMask_eq_zero]
        simp only [BitVec.and_allOnes, BitVec.ofNat_eq_ofNat, BitVec.and_zero, true_and, and_true])
    rw [hlegal, decodeGW]
    split_ifs
    · exact ⟨_, rfl, rfl⟩
    · exact ⟨rfl, rfl⟩
  case formatGR =>
    intro arg len rest
    have hlegal := matchingRows_eq_ite (arg := arg) (len := len) (legal := arg.toNat < 4 ∧ len = 0) rowsOf_cfgRead
      (by simp only [matches_headerWord, BitVec.and_allOnes, true_and, and_registerMask_eq_zero])
    rw [hlegal, decodeGR]
    split_ifs
    · exact ⟨_, rfl, rfl⟩
    · exact ⟨rfl, rfl⟩
  case illegal =>
    intro opc hopc arg len rest
    exact ⟨by rw [matchingRows_eq, rowsOf_unlisted hopc, List.filter_nil], rfl⟩

end Sys2Proof

namespace Sys2Proof.Proofs
open Sys2Proof.Machine Sys2Proof.Safety

/-- Settles O2: a well-formed instruction fits `LEN` and has the decoder's own name. -/
theorem decodeOfEncode : Obligations.DecodeOfEncode := by
  intro i rest hw
  rw [decode_encode (fitsLen_inlineBytes hw), named_of_wellFormed hw]

/-- Settles O3, by the format of the header. -/
theorem encodeOfDecode : Obligations.EncodeOfDecode := by
  intro bytes rest i h
  obtain ⟨opc, arg, len, tail, rfl, hheader⟩ := header_of_decode_instr h
  exact decodeHeader_sound opc arg len tail rest i hheader

/-- Settles O4, by the format of the header: each `OPC` has at most one row, which asks of the fields what the format does. -/
theorem decoderAgreesWithTable : Obligations.DecoderAgreesWithTable := by
  intro opc arg hi lo rest
  exact decodeHeader_agrees opc arg (ofBe16 hi lo) rest

/-- Settles O5, by the format of the header. -/
theorem illegalHeadersListed : Obligations.IllegalHeadersListed := by
  intro opc arg hi lo rest
  exact decodeHeader_unsupported opc arg (ofBe16 hi lo) rest

/-- Settles O1, by running the decoder on each byte list. -/
theorem writtenOutDescriptorsDecode : Obligations.WrittenOutDescriptorsDecode :=
  ⟨rfl, rfl, rfl, rfl, rfl, rfl, rfl, rfl, rfl, rfl⟩

end Sys2Proof.Proofs
end

section
/-! PROOFS. An operation that meets no fault: its descriptor's plan, what it leaves, and the frames of COMMAND and
READ_REGISTER (R90, R92). -/

namespace Sys2Proof.Machine
open Sys2Proof.Safety

/-! ## Plans without a fault -/

/-- R70: an instruction that fits `LEN`, under any of its names, runs the expansion of its descriptor's latches. -/
theorem exec_eq_operate_of_fitsLen {i : Instr} (hfit : fitsLen i.inlineBytes = true) (s : State) :
    exec i s = operate (latchesOf (encode i)) (planOf i s) s := by
  obtain ⟨hencode, hexec, -⟩ := sameOperation_named i
  rw [← hexec s, exec_eq_operate_planOf (wellFormed_named hfit) s, planOf, planOf, hencode]

theorem planSteps_eq (plan : List Prim) : planSteps plan = stepCount plan + 1 := by
  induction plan with
  | nil => rfl
  | cons p ps ih => rw [planSteps, ih, stepCount, Nat.add_assoc]

theorem quietFrom_of_answers {s : State} (bs : List Bool) : ∀ j : Nat,
    (∀ k, k < bs.length → (s.answerAt (j + k)).fault = false) → quietFrom s j bs = true := by
  induction bs with
  | nil => exact fun _ _ => rfl
  | cons b bs ih =>
    intro j h
    have h0 : (s.answerAt j).fault = false := h 0 (by simp)
    have hs : quietFrom s (j + 1) bs = true := ih (j + 1) fun k hk => by
      rw [Nat.add_assoc, Nat.add_comm 1 k]
      exact h (k + 1) (by simpa using hk)
    simp [quietFrom, h0, hs]

/-- Answers without a fault, as many as the acceptance and the steps of the list draw. -/
theorem noFault_of_answers {plan : List Prim} {s : State}
    (h : ∀ j, j < planSteps plan + 1 → (s.answerAt j).fault = false) : NoFault plan s := by
  refine quietFrom_of_answers _ 1 fun k hk => h (1 + k) ?_
  rw [length_faultSteps] at hk
  rw [planSteps_eq]
  omega

/-- An instruction that fits `LEN` runs its plan under the decoder's name. -/
theorem runsPlan_named {i : Instr} (hfit : fitsLen i.inlineBytes = true) (s : State) :
    RunsPlan i.named s (planOf i s) := by
  obtain ⟨plan, r⟩ := exists_runsPlan i.named s
  have hplan : planOf i s = plan := by
    rw [← r.planOf_eq (wellFormed_named hfit), planOf, planOf, (sameOperation_named i).encode]
  exact hplan ▸ r

/-- R137: only CFG_WRITE has a register write in its list. -/
theorem cfgWrite_notMem_planOf {i : Instr} (hfit : fitsLen i.inlineBytes = true) (hi : i.baseMnemonic ≠ "CFG_WRITE")
    (s : State) (p : Prim) (hp : p ∈ planOf i s) (reg : Fin 4) (v : Half) : p ≠ .cfgWrite reg v := by
  rintro rfl
  have hname : i.named = .cfgWrite reg v := (runsPlan_named hfit s).permitted _ hp
  exact hi (by rw [← (sameOperation_named i).baseMnemonic, hname]; rfl)

theorem started_planEvents (l : Latches) (s : State) (plan : List Prim) : ∀ j,
    planEvents (started l s) j plan = planEvents s (j + 1) plan := by
  induction plan with
  | nil => exact fun _ => rfl
  | cons p ps ih =>
    intro j
    have hp : primEvents (started l s) j p = primEvents s (j + 1) p := by cases p <;> simp [primEvents]
    rw [planEvents, planEvents, hp, ih, Nat.add_right_comm]

/-- R70: what an operation without a register write leaves when the oracle reports no fault. -/
theorem operate_ended {plan : List Prim} {s : State} (l : Latches) (h : NoFault plan s)
    (hc : ∀ p ∈ plan, ∀ reg v, p ≠ .cfgWrite reg v) :
    ∃ t, operate l plan s = .next t ∧
      Ended s t l (planEvents s 1 plan).flatten ⟨.ok, (planEffect plan (started l s)).rx⟩ (planSteps plan + 1) ∧
      t.cfg = s.cfg ∧ t.pins = (planEffect plan (started l s)).pins ∧ t.rx = (planEffect plan (started l s)).rx := by
  obtain ⟨g, hcfg⟩ := grew_planEffect plan hc (started l s)
  rw [started_planEvents] at g
  refine ⟨_, operate_noFault l plan s h, ?_, hcfg, rfl, rfl⟩
  rw [planSteps_eq]
  exact ended_of_grew g _

/-! ## COMMAND and READ_REGISTER -/

theorem commandPlan_nil (opcode : Byte) : commandPlan opcode [] =
    [.drive .cs .low, .drive .dc .low, .busWrite [opcode], .drive .dc .high, .drive .cs .high] := rfl

theorem commandPlan_of_ne_nil (opcode : Byte) {payload : List Byte} (h : payload ≠ []) : commandPlan opcode payload =
    [.drive .cs .low, .drive .dc .low, .busWrite [opcode], .drive .dc .high, .busWrite payload, .drive .cs .high] :=
  if_neg h

theorem commandPlan_events (opcode : Byte) (payload : List Byte) (s : State) (j : Nat) :
    (planEvents s j (commandPlan opcode payload)).flatten =
      [.drive .cs .low, .drive .dc .low, .tx opcode, .drive .dc .high] ++ payload.map Event.tx ++ [.drive .cs .high] := by
  by_cases h : payload = []
  · simp [h, commandPlan_nil, planEvents, primEvents]
  · simp [commandPlan_of_ne_nil opcode h, planEvents, primEvents]

theorem commandPlan_steps (opcode : Byte) (payload : List Byte) :
    planSteps (commandPlan opcode payload) + 1 = if payload = [] then 8 else payload.length + 9 := by
  split_ifs with h
  · simp [h, commandPlan_nil, planSteps, Prim.steps]
  · simp [commandPlan_of_ne_nil opcode h, planSteps, Prim.steps]; omega

/-- R90: the frame leaves `CS` and `DC` high and the clock low; `SDO` is open (U19). -/
theorem commandPlan_pins (opcode : Byte) (payload : List Byte) (s : State) :
    ∃ v, (planEffect (commandPlan opcode payload) s).pins =
      { s.pins with cs := .high, dc := .high, sck := .low, sdo := v } := by
  by_cases h : payload = []
  · exact ⟨_, by simp [h, commandPlan_nil, planEffect, Prim.effect, pinsAfterBytes]; rfl⟩
  · exact ⟨_, by simp [h, commandPlan_of_ne_nil opcode h, planEffect, Prim.effect, pinsAfterBytes]; rfl⟩

/-- R90: COMMAND and each of its alias names, when no fault is met. -/
theorem operateCommand_ran {opcode : Byte} {payload : List Byte} {s : State} (h : NoFault (commandPlan opcode payload) s) :
    ∃ t, operateCommand opcode payload s = .next t ∧ CommandRan s t opcode payload := by
  have hmem : ∀ p ∈ commandPlan opcode payload, (∀ reg v, p ≠ .cfgWrite reg v) ∧ ¬ fillsRx p := by
    unfold commandPlan
    split_ifs <;> simp [fillsRx]
  obtain ⟨t, he, hended, hcfg, hpins, hrx⟩ :=
    operate_ended ⟨0x10, opcode, lenOf payload, payload⟩ h fun p hp => (hmem p hp).1
  have hempty := planEffect_rx (fun p hp => (hmem p hp).2) (started ⟨0x10, opcode, lenOf payload, payload⟩ s)
  rw [started_rx] at hempty
  rw [commandPlan_events, commandPlan_steps, hempty] at hended
  obtain ⟨v, hv⟩ := commandPlan_pins opcode payload (started ⟨0x10, opcode, lenOf payload, payload⟩ s)
  exact ⟨t, he, hended, ⟨v, hpins.trans hv⟩, hcfg, hrx.trans hempty⟩

theorem readPlan_events (opcode : Byte) (count : Half) (dummy : Byte) (s : State) :
    (planEvents s 1 (readPlan opcode count dummy)).flatten =
      [.drive .cs .low, .drive .dc .low, .tx opcode, .drive .dc .high] ++
        transferEvents s 6 (List.replicate count.toNat dummy) ++ [.drive .cs .high] := by
  simp [readPlan, planEvents, primEvents, Prim.steps]

theorem readPlan_steps (opcode : Byte) (count : Half) (dummy : Byte) :
    planSteps (readPlan opcode count dummy) + 1 = count.toNat + 9 := by
  simp [readPlan, planSteps, Prim.steps]; omega

/-- R92: the frame leaves `CS` and `DC` high and the clock low; `SDO` is open (U19). -/
theorem readPlan_pins (opcode : Byte) (count : Half) (dummy : Byte) (s : State) :
    ∃ v, (planEffect (readPlan opcode count dummy) s).pins =
      { s.pins with cs := .high, dc := .high, sck := .low, sdo := v } := by
  by_cases h : count.toNat = 0
  · exact ⟨_, by simp [h, readPlan, planEffect, Prim.effect, pinsAfterBytes]; rfl⟩
  · exact ⟨_, by simp [h, readPlan, planEffect, Prim.effect, pinsAfterBytes]; rfl⟩

/-- R92: the five steps of READ_REGISTER before the exchange. -/
def readLead (opcode : Byte) : List Prim := [.drive .cs .low, .drive .dc .low, .busWrite [opcode], .drive .dc .high]

/-- R92: `RX` gets the bytes that the oracle supplies after those steps. -/
theorem readPlan_rx (opcode : Byte) (count : Half) (dummy : Byte) (s : State) :
    (planEffect (readPlan opcode count dummy) s).rx = s.rx ++ incomingBytes s 5 count.toNat := by
  obtain ⟨g, -⟩ := grew_planEffect (readLead opcode) (by simp [readLead]) s
  have hrx : (planEffect (readLead opcode) s).rx = s.rx := planEffect_rx (by simp [readLead, fillsRx]) s
  calc (planEffect (readPlan opcode count dummy) s).rx
      = (moved transferByte (List.replicate count.toNat dummy) (planEffect (readLead opcode) s)).rx := by
        simp only [readPlan, readLead, planEffect, Prim.effect, drivePin_rx, State.tick_rx]
    _ = s.rx ++ incomingBytes (planEffect (readLead opcode) s) 0 count.toNat := by
        rw [moved_transferByte_rx, hrx, List.length_replicate]
    _ = s.rx ++ incomingBytes s 5 count.toNat := by rw [g.incomingBytes]; rfl

/-- R92: READ_REGISTER and each of its alias names, when no fault is met. -/
theorem operateRead_ran {opcode : Byte} {count : Half} {s : State} (h : NoFault (readPlan opcode count s.params.dummy) s) :
    ∃ t, operateRead opcode count s = .next t ∧ ReadRan s t opcode count := by
  obtain ⟨t, he, hended, hcfg, hpins, hrx⟩ := operate_ended ⟨0x11, opcode, count, []⟩ h (by simp [readPlan])
  rw [readPlan_rx, started_rx, started_incomingBytes, List.nil_append] at hended hrx
  rw [readPlan_events, readPlan_steps] at hended
  obtain ⟨v, hv⟩ := readPlan_pins opcode count s.params.dummy (started ⟨0x11, opcode, count, []⟩ s)
  exact ⟨t, he, hended, ⟨v, hpins.trans hv⟩, hcfg, hrx⟩

end Sys2Proof.Machine

namespace Sys2Proof.Proofs
open Sys2Proof.Machine Sys2Proof.Safety

/-- Settles O7: each alias has the latches and the list of its base operation. -/
theorem aliasesAreTheirBaseOperation : Obligations.AliasesAreTheirBaseOperation :=
  fun _ _ _ _ => ⟨rfl, rfl, rfl, rfl, rfl, rfl, rfl, rfl, rfl, rfl⟩

/-- Settles O35: each alias is the operation COMMAND with its opcode and payload. -/
theorem commandAliasesSendTheirFrame : Obligations.CommandAliasesSendTheirFrame :=
  fun _ _ _ => ⟨operateCommand_ran, operateCommand_ran, operateCommand_ran, operateCommand_ran, operateCommand_ran,
    operateCommand_ran⟩

/-- Settles O38: each alias is the operation READ_REGISTER with its opcode. -/
theorem readAliasesSendTheirFrame : Obligations.ReadAliasesSendTheirFrame :=
  fun _ _ => ⟨operateRead_ran, operateRead_ran, operateRead_ran, operateRead_ran⟩

end Sys2Proof.Proofs
end

section
/-! PROOFS. The host's moves (R54, R62, R88): a rejected descriptor, and a macro from descriptor to descriptor. -/

namespace Sys2Proof.Machine
open Sys2Proof.Safety

/-! ## Records -/

/-- The host with the macro in progress changed and more records at the end of its lists. -/
def HostAgent.advance (h : HostAgent) (job : Option Job) (cs : List Completion) (ends : List ResultCode) : HostAgent :=
  { h with job := job, completions := h.completions ++ cs, macroEnds := h.macroEnds ++ ends }

section
variable (h : HostAgent) (job : Option Job) (cs : List Completion) (ends : List ResultCode)
@[simp] theorem HostAgent.advance_program : (h.advance job cs ends).program = h.program := rfl
@[simp] theorem HostAgent.advance_job : (h.advance job cs ends).job = job := rfl
@[simp] theorem HostAgent.advance_macroEnds : (h.advance job cs ends).macroEnds = h.macroEnds ++ ends := rfl
end

theorem HostAgent.advance_advance (h : HostAgent) (j j' : Option Job) (cs cs' : List Completion)
    (ends ends' : List ResultCode) :
    (h.advance j cs ends).advance j' cs' ends' = h.advance j' (cs ++ cs') (ends ++ ends') := by
  simp [advance]

theorem HostAgent.receive_of_no_job {h : HostAgent} (hjob : h.job = none) (c : Completion) :
    h.receive c = h.advance none [c] [] := by
  simp [receive, advance, hjob]

/-- R62: a macro in progress goes on after code 0. -/
theorem HostAgent.receive_ok_of_job {h : HostAgent} {j : Job} (hjob : h.job = some j) {c : Completion} (hc : c.code = .ok) :
    h.receive c = h.advance (some { j with index := j.index + 1 }) [c] [] := by
  simp [receive, advance, hjob, hc]

/-- R62, R114, R131: it ends with any other code. -/
theorem HostAgent.receive_fault_of_job {h : HostAgent} {j : Job} (hjob : h.job = some j) {c : Completion}
    (hc : c.code ≠ .ok) : h.receive c = h.advance none [c] [c.code] := by
  simp [receive, advance, hjob, hc]

/-! ## The host's move -/

/-- R88: with no macro in progress, the host submits the first descriptor of its next move. -/
theorem step_submit {s : State} {bytes : List Byte} {ps : List HostMove} (hreset : s.resetInput = false)
    (hidle : s.seq = .idle) (hjob : s.host.job = none) (hprogram : s.host.program = .submit bytes :: ps)
    (hbytes : bytes ≠ []) : step s = submitFirst bytes (fun rest => pushBytes rest ps) s.elapse := by
  obtain ⟨b, bytes, rfl⟩ := List.exists_cons_of_ne_nil hbytes
  exact (step_of_idle hreset hidle).trans (hostAct_submit (s := s.elapse) hjob hprogram)

theorem submitFirst_unsupported {bytes rest : List Byte} (hdecode : decode bytes = .unsupported rest)
    (next : List Byte → List HostMove) (s : State) :
    submitFirst bytes next s = .next (rejectDescriptor (s.withProgram (next rest))) := by
  simp [submitFirst, hdecode]

/-- R88: the bytes of an instruction, under any of its names, are run as that instruction. -/
theorem submitFirst_encode {i : Instr} (hfit : fitsLen i.inlineBytes = true) (next : List Byte → List HostMove) (s : State) :
    submitFirst (encode i) next s = exec i (s.withProgram (next [])) := by
  have hdecode : decode (encode i) = .instr i.named [] := by simpa using decode_encode hfit []
  rw [submitFirst, hdecode]
  exact (sameOperation_named i).exec _

/-- R62: with a macro in progress, the host's move is the macro's. -/
theorem step_job {s : State} {j : Job} (hreset : s.resetInput = false) (hidle : s.seq = .idle) (hjob : s.host.job = some j) :
    step s = jobTurn j s.elapse := by
  rw [step_of_idle hreset hidle, hostAct, State.elapse_host, hjob]

theorem jobTurn_submits {s : State} {j : Job} {i : Instr} (hi : (j.call.expansion s.params)[j.index]? = some i)
    (hfit : fitsLen i.inlineBytes = true) : jobTurn j s = exec i s := by
  rw [jobTurn, hi]
  exact submitFirst_encode hfit _ s

theorem jobTurn_ends {s : State} {j : Job} (hlen : (j.call.expansion s.params).length ≤ j.index) :
    jobTurn j s = .next (endMacro .ok s) := by
  rw [jobTurn, List.getElem?_eq_none hlen]

/-! ## A macro that meets no fault -/

/-- R62, R138: no descriptor of a macro writes a configuration register. -/
theorem expansion_ne_cfgWrite {m : Macro} {p : Params} {i : Instr} (hi : i ∈ m.expansion p) :
    i.baseMnemonic ≠ "CFG_WRITE" := by
  have hreads : ∀ flag, i ∈ diagReads p flag → i.baseMnemonic = "READ_REGISTER" := by
    intro flag hi
    unfold diagReads at hi
    split_ifs at hi
    · obtain ⟨d, -, rfl⟩ := List.mem_map.mp hi
      rfl
    · cases hi
  cases m with
  | init pre post =>
    simp only [Macro.expansion, initExpansion, List.mem_append, List.mem_pair] at hi
    obtain ((((rfl | rfl) | hpre) | htable) | hpost) := hi
    · decide
    · decide
    · rw [hreads pre hpre]; decide
    · obtain ⟨e, -, rfl⟩ := List.mem_map.mp htable
      simp [Instr.baseMnemonic]
    · rw [hreads post hpost]; decide
  | clear w colour =>
    simp only [Macro.expansion, clearExpansion, List.mem_append, List.mem_cons, List.mem_replicate, List.not_mem_nil,
      or_false] at hi
    obtain ((rfl | rfl | rfl) | ⟨-, rfl⟩) | rfl := hi <;> simp [Instr.baseMnemonic]

/-- What a macro's descriptors leave as it was (R138): from `s` to `t` the registers, `BL` and the parameters are the same
and the trace has only grown, and at `t` the host has its turn. -/
structure MacroKept (s t : State) : Prop where
  seq : t.seq = .idle
  resetInput : t.resetInput = s.resetInput
  params : t.params = s.params
  cfg : t.cfg = s.cfg
  bl : t.pins.bl = s.pins.bl
  trace : s.trace <+: t.trace

theorem MacroKept.trans {s t u : State} (h : MacroKept s t) (g : MacroKept t u) : MacroKept s u where
  seq := g.seq
  resetInput := g.resetInput.trans h.resetInput
  params := g.params.trans h.params
  cfg := g.cfg.trans h.cfg
  bl := g.bl.trans h.bl
  trace := h.trace.trans g.trace

/-- The answers that a list of instructions draws from `s` on, as long as nothing changes what they expand to. -/
def answersDrawn (is : List Instr) (s : State) : Nat := (is.map fun i => planSteps (planOf i s) + 1).sum

theorem MacroKept.answersDrawn_eq {s t : State} (h : MacroKept s t) (is : List Instr) :
    answersDrawn is t = answersDrawn is s := by
  simp only [answersDrawn, planOf, h.cfg, h.params]

/-- R62: one descriptor of a macro that meets no fault. -/
theorem step_job_ok {s : State} {j : Job} {i : Instr} (hreset : s.resetInput = false) (hidle : s.seq = .idle)
    (hjob : s.host.job = some j) (hi : (j.call.expansion s.params)[j.index]? = some i)
    (hfit : fitsLen i.inlineBytes = true) (hquiet : ∀ k, k < planSteps (planOf i s) + 1 → (s.answerAt k).fault = false) :
    ∃ t c, step s = .next t ∧ MacroKept s t ∧ c.code = .ok ∧
      t.host = s.host.advance (some { j with index := j.index + 1 }) [c] [] ∧
      ∀ k, t.answerAt k = s.answerAt (planSteps (planOf i s) + 1 + k) := by
  have hno := expansion_ne_cfgWrite (List.mem_of_getElem? hi)
  obtain ⟨t, he, hended, hcfg, -, -⟩ := operate_ended (s := s.elapse) (latchesOf (encode i)) (noFault_of_answers hquiet)
    (cfgWrite_notMem_planOf hfit hno s)
  have hstep : step s = .next t := by
    rw [step_job hreset hidle hjob]
    exact (jobTurn_submits (s := s.elapse) hi hfit).trans ((exec_eq_operate_of_fitsLen hfit s.elapse).trans he)
  obtain ⟨-, hbl⟩ := (framed_operate he).cfg fun reg v hm => cfgWrite_notMem_planOf hfit hno s _ hm reg v rfl
  have hhost := hended.host.trans (HostAgent.receive_ok_of_job hjob rfl)
  refine ⟨t, _, hstep, ?kept, ?code, hhost, ?answers⟩
  case kept =>
    exact ⟨hended.seq, hended.resetInput, hended.params, hcfg, hbl, hended.trace ▸ List.prefix_append _ _⟩
  case code => rfl
  case answers =>
    intro k
    simp [State.answerAt, hended.answers, hended.draws, Nat.add_assoc]

/-- R62: the step after a macro's last descriptor. -/
theorem step_job_ends {s : State} {j : Job} (hreset : s.resetInput = false) (hidle : s.seq = .idle)
    (hjob : s.host.job = some j) (hlen : (j.call.expansion s.params).length ≤ j.index) :
    step s = .next (endMacro .ok s.elapse) :=
  (step_job hreset hidle hjob).trans (jobTurn_ends (s := s.elapse) hlen)

theorem run_succ {M : Host.Core} {s t : M.State} (h : M.step s = .next t) (n : Nat) : M.run (n + 1) s = M.run n t := by
  rw [Host.Core.run, h]

/-- R62: the descriptors `is` that a macro has still to submit, and its end. -/
theorem run_job_ok (is : List Instr) : ∀ (s : State) (j : Job), s.resetInput = false → s.seq = .idle →
    s.host.job = some j → (j.call.expansion s.params).drop j.index = is → (∀ i ∈ is, fitsLen i.inlineBytes = true) →
    (∀ k, k < answersDrawn is s → (s.answerAt k).fault = false) →
    ∃ t cs, Sys2Proof.core.run (is.length + 1) s = .next t ∧ MacroKept s t ∧ cs.length = is.length ∧
      (∀ c ∈ cs, c.code = .ok) ∧ t.host = s.host.advance none cs [.ok] := by
  induction is with
  | nil =>
    intro s j hreset hidle hjob hdrop _ _
    have hstep := step_job_ends hreset hidle hjob (List.drop_eq_nil_iff.mp hdrop)
    exact ⟨_, [], run_succ (M := Sys2Proof.core) hstep 0, ⟨hidle, rfl, rfl, rfl, rfl, List.prefix_rfl⟩, rfl, by simp,
      by simp [endMacro, HostAgent.advance]⟩
  | cons i is ih =>
    intro s j hreset hidle hjob hdrop hfit hquiet
    obtain ⟨hfit1, hfit⟩ := List.forall_mem_cons.mp hfit
    have hi : (j.call.expansion s.params)[j.index]? = some i := by
      rw [← Nat.add_zero j.index, ← List.getElem?_drop, hdrop]; rfl
    have hdrawn : answersDrawn (i :: is) s = planSteps (planOf i s) + 1 + answersDrawn is s := rfl
    rw [hdrawn] at hquiet
    obtain ⟨u, c, hstep, hkept, hc, hhost, hanswers⟩ :=
      step_job_ok hreset hidle hjob hi hfit1 fun k hk => hquiet k (by omega)
    obtain ⟨t, cs, hrun, hkept', hlen, hcs, hhost'⟩ := ih u { j with index := j.index + 1 }
      (hkept.resetInput.trans hreset) hkept.seq (by simp [hhost])
      (by simpa [hkept.params, Nat.add_comm] using congrArg (List.drop 1) hdrop) hfit
      (fun k hk => by
        rw [hkept.answersDrawn_eq] at hk
        rw [hanswers]
        exact hquiet _ (by omega))
    exact ⟨t, c :: cs, (run_succ (M := Sys2Proof.core) hstep _).trans hrun, hkept.trans hkept', by simp [hlen],
      by simpa [hc] using hcs, by rw [hhost', hhost, HostAgent.advance_advance]; rfl⟩

end Sys2Proof.Machine

namespace Sys2Proof.Proofs
open Sys2Proof.Machine Sys2Proof.Safety

/-- Settles O10: the host submits the bytes, and its record of code 2 is all that changes. -/
theorem rejectedDescriptorChangesNothing : Obligations.RejectedDescriptorChangesNothing := by
  intro s bytes rest ps hreset hidle hjob hprogram hdecode
  have hbytes : bytes ≠ [] := by
    rintro rfl
    cases hdecode
  have hrecord := HostAgent.receive_of_no_job (h := { s.host with program := pushBytes rest ps }) hjob
    ⟨.unsupportedOperation, []⟩
  calc step s
      = submitFirst bytes (fun rest => pushBytes rest ps) s.elapse := step_submit hreset hidle hjob hprogram hbytes
    _ = .next (rejectDescriptor (s.elapse.withProgram (pushBytes rest ps))) := submitFirst_unsupported hdecode _ _
    _ = .next (s.elapse.withHost ({ s.host with program := pushBytes rest ps }.receive ⟨.unsupportedOperation, []⟩)) := rfl
    _ = _ := by rw [hrecord]; simp [State.withHost, State.elapse, State.withNow, HostAgent.advance, hjob]

/-- Settles O48: the decoder reads the descriptor's own operation, whose meaning does not depend on its name. -/
theorem macroSubmitsItsNextDescriptor : Obligations.MacroSubmitsItsNextDescriptor := by
  intro s j i hreset hidle hjob hi hfit
  exact (step_job hreset hidle hjob).trans (jobTurn_submits (s := s.elapse) hi hfit)

/-- Settles O49, by the record that the instruction hands over. -/
theorem macroStopsAtItsFirstFailure : Obligations.MacroStopsAtItsFirstFailure := by
  intro s j i hw hjob
  rw [exec_eq_operate_planOf hw s]
  constructor
  · intro hok
    obtain ⟨t, he, -, hhost⟩ := operate_ends_ok (latchesOf (encode i)) hok
    rw [HostAgent.receive_ok_of_job hjob rfl] at hhost
    exact ⟨t, he, by simp [hhost], by simp [hhost]⟩
  · intro k hk
    obtain ⟨t, he, -, hhost⟩ := operate_ends_fault (latchesOf (encode i)) hk
    rw [HostAgent.receive_fault_of_job hjob (by decide)] at hhost
    exact ⟨t, he, by simp [hhost], by simp [hhost], by simp [hhost]⟩

/-- Settles O50: the macro's expansion has no instruction at its index. -/
theorem macroEndsWithCodeZero : Obligations.MacroEndsWithCodeZero := by
  intro s j hreset hidle hjob hlen
  exact step_job_ends hreset hidle hjob hlen

/-- Settles O51, by induction on the descriptors still to come. -/
theorem macroRunsToItsEnd : Obligations.MacroRunsToItsEnd := by
  intro s m hreset hidle hjob hfit hquiet
  obtain ⟨t, cs, hrun, hkept, hlen, hcs, hhost⟩ :=
    run_job_ok (m.expansion s.params) s ⟨m, 0⟩ hreset hidle hjob rfl hfit hquiet
  exact ⟨t, cs, hrun, hlen, hcs, hhost, hkept.seq, hkept.cfg, hkept.bl, hkept.trace⟩

end Sys2Proof.Proofs
end

section
/-! PROOFS. What an operation reads of the state (R70, R79), the operations of one primitive (R80 to R85), and a byte on
the wire (R71). -/

namespace Sys2Proof.Machine
open Sys2Proof.Safety

/-! ## Neither the variant nor the clock rate is read (R79, R6) -/

/-- The state with another transport variant and clock rate. -/
def State.retuned (v : Variant) (f : Nat) (s : State) : State := s.withParams { s.params with variant := v, sckHz := f }

section
variable (v : Variant) (f : Nat)

section
variable (s : State)
@[simp] theorem retuned_answer : (s.retuned v f).answer = s.answer := rfl
@[simp] theorem retuned_tick : (s.retuned v f).tick = s.tick.retuned v f := rfl
@[simp] theorem pinFault_retuned (a : Answer) : pinFault a (s.retuned v f) = pinFault a s := rfl
@[simp] theorem leaveSdo_retuned (a : Answer) : leaveSdo a (s.retuned v f) = (leaveSdo a s).retuned v f := rfl
@[simp] theorem transportFault_retuned : transportFault (s.retuned v f) = (transportFault s).retuned v f := rfl
@[simp] theorem drivePin_retuned (line : ControlLine) (l : Level) :
    drivePin line l (s.retuned v f) = (drivePin line l s).retuned v f := rfl
@[simp] theorem waitFor_retuned (d : Half) : waitFor d (s.retuned v f) = (waitFor d s).retuned v f := rfl
theorem writeCfg_retuned (reg : Fin 4) (x : Half) :
    writeCfg reg x (s.retuned v f) = (writeCfg reg x s).retuned v f := by
  unfold writeCfg
  split_ifs <;> rfl
end

theorem moveAll_retuned {move : Byte → Answer → State → State}
    (hmove : ∀ b a s, move b a (s.retuned v f) = (move b a s).retuned v f) (bytes : List Byte) : ∀ s : State,
    moveAll move bytes (s.retuned v f) = (moveAll move bytes s).map (State.retuned v f) (State.retuned v f) := by
  induction bytes with
  | nil =>
    intro s
    by_cases hf : s.answer.fault = true <;> simp [moveAll, hf]
  | cons b bytes ih =>
    intro s
    by_cases hf : s.answer.fault = true
    · simp [moveAll, hf]
    · simp [moveAll, hf, hmove, ih]

theorem run_retuned (p : Prim) (s : State) :
    p.run (s.retuned v f) = (p.run s).map (State.retuned v f) (State.retuned v f) := by
  cases p with
  | drive line l => by_cases hf : pinFault s.answer s.tick = true <;> simp [Prim.run, hf]
  | wait d => by_cases hf : pinFault s.answer s.tick = true <;> simp [Prim.run, hf]
  | busWrite bytes => exact moveAll_retuned v f (move := writeByte) (fun _ _ _ => rfl) bytes s
  | busTransfer bytes => exact moveAll_retuned v f (move := transferByte) (fun _ _ _ => rfl) bytes s
  | cfgWrite reg x => exact congrArg Sum.inr (writeCfg_retuned v f s.tick reg x)
  | cfgRead reg => rfl

theorem runPlan_retuned (plan : List Prim) : ∀ s : State, runPlan plan (s.retuned v f) = (runPlan plan s).retuned v f := by
  induction plan with
  | nil => exact fun _ => rfl
  | cons p ps ih =>
    intro s
    rw [runPlan, runPlan, run_retuned]
    cases p.run s with
    | inl t => rfl
    | inr t => exact ih t

theorem operate_retuned {l : Latches} {plan : List Prim} {s t : State} (he : operate l plan s = .next t) :
    operate l plan (s.retuned v f) = .next (t.retuned v f) := by
  rw [operate_eq] at he ⊢
  cases he
  exact congrArg _ (runPlan_retuned v f plan (started l s))

end

/-- R70: the latches and the list of an operation depend on the configuration registers and the dummy byte, "and on nothing
else" of the state. -/
theorem exec_operates_alike (i : Instr) {s t : State} (hcfg : t.cfg = s.cfg) (hdummy : t.params.dummy = s.params.dummy) :
    ∃ l plan, exec i s = operate l plan s ∧ exec i t = operate l plan t := by
  cases i with
  | hwReset => exact ⟨_, _, rfl, by rw [exec, execHwReset, hcfg]⟩
  | swReset => exact ⟨_, _, rfl, by rw [exec, execSwReset, hcfg]⟩
  | readRegister _ _ | readStatus _ | readPowerMode _ | readMadctl _ | readPixelFormat _ =>
    exact ⟨_, readPlan _ _ s.params.dummy, rfl, hdummy ▸ rfl⟩
  | _ => exact ⟨_, _, rfl, rfl⟩

/-! ## The operations of one primitive (R80 to R85) -/

/-- R72, R80 to R83: an operation that drives one line. -/
theorem operate_drive {line : ControlLine} {lv : Level} {s : State} (l : Latches) (h : NoFault [.drive line lv] s) :
    ∃ t, operate l [.drive line lv] s = .next t ∧ Ended s t l [.drive line lv] ⟨.ok, []⟩ 3 ∧
      t.pins = s.pins.set line lv ∧ t.cfg = s.cfg ∧ t.rx = [] := by
  obtain ⟨t, he, hended, hcfg, hpins, hrx⟩ := operate_ended l h (by simp)
  exact ⟨t, he, hended, hpins, hcfg, hrx⟩

/-- R71, U19: bytes leave the clock low and `SDO` open; no byte moves nothing. -/
theorem pinsAfterBytes_cases (bytes : List Byte) (s : State) :
    (bytes = [] → pinsAfterBytes bytes s = s.pins) ∧
    (bytes ≠ [] → ∃ v, pinsAfterBytes bytes s = { s.pins with sck := .low, sdo := v }) :=
  ⟨fun h => if_pos h, fun h => ⟨_, if_neg h⟩⟩

/-- R73: an operation that sends bytes. -/
theorem operate_busWrite {bytes : List Byte} {s : State} (l : Latches) (h : NoFault [.busWrite bytes] s) :
    ∃ t, operate l [.busWrite bytes] s = .next t ∧ Ended s t l (bytes.map Event.tx) ⟨.ok, []⟩ (bytes.length + 3) ∧
      t.pins = pinsAfterBytes bytes (started l s) ∧ t.cfg = s.cfg ∧ t.rx = [] := by
  obtain ⟨t, he, hended, hcfg, hpins, hrx⟩ := operate_ended l h (by simp)
  have hempty : (planEffect [.busWrite bytes] (started l s)).rx = [] := moved_writeByte_rx bytes (started l s)
  have hevents : (planEvents s 1 [.busWrite bytes]).flatten = bytes.map Event.tx := by simp [planEvents, primEvents]
  rw [hempty] at hended hrx
  rw [hevents] at hended
  exact ⟨t, he, hended, hpins.trans (moved_writeByte_pins bytes _), hcfg, hrx⟩

/-- R74, R75: an operation that exchanges bytes. -/
theorem operate_busTransfer {bytes : List Byte} {s : State} (l : Latches) (h : NoFault [.busTransfer bytes] s) :
    ∃ t, operate l [.busTransfer bytes] s = .next t ∧
      Ended s t l (transferEvents s 1 bytes) ⟨.ok, incomingBytes s 1 bytes.length⟩ (bytes.length + 3) ∧
      t.pins = pinsAfterBytes bytes (started l s) ∧ t.cfg = s.cfg ∧ t.rx = incomingBytes s 1 bytes.length := by
  obtain ⟨t, he, hended, hcfg, hpins, hrx⟩ := operate_ended l h (by simp)
  have hbytes : (planEffect [.busTransfer bytes] (started l s)).rx = incomingBytes s 1 bytes.length := by
    simp [planEffect, Prim.effect]
  have hevents : (planEvents s 1 [.busTransfer bytes]).flatten = transferEvents s 1 bytes := by
    simp [planEvents, primEvents]
  rw [hbytes] at hended hrx
  rw [hevents] at hended
  exact ⟨t, he, hended, hpins.trans (moved_transferByte_pins bytes _), hcfg, hrx⟩

/-! ## A byte on the wire (R71) -/

/-- R71: the panel captures the bits in the order in which they move. -/
theorem risingSamples_bitWave (b : Byte) (is : List Nat) : ∀ {p : Pins}, p.sck = .low →
    risingSamples p.sck (bitWave b is p) = is.map fun i => levelOfBit (b.getLsbD i) := by
  induction is with
  | nil => exact fun _ => rfl
  | cons i is ih =>
    intro p hp
    simp [bitWave, risingSamples, hp, ← ih (p := { p with sdo := levelOfBit (b.getLsbD i), sck := .low }) rfl]

theorem bitWave_lines (b : Byte) (is : List Nat) : ∀ (p q : Pins), q ∈ bitWave b is p →
    q.cs = p.cs ∧ q.dc = p.dc ∧ q.rst = p.rst ∧ q.bl = p.bl := by
  induction is with
  | nil => exact fun p q hq => absurd hq List.not_mem_nil
  | cons i is ih =>
    intro p q hq
    simp only [bitWave, List.mem_cons] at hq
    obtain rfl | rfl | rfl | hq := hq
    · exact ⟨rfl, rfl, rfl, rfl⟩
    · exact ⟨rfl, rfl, rfl, rfl⟩
    · exact ⟨rfl, rfl, rfl, rfl⟩
    · exact (ih _ q hq :)

/-- R71: the last pin change of a bit is the fall of the clock. -/
theorem byteWave_ends_low (b : Byte) (p : Pins) : ((byteWave b p).getLastD p).sck = .low := rfl

/-! ## The step -/

/-- R88: the sequencer's step while an operation runs. -/
theorem step_of_running {s : State} {plist : List Prim} {upc bidx : Nat} (hreset : s.resetInput = false)
    (hseq : s.seq = .running plist upc bidx) : step s = .next (seqStep s) := by
  simp [step, hreset, hseq]

/-- R17: the latches change at acceptance alone. -/
theorem seqKept_latches (l : Latches) : SeqKept (fun s => s.latches = l) where
  seq _ _ h := h
  rx _ _ h := h
  receive _ _ h := h
  elapse _ h := h
  tick _ h := h
  sdo _ _ h := h
  drive _ _ _ h := h
  write _ _ _ h := h
  transfer _ _ _ h := h
  wait _ _ h := h
  cfgWrite reg v s h := (writeCfg_latches reg v s).trans h
  fault _ h := h

theorem submitFirst_instr {bytes rest : List Byte} {i : Instr} (hdecode : decode bytes = .instr i rest)
    (next : List Byte → List HostMove) (s : State) : submitFirst bytes next s = exec i (s.withProgram (next rest)) := by
  simp [submitFirst, hdecode]

end Sys2Proof.Machine

namespace Sys2Proof.Proofs
open Sys2Proof.Machine Sys2Proof.Safety

/-- Settles O6: the primitive list of each well-formed instruction is the expansion of its descriptor's latches. -/
theorem meaningsRunTheExpansion : Obligations.MeaningsRunTheExpansion :=
  fun _ s hw => exec_eq_operate_planOf hw s

/-- Settles O8: the step is the host's turn, which submits the bytes. -/
theorem stepRunsDecodedInstruction : Obligations.StepRunsDecodedInstruction := by
  intro s bytes rest ps i hreset hidle hjob hprogram hdecode
  have hbytes : bytes ≠ [] := by
    rintro rfl
    cases hdecode
  exact (step_submit hreset hidle hjob hprogram hbytes).trans (submitFirst_instr hdecode _ _)

/-- Settles O9: no sequencer step touches the latches or the host's program. -/
theorem runningStepIsTheSequencers : Obligations.RunningStepIsTheSequencers := by
  intro s plist upc bidx hreset hseq
  have hsetting : SameSetting s (seqStep s) := (seqKept_sameSetting s).seqStep ⟨rfl, rfl, rfl⟩
  exact ⟨_, step_of_running hreset hseq, rfl, hsetting.program, (seqKept_latches s.latches).seqStep rfl⟩

/-- Settles O29: an operation's list does not depend on the two parameters, and no primitive reads them. -/
theorem variantAndClockRateHaveNoEffect : Obligations.VariantAndClockRateHaveNoEffect := by
  intro i s t v f he
  obtain ⟨l, plan, hs, hretuned⟩ := exec_operates_alike i (s := s) (t := s.retuned v f) rfl rfl
  exact hretuned.trans (operate_retuned v f (hs ▸ he))

/-- Settles O30: each is the operation of one `Drive`. -/
theorem pinOperationsDriveOneLine : Obligations.PinOperationsDriveOneLine :=
  fun _ => ⟨operate_drive _, operate_drive _, operate_drive _, operate_drive _⟩

/-- Settles O32: WRITE is the operation of one `BusWrite`. -/
theorem writeSendsItsBytes : Obligations.WriteSendsItsBytes := by
  intro s bytes h
  obtain ⟨t, he, hended, hpins, hcfg, hrx⟩ := operate_busWrite ⟨0x05, 0, lenOf bytes, bytes⟩ h
  obtain ⟨hnone, hsome⟩ := pinsAfterBytes_cases bytes (started ⟨0x05, 0, lenOf bytes, bytes⟩ s)
  exact ⟨t, he, hended, hpins ▸ hnone, hpins ▸ hsome, hcfg, hrx⟩

/-- Settles O33: TRANSFER is the operation of one `BusTransfer`. -/
theorem transferExchangesBytes : Obligations.TransferExchangesBytes := by
  intro s bytes h
  obtain ⟨t, he, hended, hpins, hcfg, hrx⟩ := operate_busTransfer ⟨0x06, 0, lenOf bytes, bytes⟩ h
  obtain ⟨hnone, hsome⟩ := pinsAfterBytes_cases bytes (started ⟨0x06, 0, lenOf bytes, bytes⟩ s)
  exact ⟨t, he, hended, hpins ▸ hnone, hpins ▸ hsome, hcfg, hrx⟩

/-- Settles O45: bit by bit along the order of R71. -/
theorem byteOnTheWire : Obligations.ByteOnTheWire :=
  ⟨fun b p hp => ⟨risingSamples_bitWave b bitOrder hp, bitWave_lines b bitOrder p, byteWave_ends_low b p⟩,
    fun sdi i _ => by rw [captureSdi_eq]⟩

end Sys2Proof.Proofs
end

section
/-! PROOFS. What the events of a frame say of the pins at each byte (R91), the frame of WRITE_DATA (R93), and the operations
of the command framer. -/

namespace Sys2Proof.Machine
open Sys2Proof.Safety

/-! ## The pins along COMMAND's frame (R91) -/

/-- R20: bytes sent leave every control line where it is. -/
theorem lineLevel_map_tx (start : Level) (line : ControlLine) (bytes : List Byte) :
    lineLevel start line (bytes.map Event.tx) = start := by
  induction bytes with
  | nil => rfl
  | cons b bytes ih => exact ih

/-- R90: what comes before a byte of COMMAND's frame: the two drives before the opcode, or all up to `DC=1` and the payload
bytes already sent. -/
theorem commandFrame_before_tx {opcode b : Byte} {payload : List Byte} {before after : List Event}
    (h : [.drive .cs .low, .drive .dc .low, .tx opcode, .drive .dc .high] ++ payload.map Event.tx =
      before ++ Event.tx b :: after) :
    before = [.drive .cs .low, .drive .dc .low] ∨
    ∃ sent : List Byte, before = [.drive .cs .low, .drive .dc .low, .tx opcode, .drive .dc .high] ++ sent.map Event.tx := by
  obtain ⟨mid, hbefore, hmid⟩ | ⟨mid, hlead, hmid⟩ := List.append_eq_append_iff.mp h
  · obtain ⟨sent, _, -, hsent, -⟩ := List.map_eq_append_iff.mp hmid
    exact .inr ⟨sent, by rw [hbefore, hsent]⟩
  · cases mid with
    | nil => exact .inr ⟨[], by simpa using hlead.symm⟩
    | cons e mid =>
      obtain ⟨rfl, -⟩ := List.cons_eq_cons.mp hmid
      obtain ⟨hbefore, -, -⟩ : before = [.drive .cs .low, .drive .dc .low] ∧ b = opcode ∧ mid = [.drive .dc .high] := by
        simpa [List.cons_eq_append_iff] using hlead
      exact .inl hbefore

/-- R91: at each byte of COMMAND's frame `CS` is low, and `DC` is low exactly at the first. -/
theorem commandFrame_levels_at_tx {opcode b : Byte} {payload : List Byte} {before after : List Event}
    (h : [.drive .cs .low, .drive .dc .low, .tx opcode, .drive .dc .high] ++ payload.map Event.tx =
      before ++ Event.tx b :: after) :
    lineLevel .high .cs before = .low ∧ (lineLevel .high .dc before = .low ↔ ∀ x, Event.tx x ∉ before) := by
  obtain rfl | ⟨sent, rfl⟩ := commandFrame_before_tx h
  · simp [lineLevel]
  · rw [lineLevel_append, lineLevel_append, lineLevel_map_tx, lineLevel_map_tx]
    exact ⟨rfl, iff_of_false (by simp [lineLevel]) fun hnone => hnone opcode (by simp)⟩

/-! ## WRITE_DATA (R93) -/

/-- R93: the primitive list of WRITE_DATA. -/
def writeDataPlan (bytes : List Byte) : List Prim :=
  [.drive .dc .high, .drive .cs .low, .busWrite bytes, .drive .cs .high]

theorem execWriteData_eq (bytes : List Byte) (s : State) :
    exec (.writeData bytes) s = operate ⟨0x12, 0, lenOf bytes, bytes⟩ (writeDataPlan bytes) s := rfl

theorem writeDataPlan_events (bytes : List Byte) (s : State) :
    (planEvents s 1 (writeDataPlan bytes)).flatten =
      [.drive .dc .high, .drive .cs .low] ++ bytes.map Event.tx ++ [.drive .cs .high] := by
  simp [writeDataPlan, planEvents, primEvents]

theorem writeDataPlan_steps (bytes : List Byte) : planSteps (writeDataPlan bytes) + 1 = bytes.length + 6 := by
  simp [writeDataPlan, planSteps, Prim.steps]; omega

/-- R93: the frame leaves `CS` and `DC` high; bytes leave the clock low and `SDO` open (U19). -/
theorem writeDataPlan_pins (bytes : List Byte) (s : State) :
    (bytes = [] → (planEffect (writeDataPlan bytes) s).pins = { s.pins with cs := .high, dc := .high }) ∧
    (bytes ≠ [] → ∃ v, (planEffect (writeDataPlan bytes) s).pins =
      { s.pins with cs := .high, dc := .high, sck := .low, sdo := v }) := by
  constructor <;> intro h
  · simp [h, writeDataPlan, planEffect, Prim.effect, pinsAfterBytes, Pins.set]
  · exact ⟨_, by simp [h, writeDataPlan, planEffect, Prim.effect, pinsAfterBytes, Pins.set]; rfl⟩

end Sys2Proof.Machine

namespace Sys2Proof.Proofs
open Sys2Proof.Machine Sys2Proof.Safety

/-- Settles O34: COMMAND under its own name. -/
theorem commandSendsOneFrame : Obligations.CommandSendsOneFrame :=
  fun _ _ _ => operateCommand_ran

/-- Settles O36: the frame's events, and the levels before each of its bytes. -/
theorem commandFramingProperty : Obligations.CommandFramingProperty := by
  intro s opcode payload h
  obtain ⟨t, he, hran⟩ := operateCommand_ran h
  exact ⟨t, _, he, hran.ended.trace, rfl, by simp, fun _ _ _ => commandFrame_levels_at_tx⟩

/-- Settles O37: READ_REGISTER under its own name. -/
theorem readRegisterSendsOneFrame : Obligations.ReadRegisterSendsOneFrame :=
  fun _ _ _ => operateRead_ran

/-- Settles O39: the list of WRITE_DATA when no fault is met. -/
theorem writeDataSendsOneFrame : Obligations.WriteDataSendsOneFrame := by
  intro s bytes h
  have hmem : ∀ p ∈ writeDataPlan bytes, (∀ reg v, p ≠ .cfgWrite reg v) ∧ ¬ fillsRx p := by simp [writeDataPlan, fillsRx]
  obtain ⟨t, he, hended, hcfg, hpins, hrx⟩ :=
    operate_ended ⟨0x12, 0, lenOf bytes, bytes⟩ (plan := writeDataPlan bytes) h fun p hp => (hmem p hp).1
  have hempty := planEffect_rx (fun p hp => (hmem p hp).2) (started ⟨0x12, 0, lenOf bytes, bytes⟩ s)
  rw [started_rx] at hempty
  rw [writeDataPlan_events, writeDataPlan_steps, hempty] at hended
  obtain ⟨hnone, hsome⟩ := writeDataPlan_pins bytes (started ⟨0x12, 0, lenOf bytes, bytes⟩ s)
  exact ⟨t, (execWriteData_eq bytes s).trans he, hended, fun hb => hpins.trans (hnone hb),
    fun hb => (hsome hb).imp fun _ hv => hpins.trans hv, hcfg, hrx.trans hempty⟩

end Sys2Proof.Proofs
end

section
/-! PROOFS. The reset sequencer (R100 to R102): the frames of HW_RESET and SW_RESET, and the times of their events. -/

namespace Sys2Proof.Machine
open Sys2Proof.Safety

/-! ## Times along an operation -/

/-- R70, R18: what an operation that neither writes a register nor reads bytes leaves when the oracle reports no fault, with
the times of its events and of its completion. -/
theorem operate_ended_timed {plan : List Prim} {s : State} (l : Latches) (h : NoFault plan s)
    (hmem : ∀ p ∈ plan, (∀ reg v, p ≠ .cfgWrite reg v) ∧ ¬ fillsRx p) :
    ∃ t, operate l plan s = .next t ∧
      Ended s t l (planEvents s 1 plan).flatten ⟨.ok, []⟩ (planSteps plan + 1) ∧
      t.pins = (planEffect plan (started l s)).pins ∧ t.cfg = s.cfg ∧ t.rx = [] ∧
      t.stamps = (planEffect plan (started l s)).stamps ∧ t.now = (planEffect plan (started l s)).now.later := by
  obtain ⟨t, he, hended, hcfg, hpins, hrx⟩ := operate_ended l h fun p hp => (hmem p hp).1
  have hempty : (planEffect plan (started l s)).rx = [] := planEffect_rx (fun p hp => (hmem p hp).2) (started l s)
  have ht : complete .ok _ (planEffect plan (started l s)).tick = t :=
    Host.Outcome.next.inj ((operate_noFault l plan s h).symm.trans he)
  rw [hempty] at hended hrx
  exact ⟨t, he, hended, hpins, hcfg, hrx, ht ▸ rfl, ht ▸ rfl⟩

/-- R78: from before a wait to the step after it passes at least the wait's bound. -/
theorem Time.ms_add_le_later_wait_later (d : Half) (t : Time) : t.ms + d.toNat ≤ (t.later.wait d).later.ms :=
  calc t.ms + d.toNat ≤ t.later.ms + d.toNat := by gcongr; exact t.ms_le_later
    _ = (t.later.wait d).ms := (Time.ms_wait d t.later).symm
    _ ≤ (t.later.wait d).later.ms := Time.ms_le_later _

/-! ## HW_RESET (R100) -/

/-- R100: the primitive list of HW_RESET. -/
def hwResetPlan (c : Cfg) : List Prim :=
  [.drive .rst .low, .wait c.tRstLow, .drive .rst .high, .wait c.tRstHigh]

theorem exec_hwReset_eq (s : State) : exec .hwReset s = operate ⟨0x20, 0, 0, []⟩ (hwResetPlan s.cfg) s := rfl

/-- R72, R78: each event is stamped after the time that its step lets pass and, for a wait, its bound. -/
theorem hwResetPlan_stamps (c : Cfg) (s : State) : (planEffect (hwResetPlan c) s).stamps = s.stamps ++
    [s.now.later, s.now.later.later.wait c.tRstLow, (s.now.later.later.wait c.tRstLow).later,
      (s.now.later.later.wait c.tRstLow).later.later.wait c.tRstHigh] := by
  simp [hwResetPlan, planEffect, Prim.effect]

/-- R100, R78: `RST` is low for at least `CR1`, and then high for at least `CR2` before the completing step. -/
theorem hwResetPlan_times (c : Cfg) (s : State) : ∃ low w1 high w2 : Time,
    (planEffect (hwResetPlan c) s).stamps = s.stamps ++ [low, w1, high, w2] ∧ s.now.ms ≤ low.ms ∧
    low.ms + c.tRstLow.toNat ≤ high.ms ∧ high.ms + c.tRstHigh.toNat ≤ (planEffect (hwResetPlan c) s).now.later.ms :=
  ⟨_, _, _, _, hwResetPlan_stamps c s, Time.ms_le_later _,
    Time.ms_add_le_later_wait_later _ _, Time.ms_add_le_later_wait_later _ _⟩

/-- R100: HW_RESET when no fault is met, with the times of its four events. -/
theorem exec_hwReset_ran {s : State} (h : NoFault (hwResetPlan s.cfg) s) : ∃ (t : State) (low w1 high w2 : Time),
    exec .hwReset s = .next t ∧
    Ended s t ⟨0x20, 0, 0, []⟩
      [.drive .rst .low, .wait s.cfg.tRstLow, .drive .rst .high, .wait s.cfg.tRstHigh] ⟨.ok, []⟩ 6 ∧
    t.pins = { s.pins with rst := .high } ∧ t.cfg = s.cfg ∧ t.rx = [] ∧ t.stamps = s.stamps ++ [low, w1, high, w2] ∧
    s.now.ms ≤ low.ms ∧ low.ms + s.cfg.tRstLow.toNat ≤ high.ms ∧ high.ms + s.cfg.tRstHigh.toNat ≤ t.now.ms := by
  obtain ⟨t, he, hended, hpins, hcfg, hrx, hstamps, hnow⟩ :=
    operate_ended_timed ⟨0x20, 0, 0, []⟩ h (by simp [hwResetPlan, fillsRx])
  obtain ⟨low, w1, high, w2, htimes, hstart, hlow, hhigh⟩ := hwResetPlan_times s.cfg (started ⟨0x20, 0, 0, []⟩ s)
  exact ⟨t, low, w1, high, w2, (exec_hwReset_eq s).trans he, hended, hpins, hcfg, hrx, hstamps.trans htimes,
    s.now.ms_le_later.trans hstart, hlow, hnow ▸ hhigh⟩

/-! ## SW_RESET (R101) -/

/-- R101: the primitive list of SW_RESET, COMMAND's and a wait. -/
def swResetPlan (c : Cfg) : List Prim := commandPlan 0x01 [] ++ [.wait c.tSwrst]

theorem exec_swReset_eq (s : State) : exec .swReset s = operate ⟨0x21, 0, 0, []⟩ (swResetPlan s.cfg) s := rfl

/-- R90, R101: the wait leaves the pins as COMMAND's frame left them. -/
theorem swResetPlan_pins (c : Cfg) (s : State) :
    ∃ v, (planEffect (swResetPlan c) s).pins = { s.pins with cs := .high, dc := .high, sck := .low, sdo := v } :=
  commandPlan_pins 0x01 [] s

/-- R73, R78: one step lets time pass between the opcode byte and the next drive, the one that finds no byte left. -/
theorem swResetPlan_stamps (c : Cfg) (s : State) : (planEffect (swResetPlan c) s).stamps = s.stamps ++
    [s.now.later, s.now.later.later, s.now.later.later.later, s.now.later.later.later.later.later,
      s.now.later.later.later.later.later.later,
      s.now.later.later.later.later.later.later.later.wait c.tSwrst] := by
  simp [swResetPlan, commandPlan_nil, planEffect, Prim.effect, moved]

/-- R101, R78: after the opcode byte passes at least `CR3` before the completing step. -/
theorem swResetPlan_times (c : Cfg) (s : State) : ∃ cs0 dc0 sent dc1 cs1 w : Time,
    (planEffect (swResetPlan c) s).stamps = s.stamps ++ [cs0, dc0, sent, dc1, cs1, w] ∧ s.now.ms ≤ sent.ms ∧
    sent.ms + c.tSwrst.toNat ≤ (planEffect (swResetPlan c) s).now.later.ms := by
  have hlater (t : Time) : t.ms ≤ t.later.later.later.ms :=
    t.ms_le_later.trans (t.later.ms_le_later.trans (Time.ms_le_later _))
  exact ⟨_, _, _, _, _, _, swResetPlan_stamps c s, hlater _,
    (add_le_add_left (hlater _) _).trans (Time.ms_add_le_later_wait_later _ _)⟩

/-- R101: SW_RESET when no fault is met, with the times of its six events. -/
theorem exec_swReset_ran {s : State} (h : NoFault (swResetPlan s.cfg) s) :
    ∃ (t : State) (cs0 dc0 sent dc1 cs1 w : Time), exec .swReset s = .next t ∧
    Ended s t ⟨0x21, 0, 0, []⟩
      [.drive .cs .low, .drive .dc .low, .tx 0x01, .drive .dc .high, .drive .cs .high, .wait s.cfg.tSwrst] ⟨.ok, []⟩ 9 ∧
    (∃ v, t.pins = { s.pins with cs := .high, dc := .high, sck := .low, sdo := v }) ∧ t.cfg = s.cfg ∧ t.rx = [] ∧
    t.stamps = s.stamps ++ [cs0, dc0, sent, dc1, cs1, w] ∧
    s.now.ms ≤ sent.ms ∧ sent.ms + s.cfg.tSwrst.toNat ≤ t.now.ms := by
  obtain ⟨t, he, hended, hpins, hcfg, hrx, hstamps, hnow⟩ :=
    operate_ended_timed ⟨0x21, 0, 0, []⟩ h (by simp [swResetPlan, commandPlan_nil, fillsRx])
  obtain ⟨v, hv⟩ := swResetPlan_pins s.cfg (started ⟨0x21, 0, 0, []⟩ s)
  obtain ⟨cs0, dc0, sent, dc1, cs1, w, htimes, hstart, hsent⟩ := swResetPlan_times s.cfg (started ⟨0x21, 0, 0, []⟩ s)
  exact ⟨t, cs0, dc0, sent, dc1, cs1, w, (exec_swReset_eq s).trans he, hended, ⟨v, hpins.trans hv⟩, hcfg, hrx,
    hstamps.trans htimes, s.now.ms_le_later.trans hstart, hnow ▸ hsent⟩

end Sys2Proof.Machine

namespace Sys2Proof.Proofs
open Sys2Proof.Machine Sys2Proof.Safety

/-- Settles O40: the two waits, one after the other. -/
theorem hwResetPulsesTheLine : Obligations.HwResetPulsesTheLine := by
  intro s h
  obtain ⟨t, low, _, high, _, he, hended, hpins, hcfg, hrx, -, hstart, hlow, hhigh⟩ := exec_hwReset_ran h
  have hnow : s.now.ms + s.cfg.tRstLow.toNat + s.cfg.tRstHigh.toNat ≤ t.now.ms := by linarith
  exact ⟨t, he, hended, hpins, hcfg, hrx, hnow⟩

/-- Settles O41: COMMAND's frame and the wait after it. -/
theorem swResetSendsAndWaits : Obligations.SwResetSendsAndWaits := by
  intro s h
  obtain ⟨t, _, _, sent, _, _, _, he, hended, hpins, hcfg, hrx, -, hstart, hsent⟩ := exec_swReset_ran h
  have hnow : s.now.ms + s.cfg.tSwrst.toNat ≤ t.now.ms := by linarith
  exact ⟨t, he, hended, hpins, hcfg, hrx, hnow⟩

/-- Settles O42: each wait is as long as its register says, and a legal register is not below its least value (R16). -/
theorem resetTimingProperties : Obligations.ResetTimingProperties := by
  rintro s ⟨-, hcr1, hcr2, hcr3, -⟩
  have hcr1 : (50 : ℝ) ≤ s.cfg.tRstLow.toNat := by exact_mod_cast hcr1
  have hcr2 : (50 : ℝ) ≤ s.cfg.tRstHigh.toNat := by exact_mod_cast hcr2
  have hcr3 : (120 : ℝ) ≤ s.cfg.tSwrst.toNat := by exact_mod_cast hcr3
  constructor <;> intro h
  · obtain ⟨t, low, w1, high, w2, he, hended, -, -, -, hstamps, -, hlow, hhigh⟩ := exec_hwReset_ran h
    exact ⟨t, low, w1, high, w2, he, hended.trace, hstamps, by linarith, by linarith⟩
  · obtain ⟨t, cs0, dc0, sent, dc1, cs1, w, he, hended, -, -, -, hstamps, -, hsent⟩ := exec_swReset_ran h
    exact ⟨t, cs0, dc0, sent, dc1, cs1, w, he, hended.trace, hstamps, by linarith⟩

end Sys2Proof.Proofs
end

section
/-! PROOFS. The INIT macro (spec/43_init_sequence.md): the places of its descriptors, and its call. -/

namespace Sys2Proof.Machine

/-! ## The places of the descriptors (R112) -/

@[simp] theorem length_diagReads (p : Params) (flag : Bool) :
    (diagReads p flag).length = if flag then p.diagList.length else 0 := by
  cases flag <;> simp [diagReads]

theorem getElem?_diagReads {p : Params} {k : Nat} {d : Byte × Half} (hd : p.diagList[k]? = some d) :
    (diagReads p true)[k]? = some (.readRegister d.1 d.2) := by
  simp [diagReads, hd]

/-- An element of a segment of a list, found at the segment's start and the element's place in it. -/
theorem getElem?_segment {α : Type} {before segment : List α} {start k : Nat} {a : α} (hstart : start = before.length)
    (ha : segment[k]? = some a) (after : List α) : (before ++ segment ++ after)[start + k]? = some a := by
  obtain ⟨hk, -⟩ := List.getElem?_eq_some_iff.mp ha
  rw [hstart, List.append_assoc, List.getElem?_append_right (Nat.le_add_right _ _), Nat.add_sub_cancel_left,
    List.getElem?_append_left hk, ha]

section
variable (p : Params) (pre post : Bool)

/-- R112: each read that is asked for adds the length of `DIAG_LIST`. -/
theorem length_initExpansion : (initExpansion p pre post).length =
    2 + p.initTable.length + ((if pre then 1 else 0) + (if post then 1 else 0)) * p.diagList.length := by
  simp only [initExpansion, List.length_append, List.length_map, length_diagReads, List.length_cons, List.length_nil,
    Nat.add_mul, ite_mul, one_mul, zero_mul]
  ring

/-- R112, R113: the diagnostic reads before the table come right after the two resets. -/
theorem getElem?_initExpansion_read_before {k : Nat} {d : Byte × Half} (hd : p.diagList[k]? = some d) :
    (initExpansion p true post)[2 + k]? = some (.readRegister d.1 d.2) := by
  rw [initExpansion, List.append_assoc]
  exact getElem?_segment rfl (getElem?_diagReads hd) _

/-- R112: the table comes after the diagnostic reads before it, where there are any. -/
theorem getElem?_initExpansion_table {i : Nat} {e : Byte × List Byte} (he : p.initTable[i]? = some e) :
    (initExpansion p pre post)[2 + (if pre then p.diagList.length else 0) + i]? = some (.command e.1 e.2) :=
  getElem?_segment (by simp; omega) (by simp [he]) _

/-- R112, R113: the diagnostic reads after the table come last. -/
theorem getElem?_initExpansion_read_after {k : Nat} {d : Byte × Half} (hd : p.diagList[k]? = some d) :
    (initExpansion p pre true)[2 + (if pre then p.diagList.length else 0) + p.initTable.length + k]? =
      some (.readRegister d.1 d.2) := by
  rw [initExpansion, ← List.append_nil (_ ++ _ ++ _ ++ diagReads p true)]
  exact getElem?_segment (by simp; omega) (getElem?_diagReads hd) _

end

/-! ## The call -/

/-- R88: with no macro in progress, a call that is the host's next move is made once time has passed. -/
theorem step_call {s : State} {m : Macro} {ps : List HostMove} (hreset : s.resetInput = false) (hidle : s.seq = .idle)
    (hjob : s.host.job = none) (hprogram : s.host.program = .call m :: ps) :
    step s = callMacro m (s.elapse.withProgram ps) := by
  rw [step_of_idle hreset hidle, hostAct, State.elapse_host, hjob, hprogram]

section
variable {pre post : Bool} {s : State}

/-- R111 (b), D25: a table that does not end as it must is refused, whatever `DIAG_LIST` is. -/
theorem callMacro_init_table_outside (htable : initTableOk s.params.initTable = false) :
    callMacro (.init pre post) s = .refused .initTableOutsidePremises := by
  simp [callMacro, htable]

/-- U17: with the table inside its premises, an opcode of `DIAG_LIST` outside the four is refused. -/
theorem callMacro_init_diag_outside (htable : initTableOk s.params.initTable = true)
    (hdiag : diagListOk s.params.diagList = false) :
    callMacro (.init pre post) s = .refused .diagListOutsidePremises := by
  simp [callMacro, htable, hdiag]

theorem callMacro_init_inside (htable : initTableOk s.params.initTable = true)
    (hdiag : diagListOk s.params.diagList = true) :
    callMacro (.init pre post) s = .next (s.withJob (some ⟨.init pre post, 0⟩)) := by
  simp [callMacro, htable, hdiag]

end

end Sys2Proof.Machine

namespace Sys2Proof.Proofs
open Sys2Proof.Machine

/-- Settles O52, segment by segment of the expansion. -/
theorem initExpansionInOrder : Obligations.InitExpansionInOrder := by
  intro p pre post
  exact ⟨length_initExpansion p pre post, rfl, rfl, fun _ _ => getElem?_initExpansion_read_before p post,
    fun _ _ => getElem?_initExpansion_table p pre post, fun _ _ => getElem?_initExpansion_read_after p pre⟩

/-- Settles O57: the step is the call, which looks at the table first and at `DIAG_LIST` second. -/
theorem initStartsInsideItsPremises : Obligations.InitStartsInsideItsPremises := by
  intro s pre post ps hreset hidle hjob hprogram
  rw [step_call hreset hidle hjob hprogram]
  split_ifs with htable hdiag
  · exact callMacro_init_table_outside htable
  · exact callMacro_init_diag_outside (Bool.eq_true_of_not_eq_false htable) hdiag
  · exact callMacro_init_inside (Bool.eq_true_of_not_eq_false htable) (Bool.eq_true_of_not_eq_false hdiag)

end Sys2Proof.Proofs
end

section
/-! PROOFS. The CLEAR macro (spec/44_window_fill.md): its counts, its call, and what a run of it sends. -/

namespace Sys2Proof.Machine
open Sys2Proof.Safety

/-! ## The window and the fill buffer (R120, R123, R124) -/

theorem AddressWindow.valid_iff (w : AddressWindow) :
    w.valid = true ↔ w.x0.toNat ≤ w.x1.toNat ∧ w.y0.toNat ≤ w.y1.toNat := by
  simp [AddressWindow.valid]

theorem AddressWindow.valid_eq_false_iff (w : AddressWindow) :
    w.valid = false ↔ w.x1.toNat < w.x0.toNat ∨ w.y1.toNat < w.y0.toNat := by
  rw [← Bool.not_eq_true, valid_iff, not_and_or, not_le, not_le]

/-- R120: over the integers the count is the product of the two extents, where neither is negative. -/
theorem AddressWindow.pixelCount_cast {w : AddressWindow} (hw : w.valid = true) :
    (w.pixelCount : Int) = ((w.x1.toNat : Int) - w.x0.toNat + 1) * ((w.y1.toNat : Int) - w.y0.toNat + 1) := by
  obtain ⟨hx, hy⟩ := w.valid_iff.mp hw
  simp only [AddressWindow.pixelCount, Nat.cast_mul, Nat.cast_add, Nat.cast_one, Nat.cast_sub hx, Nat.cast_sub hy]

theorem AddressWindow.pixelCount_pos (w : AddressWindow) : 1 ≤ w.pixelCount :=
  Nat.mul_pos (Nat.succ_pos _) (Nat.succ_pos _)

/-- R120: each extent is that of 16-bit coordinates. -/
theorem AddressWindow.pixelCount_le (w : AddressWindow) : w.pixelCount ≤ 2 ^ 32 := by
  have hx : w.x1.toNat < 2 ^ 16 := w.x1.isLt
  have hy : w.y1.toNat < 2 ^ 16 := w.y1.isLt
  calc w.pixelCount ≤ 2 ^ 16 * 2 ^ 16 := Nat.mul_le_mul (by omega) (by omega)
    _ = 2 ^ 32 := rfl

theorem AddressWindow.frames_le (w : AddressWindow) : w.frames ≤ 2 ^ 26 :=
  Nat.div_le_of_le_mul w.pixelCount_le

/-- The two elements of each copy of a pair, found in a row of its copies. -/
theorem getElem?_flatten_replicate_pair {α : Type} (a b : α) (n : Nat) : ∀ k, k < n →
    (List.replicate n [a, b]).flatten[2 * k]? = some a ∧ (List.replicate n [a, b]).flatten[2 * k + 1]? = some b := by
  induction n with
  | zero => exact fun k hk => absurd hk (Nat.not_lt_zero k)
  | succ n ih =>
    intro k hk
    cases k with
    | zero => exact ⟨rfl, rfl⟩
    | succ k => exact ih k (Nat.lt_of_succ_lt_succ hk)

/-- R123: the colour's high byte first, in each of the 32 repetitions. -/
theorem getElem?_fillBuffer (colour : Half) (k : Nat) (hk : k < 32) :
    (fillBuffer colour)[2 * k]? = some (colour.extractLsb' 8 8) ∧
      (fillBuffer colour)[2 * k + 1]? = some (colour.extractLsb' 0 8) :=
  getElem?_flatten_replicate_pair _ _ 32 k hk

@[simp] theorem length_fillBuffer (colour : Half) : (fillBuffer colour).length = 64 := rfl

@[simp] theorem length_encodeXY (a b : Half) : (encodeXY a b).length = 4 := rfl

/-! ## The descriptors (R125) -/

section
variable (w : AddressWindow) (colour : Half)

theorem length_clearExpansion : (clearExpansion w colour).length = w.frames + 4 := by
  simp [clearExpansion]

/-- R51, R53: a descriptor of four header bytes and its inline bytes. -/
theorem length_encode_command (opcode : Byte) (payload : List Byte) :
    (encode (.command opcode payload)).length = 4 + payload.length := by
  simp [encode]

theorem length_encode_writeData (bytes : List Byte) : (encode (.writeData bytes)).length = 4 + bytes.length := by
  simp [encode]

/-- R122, R124: the coordinates of two commands, and 64 bytes for each data frame. -/
theorem inlineBytes_clearExpansion :
    ((clearExpansion w colour).map fun i => (encode i).length - 4).sum = w.frames * 64 + 8 := by
  simp [clearExpansion, length_encode_command, length_encode_writeData]
  omega

theorem countP_command_clearExpansion :
    (clearExpansion w colour).countP (fun i => i.baseMnemonic == "COMMAND") = 4 := by
  simp [clearExpansion, Instr.baseMnemonic, List.countP_replicate]

end

/-! ## The call (R126, R128) -/

section
variable {w : AddressWindow} {colour : Half} {s : State}

theorem callMacro_clear_valid (hw : w.valid = true) :
    callMacro (.clear w colour) s = .next (s.withJob (some ⟨.clear w colour, 0⟩)) := by
  simp [callMacro, hw]

theorem callMacro_clear_invalid (hw : w.valid = false) :
    callMacro (.clear w colour) s = .next (endMacro .unsupportedOperation s) := by
  simp [callMacro, hw]

end

/-! ## A macro whose descriptors only send -/

/-- An operation that fits `LEN`, hands over no bytes (R18), writes no configuration register (R137) and leaves `RST` alone
(R11). -/
structure SendsOnly (i : Instr) : Prop where
  fits : fitsLen i.inlineBytes = true
  noBytes : ¬ returnsBytes i
  noRegister : i.baseMnemonic ≠ "CFG_WRITE"
  noReset : drives i .rst = false

theorem sendsOnly_command {opcode : Byte} {payload : List Byte} (hfit : fitsLen payload = true) :
    SendsOnly (.command opcode payload) :=
  ⟨hfit, by simp [returnsBytes, Instr.baseMnemonic], by simp [Instr.baseMnemonic], rfl⟩

theorem sendsOnly_writeData {bytes : List Byte} (hfit : fitsLen bytes = true) : SendsOnly (.writeData bytes) :=
  ⟨hfit, by simp [returnsBytes, Instr.baseMnemonic], by simp [Instr.baseMnemonic], rfl⟩

/-- R74, R137: the list of an instruction that only sends reads no byte and writes no register. -/
theorem SendsOnly.mem_planOf {i : Instr} (hi : SendsOnly i) (s : State) (p : Prim) (hp : p ∈ planOf i s) :
    (∀ reg v, p ≠ .cfgWrite reg v) ∧ ¬ fillsRx p := by
  refine ⟨cfgWrite_notMem_planOf hi.fits hi.noRegister s p hp, ?_⟩
  have hpermits := (runsPlan_named hi.fits s).permitted p hp
  have hname : ¬ returnsBytes i.named := by
    rw [returnsBytes, (sameOperation_named i).baseMnemonic]
    exact hi.noBytes
  cases p with
  | drive _ _ | busWrite _ | wait _ | cfgWrite _ _ => exact not_false
  | busTransfer _ => exact absurd hpermits.2.1 hname
  | cfgRead _ => exact absurd hpermits hname

/-- R74, R137: the events of a list depend on the state only where it exchanges bytes or writes a register. -/
theorem planEvents_congr {plan : List Prim} (h : ∀ p ∈ plan, (∀ reg v, p ≠ .cfgWrite reg v) ∧ ¬ fillsRx p)
    (s t : State) : ∀ j k, planEvents s j plan = planEvents t k plan := by
  induction plan with
  | nil => exact fun _ _ => rfl
  | cons p ps ih =>
    obtain ⟨⟨hcfg, hrx⟩, h⟩ := List.forall_mem_cons.mp h
    intro j k
    have hp : primEvents s j p = primEvents t k p := by
      cases p with
      | drive _ _ | busWrite _ | wait _ | cfgRead _ => rfl
      | busTransfer _ => exact absurd trivial hrx
      | cfgWrite reg v => exact absurd rfl (hcfg reg v)
    rw [planEvents, planEvents, hp, ih h]

/-- The events of the primitive list of an instruction that starts in `s`. -/
def instrEvents (i : Instr) (s : State) : List Event := (planEvents s 1 (planOf i s)).flatten

theorem MacroKept.instrEvents_eq {s t : State} (h : MacroKept s t) {i : Instr} (hi : SendsOnly i) :
    instrEvents i t = instrEvents i s := by
  have hplan : planOf i t = planOf i s := by rw [planOf, planOf, h.cfg, h.params]
  rw [instrEvents, instrEvents, hplan, planEvents_congr (hi.mem_planOf s) t s 1 1]

/-- What a macro's descriptors that only send leave: what every descriptor of a macro does, `RST`, and a trace that has
grown by their events. -/
structure MacroSent (s t : State) (ev : List Event) : Prop extends MacroKept s t where
  rst : t.pins.rst = s.pins.rst
  sent : t.trace = s.trace ++ ev

theorem MacroSent.trans {s t u : State} {ev ev' : List Event} (h : MacroSent s t ev) (g : MacroSent t u ev') :
    MacroSent s u (ev ++ ev') :=
  ⟨h.toMacroKept.trans g.toMacroKept, g.rst.trans h.rst, by rw [g.sent, h.sent, List.append_assoc]⟩

/-- R62: one descriptor that only sends, of a macro that meets no fault. -/
theorem step_job_sends {s : State} {j : Job} {i : Instr} (hreset : s.resetInput = false) (hidle : s.seq = .idle)
    (hjob : s.host.job = some j) (hi : (j.call.expansion s.params)[j.index]? = some i) (hsends : SendsOnly i)
    (hquiet : ∀ k, k < planSteps (planOf i s) + 1 → (s.answerAt k).fault = false) :
    ∃ t, step s = .next t ∧ MacroSent s t (instrEvents i s) ∧
      t.host = s.host.advance (some { j with index := j.index + 1 }) [⟨.ok, []⟩] [] ∧
      ∀ k, t.answerAt k = s.answerAt (planSteps (planOf i s) + 1 + k) := by
  obtain ⟨t, _, hstep, hkept, -, -, hanswers⟩ := step_job_ok hreset hidle hjob hi hsends.fits hquiet
  have hexec : exec i s.elapse = .next t :=
    (Proofs.macroSubmitsItsNextDescriptor s j i hreset hidle hjob hi hsends.fits).symm.trans hstep
  obtain ⟨u, he, hended, -⟩ := operate_ended_timed (s := s.elapse) (latchesOf (encode i)) (noFault_of_answers hquiet)
    (hsends.mem_planOf s)
  obtain rfl : u = t :=
    Host.Outcome.next.inj (he.symm.trans ((exec_eq_operate_of_fitsLen hsends.fits s.elapse).symm.trans hexec))
  have hrst : u.pins.rst = s.pins.rst := (Proofs.onlyTheNamedOperationsDrive i s.elapse u hexec).1 .rst hsends.noReset
  have htrace : u.trace = s.trace ++ instrEvents i s :=
    hended.trace.trans (by rw [instrEvents, planEvents_congr (hsends.mem_planOf s) s.elapse s 1 1]; rfl)
  exact ⟨u, hstep, ⟨hkept, hrst, htrace⟩, hended.host.trans (HostAgent.receive_ok_of_job hjob rfl), hanswers⟩

/-- R62: the descriptors `is` that a macro has still to submit, all of which only send, and its end. -/
theorem run_job_sends (is : List Instr) : ∀ (s : State) (j : Job), s.resetInput = false → s.seq = .idle →
    s.host.job = some j → (j.call.expansion s.params).drop j.index = is → (∀ i ∈ is, SendsOnly i) →
    (∀ k, k < answersDrawn is s → (s.answerAt k).fault = false) →
    ∃ t, Sys2Proof.core.run (is.length + 1) s = .next t ∧ MacroSent s t (is.map (instrEvents · s)).flatten ∧
      t.host = s.host.advance none (List.replicate is.length ⟨.ok, []⟩) [.ok] := by
  induction is with
  | nil =>
    intro s j hreset hidle hjob hdrop _ _
    have hstep := step_job_ends hreset hidle hjob (List.drop_eq_nil_iff.mp hdrop)
    exact ⟨_, run_succ (M := Sys2Proof.core) hstep 0,
      ⟨⟨hidle, rfl, rfl, rfl, rfl, List.prefix_rfl⟩, rfl, (List.append_nil _).symm⟩,
      by simp [endMacro, HostAgent.advance]⟩
  | cons i is ih =>
    intro s j hreset hidle hjob hdrop hsends hquiet
    obtain ⟨hsends1, hsends⟩ := List.forall_mem_cons.mp hsends
    have hi : (j.call.expansion s.params)[j.index]? = some i := by
      rw [← Nat.add_zero j.index, ← List.getElem?_drop, hdrop]; rfl
    have hdrawn : answersDrawn (i :: is) s = planSteps (planOf i s) + 1 + answersDrawn is s := rfl
    rw [hdrawn] at hquiet
    obtain ⟨u, hstep, hsent, hhost, hanswers⟩ :=
      step_job_sends hreset hidle hjob hi hsends1 fun k hk => hquiet k (by omega)
    have hkept := hsent.toMacroKept
    obtain ⟨t, hrun, hsent', hhost'⟩ := ih u { j with index := j.index + 1 } (hkept.resetInput.trans hreset) hkept.seq
      (by simp [hhost]) (by simpa [hkept.params, Nat.add_comm] using congrArg (List.drop 1) hdrop) hsends
      (fun k hk => by
        rw [hkept.answersDrawn_eq] at hk
        rw [hanswers]
        exact hquiet _ (by omega))
    rw [List.map_congr_left fun i hi => hkept.instrEvents_eq (hsends i hi)] at hsent'
    exact ⟨t, (run_succ (M := Sys2Proof.core) hstep _).trans hrun, hsent.trans hsent',
      by rw [hhost', hhost, HostAgent.advance_advance]; rfl⟩

/-! ## What CLEAR sends (R125) -/

/-- R90: the events of COMMAND. -/
def commandFrame (opcode : Byte) (payload : List Byte) : List Event :=
  [.drive .cs .low, .drive .dc .low, .tx opcode, .drive .dc .high] ++ payload.map Event.tx ++ [.drive .cs .high]

/-- R93: the events of WRITE_DATA. -/
def dataFrame (bytes : List Byte) : List Event :=
  [.drive .dc .high, .drive .cs .low] ++ bytes.map Event.tx ++ [.drive .cs .high]

/-- R125: the events of CLEAR, descriptor by descriptor. -/
def clearEvents (w : AddressWindow) (colour : Half) : List Event :=
  commandFrame 0x2A (encodeXY w.x0 w.y0) ++ commandFrame 0x2B (encodeXY w.x1 w.y1) ++ commandFrame 0x2C [] ++
    (List.replicate w.frames (dataFrame (fillBuffer colour))).flatten ++ commandFrame 0x00 []

theorem length_commandFrame (opcode : Byte) (payload : List Byte) :
    (commandFrame opcode payload).length = payload.length + 5 := by
  simp [commandFrame]

theorem length_dataFrame (bytes : List Byte) : (dataFrame bytes).length = bytes.length + 3 := by
  simp [dataFrame]

theorem planOf_command (opcode : Byte) {payload : List Byte} (hfit : fitsLen payload = true) (s : State) :
    planOf (.command opcode payload) s = commandPlan opcode payload := by
  rw [planOf, encode, latchesOf_header, expand_command hfit]

theorem planOf_writeData (bytes : List Byte) (s : State) : planOf (.writeData bytes) s = writeDataPlan bytes := by
  rw [planOf, encode, latchesOf_header]
  rfl

theorem instrEvents_command (opcode : Byte) {payload : List Byte} (hfit : fitsLen payload = true) (s : State) :
    instrEvents (.command opcode payload) s = commandFrame opcode payload := by
  rw [instrEvents, planOf_command opcode hfit, commandPlan_events, commandFrame]

theorem instrEvents_writeData (bytes : List Byte) (s : State) : instrEvents (.writeData bytes) s = dataFrame bytes := by
  rw [instrEvents, planOf_writeData, writeDataPlan_events, dataFrame]

theorem fitsLen_encodeXY (a b : Half) : fitsLen (encodeXY a b) = true := rfl

theorem fitsLen_fillBuffer (colour : Half) : fitsLen (fillBuffer colour) = true := rfl

section
variable (w : AddressWindow) (colour : Half)

theorem sendsOnly_clearExpansion : ∀ i ∈ clearExpansion w colour, SendsOnly i := by
  intro i hi
  simp only [clearExpansion, List.mem_append, List.mem_cons, List.mem_replicate, List.not_mem_nil, or_false] at hi
  obtain ((rfl | rfl | rfl) | ⟨-, rfl⟩) | rfl := hi
  · exact sendsOnly_command (fitsLen_encodeXY _ _)
  · exact sendsOnly_command (fitsLen_encodeXY _ _)
  · exact sendsOnly_command rfl
  · exact sendsOnly_writeData (fitsLen_fillBuffer colour)
  · exact sendsOnly_command rfl

theorem instrEvents_clearExpansion (s : State) :
    ((clearExpansion w colour).map (instrEvents · s)).flatten = clearEvents w colour := by
  have hpair (opcode : Byte) (a b : Half) : instrEvents (.command opcode (encodeXY a b)) s =
      commandFrame opcode (encodeXY a b) := instrEvents_command opcode (fitsLen_encodeXY a b) s
  have hnone (opcode : Byte) : instrEvents (.command opcode []) s = commandFrame opcode [] :=
    instrEvents_command opcode rfl s
  simp [clearExpansion, clearEvents, hpair, hnone, instrEvents_writeData]

/-- R70: an answer for the acceptance, for each step and for the completion: 13 for each coordinate pair, 8 for a command
without payload, 70 for a data frame. -/
theorem answersDrawn_clearExpansion (s : State) : answersDrawn (clearExpansion w colour) s = 70 * w.frames + 42 := by
  have hpair (opcode : Byte) (a b : Half) : planSteps (planOf (.command opcode (encodeXY a b)) s) + 1 = 13 := by
    rw [planOf_command opcode (fitsLen_encodeXY a b), commandPlan_steps]
    rfl
  have hnone (opcode : Byte) : planSteps (planOf (.command opcode []) s) + 1 = 8 := by
    rw [planOf_command opcode rfl, commandPlan_steps, if_pos rfl]
  have hdata : planSteps (planOf (.writeData (fillBuffer colour)) s) + 1 = 70 := by
    rw [planOf_writeData, writeDataPlan_steps, length_fillBuffer]
  simp [answersDrawn, clearExpansion, hpair, hnone, hdata]
  omega

theorem length_clearEvents : (clearEvents w colour).length = w.frames * 67 + 28 := by
  simp [clearEvents, length_commandFrame, length_dataFrame]
  omega

end

end Sys2Proof.Machine

namespace Sys2Proof.Proofs
open Sys2Proof.Machine Sys2Proof.Safety

/-- Settles O53: the window's arithmetic, and the descriptors counted segment by segment. -/
theorem clearExpansionCounts : Obligations.ClearExpansionCounts := by
  intro w colour hw
  exact ⟨w.pixelCount_cast hw, w.pixelCount_pos, w.pixelCount_le, rfl, w.frames_le, length_fillBuffer colour,
    getElem?_fillBuffer colour, length_clearExpansion w colour, inlineBytes_clearExpansion w colour,
    countP_command_clearExpansion w colour⟩

/-- Settles O54: the step is the call, which ends the macro at once. -/
theorem clearRefusedWindow : Obligations.ClearRefusedWindow := by
  intro s w colour ps hreset hidle hjob hprogram hwindow
  refine ⟨s.now.later, s.now.ms_le_later, ?_⟩
  rw [step_call hreset hidle hjob hprogram, callMacro_clear_invalid (w.valid_eq_false_iff.mpr hwindow)]
  simp [endMacro, State.withProgram, State.withHost, State.elapse, State.withNow, hjob]

/-- Settles O55: the step is the call, which looks at the window alone. -/
theorem clearStartsWithAValidWindow : Obligations.ClearStartsWithAValidWindow := by
  intro s w colour ps hreset hidle hjob hprogram hx hy
  rw [step_call hreset hidle hjob hprogram]
  exact callMacro_clear_valid (w.valid_iff.mpr ⟨hx, hy⟩)

/-- Settles O56: every descriptor of CLEAR only sends, and each draws its answers. -/
theorem clearTraffic : Obligations.ClearTraffic := by
  intro s w colour hreset hidle hjob _ hquiet
  obtain ⟨t, hrun, hsent, hhost⟩ := run_job_sends (clearExpansion w colour) s ⟨.clear w colour, 0⟩ hreset hidle hjob rfl
    (sendsOnly_clearExpansion w colour) (by rwa [answersDrawn_clearExpansion])
  rw [length_clearExpansion] at hrun hhost
  rw [instrEvents_clearExpansion] at hsent
  exact ⟨t, clearEvents w colour, hrun, hsent.sent, rfl, length_clearEvents w colour, hhost, hsent.seq, hsent.cfg,
    hsent.rst, hsent.bl⟩

end Sys2Proof.Proofs
end

section
/-! PROOFS. Configuration access (spec/45_config_access.md): the register write with its pin `BL`, and the register read. -/

namespace Sys2Proof.Machine
open Sys2Proof.Safety

/-- R14, R16: legalising `CR0` keeps the bit that gives `BL`. -/
theorem Cfg.backlight_set_zero (c : Cfg) (v : Half) : (c.set 0 v).backlight = levelOfBit (v.getLsbD 0) := by
  simp [Cfg.set, Cfg.backlight, legal]

/-! ## CFG_WRITE (R135) -/

theorem exec_cfgWrite_eq (reg : Fin 4) (v : Half) (s : State) :
    exec (.cfgWrite reg v) s = operate ⟨0x50, BitVec.ofNat 8 reg, v, []⟩ [.cfgWrite reg v] s := rfl

/-- R137, R143: no answer of the oracle stops a register write. -/
theorem noFault_cfgWrite (reg : Fin 4) (v : Half) (s : State) : NoFault [.cfgWrite reg v] s := rfl

/-- R137: an operation of one register write. -/
theorem operate_cfgWrite (reg : Fin 4) (v : Half) (l : Latches) (s : State) :
    ∃ t, operate l [.cfgWrite reg v] s = .next t ∧
      Ended s t l (if reg = 0 then [.backlight (s.cfg.set reg v).backlight] else []) ⟨.ok, []⟩ 3 ∧
      t.cfg = s.cfg.set reg v ∧
      t.pins = (if reg = 0 then { s.pins with bl := (s.cfg.set reg v).backlight } else s.pins) ∧ t.rx = [] := by
  have hempty : (writeCfg reg v (started l s).tick).rx = [] := by simp
  have he := operate_noFault l [.cfgWrite reg v] s (noFault_cfgWrite reg v s)
  simp only [planEffect, Prim.effect, hempty] at he
  exact ⟨_, he, ended_of_grew (grew_writeCfg reg v _) [], by simp, by simp, by simp⟩

/-! ## CFG_READ (R136) -/

theorem exec_cfgRead_eq (reg : Fin 4) (s : State) :
    exec (.cfgRead reg) s = operate ⟨0x51, BitVec.ofNat 8 reg, 0, []⟩ [.cfgRead reg] s := rfl

/-- R137, R143: no answer of the oracle stops a register read. -/
theorem noFault_cfgRead (reg : Fin 4) (s : State) : NoFault [.cfgRead reg] s := rfl

/-- R137, R37: an operation of one register read; the register fills the empty result buffer, high byte first. -/
theorem operate_cfgRead (reg : Fin 4) (l : Latches) (s : State) :
    ∃ t, operate l [.cfgRead reg] s = .next t ∧
      Ended s t l [] ⟨.ok, be16 (s.cfg.get reg)⟩ 3 ∧
      t.pins = s.pins ∧ t.cfg = s.cfg ∧ t.rx = be16 (s.cfg.get reg) := by
  obtain ⟨t, he, hended, hcfg, hpins, hrx⟩ := operate_ended l (noFault_cfgRead reg s) (by simp)
  have hbytes : (planEffect [.cfgRead reg] (started l s)).rx = be16 (s.cfg.get reg) := by simp [planEffect, Prim.effect]
  have hkept : (planEffect [.cfgRead reg] (started l s)).pins = s.pins := by simp [planEffect, Prim.effect]
  rw [hbytes] at hended hrx
  exact ⟨t, he, hended, hpins.trans hkept, hcfg, hrx⟩

end Sys2Proof.Machine

namespace Sys2Proof.Proofs
open Sys2Proof.Machine Sys2Proof.Safety

/-- Settles O43: the operation of one register write, whose `BL` is bit 0 of the value. -/
theorem cfgWriteLegalises : Obligations.CfgWriteLegalises := by
  intro s reg v
  obtain ⟨t, he, hended, hcfg, hpins, hrx⟩ := operate_cfgWrite reg v ⟨0x50, BitVec.ofNat 8 reg, v, []⟩ s
  have hsame : t.cfg.get reg = legal reg v := hcfg ▸ Cfg.get_set_same s.cfg reg v
  have hother (r : Fin 4) (hr : r ≠ reg) : t.cfg.get r = s.cfg.get r := hcfg ▸ Cfg.get_set_other s.cfg v hr
  refine ⟨t, (exec_cfgWrite_eq reg v s).trans he, ?_, hsame, hother, ?_, hrx⟩
  · by_cases hreg : reg = 0
    · subst hreg
      rwa [Cfg.backlight_set_zero] at hended
    · rwa [if_neg hreg] at hended ⊢
  · rw [hpins]
    split_ifs with hreg
    · rw [hreg, Cfg.backlight_set_zero]
    · rfl

/-- Settles O44: the operation of one register read. -/
theorem cfgReadReturnsTheRegister : Obligations.CfgReadReturnsTheRegister := by
  intro s reg
  rw [exec_cfgRead_eq]
  exact operate_cfgRead reg _ s

end Sys2Proof.Proofs
end

section
/-! PROOFS. Where a fault stops an operation (R143, R144): the place of the faulting primitive in the list, the events and
answers up to it, and the control lines along the trace. -/

namespace Sys2Proof.Machine
open Sys2Proof.Safety

/-! ## A list and its parts -/

theorem faultSteps_append (fp : FaultPoints) (plan rest : List Prim) :
    faultSteps fp (plan ++ rest) = faultSteps fp plan ++ faultSteps fp rest := by
  induction plan with
  | nil => rfl
  | cons p ps ih => simp [faultSteps, ih]

@[simp] theorem length_transferEvents (s : State) (j : Nat) (bytes : List Byte) :
    (transferEvents s j bytes).length = bytes.length := by
  simp [transferEvents, incomingBytes]

theorem length_primEvents (s : State) (j : Nat) (p : Prim) : (primEvents s j p).length = p.steps := by
  cases p <;> simp [primEvents, Prim.steps]

theorem length_planEvents (s : State) (plan : List Prim) : ∀ j, (planEvents s j plan).length = stepCount plan := by
  induction plan with
  | nil => exact fun _ => rfl
  | cons p ps ih => intro j; simp [planEvents, stepCount, length_primEvents, ih]

theorem planEvents_append (s : State) (plan rest : List Prim) : ∀ j,
    planEvents s j (plan ++ rest) = planEvents s j plan ++ planEvents s (j + stepCount plan) rest := by
  induction plan with
  | nil => exact fun _ => rfl
  | cons p ps ih => intro j; simp [planEvents, stepCount, ih, Nat.add_assoc]

/-- The events of the steps before step `j` of the primitive `p`. -/
theorem take_planEvents (s : State) (i : Nat) (pre post : List Prim) {p : Prim} {j : Nat} (hj : j < p.steps) :
    (planEvents s i (pre ++ p :: post)).take (stepCount pre + j) =
      planEvents s i pre ++ (primEvents s (i + stepCount pre) p).take j := by
  rw [planEvents_append, ← length_planEvents s pre i, List.take_length_add_append, planEvents,
    List.take_append_of_le_length (by rw [length_primEvents]; exact hj.le)]

theorem fault_notMem_primEvents (s : State) (j : Nat) (p : Prim) : Event.fault ∉ (primEvents s j p).flatten := by
  cases p with
  | drive _ _ | busWrite _ | wait _ | cfgRead _ => simp [primEvents]
  | busTransfer bytes =>
    rw [primEvents, List.flatten_append, flatten_map_singleton_id]
    simp [transferEvents, List.mem_iff_getElem]
  | cfgWrite reg v => by_cases hreg : reg = 0 <;> simp [primEvents, hreg]

/-- R20, R144: a list that no answer stops, register writes and all, has no `FAULT` among its events. -/
theorem exists_grew_planEffect (plan : List Prim) (s : State) :
    ∃ ev, Grew s (planEffect plan s) ev (stepCount plan) ∧ Event.fault ∉ ev := by
  induction plan generalizing s with
  | nil => exact ⟨[], Grew.refl s, by simp⟩
  | cons p ps ih =>
    obtain ⟨ev, g, hev⟩ := ih (p.effect s)
    refine ⟨_, (grew_effect p s).trans g, ?_⟩
    rw [List.mem_append, not_or]
    exact ⟨fault_notMem_primEvents s 0 p, hev⟩

/-- The answers still to come after a list that no answer stops. -/
theorem answerAt_planEffect (plan : List Prim) (l : Latches) (s : State) (j : Nat) :
    (planEffect plan (started l s)).answerAt j = s.answerAt (stepCount plan + j + 1) := by
  obtain ⟨ev, g, -⟩ := exists_grew_planEffect plan (started l s)
  rw [g.answerAt, started_answerAt]

/-! ## The place of the first fault -/

/-- A list whose first part no answer stops goes on with the rest. -/
theorem runPlan_append_quiet (plan rest : List Prim) : ∀ s : State,
    quietFrom s 0 (faultSteps s.params.faultPoints plan) = true →
      runPlan (plan ++ rest) s = runPlan rest (planEffect plan s) := by
  induction plan with
  | nil => exact fun _ _ => rfl
  | cons p ps ih =>
    intro s h
    have g := grew_effect p s
    rw [faultSteps, quietFrom_append, Bool.and_eq_true] at h
    obtain ⟨hp, hps⟩ := h
    rw [List.cons_append, runPlan, run_quiet p s hp]
    exact ih _ (by rw [g.params, g.quietFrom]; simpa using hps)

/-- R143: the first fault is at step `j` of the primitive `p` exactly where `p` can fault, no step before faults, and that
step does. -/
theorem firstFault_append_iff {pre post : List Prim} {p : Prim} {s : State} {j : Nat} (hj : j < p.steps) :
    FirstFault (pre ++ p :: post) s (stepCount pre + j) ↔
      isFaultPoint s.params.faultPoints p = true ∧ (s.answerAt (stepCount pre + j + 1)).fault = true ∧
        NoFault pre s ∧
        quietFrom s (stepCount pre + 1) (List.replicate j (isFaultPoint s.params.faultPoints p)) = true := by
  have hlen := length_faultSteps s.params.faultPoints pre
  unfold FirstFault NoFault
  rw [faultSteps_append, ← hlen, List.getElem?_append_right (Nat.le_add_right _ _), Nat.add_sub_cancel_left,
    List.take_length_add_append, quietFrom_append, Bool.and_eq_true, faultSteps,
    List.getElem?_append_left (by simpa using hj), List.take_append_of_le_length (by simpa using hj.le),
    List.take_replicate, Nat.min_eq_left hj.le, Nat.add_comm 1]
  simp [hj]

/-- R144: an operation whose first fault is at step `j` of the primitive `p`: the primitives before it have their effects,
and `p` is stopped there. -/
theorem operate_stopped {pre post : List Prim} {p : Prim} {s : State} {j : Nat} (l : Latches) (hj : j < p.steps)
    (h : FirstFault (pre ++ p :: post) s (stepCount pre + j)) :
    NoFault pre s ∧ operate l (pre ++ p :: post) s = .next (p.stopped j (planEffect pre (started l s))) := by
  obtain ⟨hp, hfault, hpre, hquiet⟩ := (firstFault_append_iff hj).mp h
  obtain ⟨ev, g, -⟩ := exists_grew_planEffect pre (started l s)
  have hrun : p.run (planEffect pre (started l s)) = .inl (p.stopped j (planEffect pre (started l s))) := by
    refine run_fault p _ j hj ?_ ?_ ?_
    · rw [g.params]; exact hp
    · rw [hp] at hquiet
      rw [g.quietFrom, started_quietFrom]; exact hquiet
    · rw [answerAt_planEffect]; exact hfault
  rw [operate_eq, runPlan_append_quiet _ _ _ (quietFrom_started l s pre hpre), runPlan, hrun]
  exact ⟨hpre, rfl⟩

/-- R143: an operation that faults has a primitive that can. -/
theorem firstFault_exists_faultPoint {plan : List Prim} {s : State} {k : Nat} (h : FirstFault plan s k) :
    ∃ p ∈ plan, isFaultPoint s.params.faultPoints p = true := by
  obtain ⟨hk, -, -⟩ := h
  have hmem : true ∈ faultSteps s.params.faultPoints plan := List.mem_of_getElem? hk
  clear hk
  induction plan with
  | nil => simp [faultSteps] at hmem
  | cons p ps ih =>
    rw [faultSteps, List.mem_append, List.mem_replicate] at hmem
    obtain ⟨-, hp⟩ | hps := hmem
    · exact ⟨p, by simp, hp.symm⟩
    · obtain ⟨q, hq, hpoint⟩ := ih hps
      exact ⟨q, by simp [hq], hpoint⟩

/-- R143: a `Drive` or a `Wait` is one step, and its fault leaves the state of the list before it. -/
theorem operate_pinFault {pre post : List Prim} {p : Prim} {s : State} (l : Latches)
    (hp : (∃ line lv, p = .drive line lv) ∨ ∃ d, p = .wait d) (h : FirstFault (pre ++ p :: post) s (stepCount pre)) :
    operate l (pre ++ p :: post) s = .next (transportFault (planEffect pre (started l s)).tick) := by
  obtain ⟨line, lv, rfl⟩ | ⟨d, rfl⟩ := hp
  · exact (operate_stopped (p := .drive line lv) (j := 0) l Nat.one_pos h).2
  · exact (operate_stopped (p := .wait d) (j := 0) l Nat.one_pos h).2

theorem planOf_cfgWrite (reg : Fin 4) (v : Half) (s : State) : planOf (.cfgWrite reg v) s = [.cfgWrite reg v] := by
  rw [planOf, encode, latchesOf_header_nil]
  fin_cases reg <;> rfl

/-- R137, R143: an operation that can fault writes no register. -/
theorem planOf_ne_cfgWrite {i : Instr} (hw : i.wellFormed = true) {s : State} {k : Nat} (h : FirstFault (planOf i s) s k)
    (p : Prim) (hp : p ∈ planOf i s) (reg : Fin 4) (v : Half) : p ≠ .cfgWrite reg v := by
  rintro rfl
  obtain ⟨plan, r⟩ := exists_runsPlan i s
  rw [r.planOf_eq hw] at hp
  obtain rfl : i = .cfgWrite reg v := r.permitted _ hp
  obtain ⟨q, hq, hpoint⟩ := firstFault_exists_faultPoint h
  rw [planOf_cfgWrite, List.mem_singleton] at hq
  simp [hq, isFaultPoint] at hpoint

/-! ## The events up to the fault -/

theorem transferEvents_take (s : State) (bytes : List Byte) {j : Nat} (hj : j ≤ bytes.length) (i : Nat) :
    transferEvents s i (bytes.take j) = (transferEvents s i bytes).take j := by
  simp [transferEvents, incomingBytes, List.take_zipWith, ← List.map_take, List.take_range, hj]

/-- R144: a serial primitive stopped after `j` bytes uses one answer more, and that is the fault's. -/
theorem exists_grew_stoppedAt {s u : State} {ev : List Event} {j : Nat} (n : Nat) (g : Grew s u ev j) :
    ∃ v, stoppedAt j n u = transportFault v ∧ Grew s v ev (j + 1) := by
  have gtick : Grew s u.tick ev (j + 1) := by simpa using g.trans (grew_tick u)
  refine ⟨_, rfl, ?_⟩
  split_ifs
  · simpa using gtick.trans (grew_leaveSdo u.answer u.tick)
  · exact gtick

/-- R144: a primitive stopped at its step `j` has the events of its steps before, and enters the fault. -/
theorem exists_grew_stopped {fp : FaultPoints} {p : Prim} (hp : isFaultPoint fp p = true) {j : Nat} (hj : j < p.steps)
    (s : State) : ∃ v, p.stopped j s = transportFault v ∧ Grew s v ((primEvents s 0 p).take j).flatten (j + 1) := by
  cases p with
  | drive _ _ | wait _ =>
    obtain rfl : j = 0 := by simpa [Prim.steps] using hj
    exact ⟨s.tick, rfl, grew_tick s⟩
  | busWrite bytes =>
    have hlen : j ≤ bytes.length := Nat.le_of_lt_succ hj
    have g := grew_foldl_writeByte (bytes.take j) s
    rw [List.length_take, Nat.min_eq_left hlen] at g
    rw [primEvents, List.take_append_of_le_length (by simpa using hlen), ← List.map_take, flatten_map_singleton]
    exact exists_grew_stoppedAt bytes.length g
  | busTransfer bytes =>
    have hlen : j ≤ bytes.length := Nat.le_of_lt_succ hj
    have g := grew_foldl_transferByte (bytes.take j) s
    rw [List.length_take, Nat.min_eq_left hlen, transferEvents_take s bytes hlen] at g
    rw [primEvents, List.take_append_of_le_length (by simpa using hlen), ← List.map_take,
      flatten_map_singleton_id]
    exact exists_grew_stoppedAt bytes.length g
  | cfgWrite _ _ | cfgRead _ => simp [isFaultPoint] at hp

/-- R144, R39: an operation without a register write whose first fault is at step `k` has the events of the steps before, and
enters the fault. -/
theorem operate_fault_grew {plan : List Prim} {s : State} {k : Nat} (l : Latches) (h : FirstFault plan s k)
    (hc : ∀ p ∈ plan, ∀ reg v, p ≠ .cfgWrite reg v) :
    ∃ v, operate l plan s = .next (transportFault v) ∧
      Grew (started l s) v ((planEvents s 1 plan).take k).flatten (k + 1) := by
  obtain ⟨pre, p, post, j, rfl, rfl, hj, hp, he⟩ := operate_firstFault l plan s k h
  obtain ⟨g, hcfg⟩ := grew_planEffect pre (fun q hq => hc q (by simp [hq])) (started l s)
  obtain ⟨v, hv, gv⟩ := exists_grew_stopped hp hj (planEffect pre (started l s))
  refine ⟨v, hv ▸ he, ?_⟩
  rw [← started_planEvents l, take_planEvents _ _ _ _ hj, List.flatten_append, Nat.zero_add]
  rw [g.primEvents hcfg] at gv
  exact g.trans gv

/-- R144: what the fault entry then leaves, apart from pins, configuration registers and result buffer. -/
theorem ended_transportFault {s v : State} {l : Latches} {ev : List Event} {k : Nat} (g : Grew (started l s) v ev k) :
    Ended s (transportFault v) l (ev ++ [.fault]) ⟨.transportFault, []⟩ (k + 1) where
  seq := rfl
  latches := g.latches
  trace := by simp [g.trace]
  stamps := by
    obtain ⟨ts, hts, hlen⟩ := g.stamps
    exact ⟨ts ++ [v.now], by simp [hts], by simp [hlen]⟩
  now := (tick_now_le s).trans g.now
  host := by simp [g.host]
  params := g.params
  resetInput := g.resetInput
  answers := by simp [g.answers, Nat.add_comm k]
  draws := by simp [g.draws]; omega

/-! ## The control lines along the trace (R20) -/

@[simp] theorem level_leaveSdo (a : Answer) (s : State) (line : ControlLine) :
    level (leaveSdo a s).pins line = level s.pins line := by
  cases line <;> rfl

/-- The control lines have followed the events since `s`. -/
def LinesFollow (s u : State) : Prop :=
  ∃ ev, u.trace = s.trace ++ ev ∧ ∀ line, level u.pins line = lineLevel (level s.pins line) line ev

theorem linesFollow_refl (s : State) : LinesFollow s s := ⟨[], by simp, fun _ => rfl⟩

theorem LinesFollow.emit {s u v : State} {e : Event} (h : LinesFollow s u) (htrace : v.trace = u.trace ++ [e])
    (hpins : ∀ line, level v.pins line = lineLevel (level u.pins line) line [e]) : LinesFollow s v := by
  obtain ⟨ev, hev, hline⟩ := h
  exact ⟨ev ++ [e], by rw [htrace, hev, List.append_assoc], fun line => by rw [hpins, hline, lineLevel_append]⟩

theorem LinesFollow.writeCfg {s u : State} (reg : Fin 4) (v : Half) (h : LinesFollow s u) :
    LinesFollow s (Machine.writeCfg reg v u) := by
  by_cases hreg : reg = 0
  · exact h.emit (by simp [hreg]; rfl) fun line => by cases line <;> simp [hreg, level, lineLevel]
  · obtain ⟨ev, hev, hline⟩ := h
    exact ⟨ev, by simpa [hreg] using hev, fun line => by simpa [hreg] using hline line⟩

theorem seqKept_linesFollow (s : State) : SeqKept (LinesFollow s) where
  seq _ _ h := h
  rx _ _ h := h
  receive _ _ h := h
  elapse _ h := h
  tick _ h := h
  sdo a u h := by
    obtain ⟨ev, hev, hline⟩ := h
    exact ⟨ev, hev, fun line => (level_leaveSdo a u line).trans (hline line)⟩
  drive line l u h := h.emit rfl fun line' => by cases line <;> cases line' <;> rfl
  write b a u h := h.emit rfl fun line => by cases line <;> rfl
  transfer b a u h := h.emit rfl fun line => by cases line <;> rfl
  wait d u h := h.emit rfl fun line => by cases line <;> rfl
  cfgWrite reg v u h := h.writeCfg reg v
  fault u h := h.emit rfl fun line => by cases line <;> rfl

end Sys2Proof.Machine
end

section
/-! PROOFS. What a fault leaves of the pins (R144), the levels with `FAULT_POINTS = serial_only` (R145), and the statements of
spec/60_exceptions.md. -/

namespace Sys2Proof.Machine
open Sys2Proof.Safety

/-! ## Faults at serial primitives alone (R143, R145) -/

/-- R144, U3: the pins that a fault at step `j` of a serial primitive leaves. -/
theorem stopped_serial_pins {p : Prim} {bytes : List Byte} (hp : p = .busWrite bytes ∨ p = .busTransfer bytes) {j : Nat}
    (hj : j ≤ bytes.length) (s : State) : (p.stopped j s).pins =
      if j < bytes.length then { pinsAfterBytes (bytes.take j) s with sdo := (s.answerAt j).sdo }
      else pinsAfterBytes bytes s := by
  obtain rfl | rfl := hp
  · exact stopped_busWrite_pins j bytes s hj
  · exact stopped_busTransfer_pins j bytes s hj

/-- R143: a list of primitives that cannot fault meets no fault. -/
theorem noFault_of_no_faultPoint {plan : List Prim} {s : State}
    (h : ∀ p ∈ plan, isFaultPoint s.params.faultPoints p = false) : NoFault plan s := by
  obtain hno | ⟨k, hk⟩ := noFault_or_firstFault plan s
  · exact hno
  · obtain ⟨p, hp, hpoint⟩ := firstFault_exists_faultPoint hk
    simp [h p hp] at hpoint

/-- R70, R20: an operation that meets no fault completes with code 0 and appends no `FAULT`. -/
theorem operate_ok_without_fault {plan : List Prim} {s : State} (l : Latches) (h : NoFault plan s) :
    ∃ (t : State) (c : Completion), operate l plan s = .next t ∧ t.host = s.host.receive c ∧ c.code = .ok ∧
      Event.fault ∉ t.trace.drop s.trace.length := by
  obtain ⟨ev, g, hev⟩ := exists_grew_planEffect plan (started l s)
  have hended := ended_of_grew g (planEffect plan (started l s)).rx
  exact ⟨_, _, operate_noFault l plan s h, hended.host, rfl, by rwa [hended.trace, List.drop_left]⟩

/-- R143: an operation that clocks no byte has no fault point with `FAULT_POINTS = serial_only`. -/
theorem RunsPlan.noFault_of_serialOnly {i : Instr} {s : State} {plan : List Prim} (r : RunsPlan i s plan)
    (hi : clocksBytes i = false) (hserial : s.params.faultPoints = .serialOnly) : NoFault plan s := by
  refine noFault_of_no_faultPoint fun p hp => ?_
  have hperm := r.permitted p hp
  cases p with
  | busWrite bytes => simp [permits, hi] at hperm
  | busTransfer bytes => simp [permits, hi] at hperm
  | drive _ _ | wait _ => simp [isFaultPoint, hserial]
  | cfgWrite _ _ | cfgRead _ => rfl

/-- R144: a fault at a serial primitive leaves every control line as the primitives before it left it. -/
theorem operate_serial_fault {plan : List Prim} {s : State} {k : Nat} (l : Latches)
    (hserial : s.params.faultPoints = .serialOnly) (h : FirstFault plan s k) :
    ∃ pre p post j t, plan = pre ++ p :: post ∧ k = stepCount pre + j ∧ j < p.steps ∧
      isFaultPoint .serialOnly p = true ∧ operate l plan s = .next t ∧
      ∀ line, level t.pins line = level (planEffect pre (started l s)).pins line := by
  obtain ⟨pre, p, post, j, hplan, hk, hj, hp, he⟩ := operate_firstFault l plan s k h
  rw [hserial] at hp
  refine ⟨pre, p, post, j, _, hplan, hk, hj, hp, he, fun line => ?_⟩
  refine (framed_stopped p j _).line line fun lv hm => ?_
  obtain rfl := List.mem_singleton.mp hm
  simp [isFaultPoint] at hp

/-- An element of a list in two parts stands in the first or in the second. -/
theorem append_eq_append_cons {α : Type} {as bs pre post : List α} {a : α} (h : as ++ bs = pre ++ a :: post) :
    (∃ mid, as = pre ++ a :: mid) ∨ ∃ mid, pre = as ++ mid ∧ bs = mid ++ a :: post := by
  obtain hright | ⟨mid, has, hpost⟩ := List.append_eq_append_iff.mp h
  · exact .inr hright
  · obtain ⟨rfl, rfl⟩ | ⟨mid, rfl, -⟩ := List.cons_eq_append_iff.mp hpost
    · exact .inr ⟨[], by simpa using has.symm, rfl⟩
    · exact .inl ⟨mid, has⟩

/-- Where the one primitive of a list that can fault stands. -/
theorem split_at_serial {pins rest pre post : List Prim} {p q : Prim}
    (hpins : ∀ r ∈ pins, isFaultPoint .serialOnly r = false) (hrest : ∀ r ∈ rest, isFaultPoint .serialOnly r = false)
    (h : pins ++ q :: rest = pre ++ p :: post) (hp : isFaultPoint .serialOnly p = true) : pre = pins ∧ p = q := by
  obtain ⟨mid, rfl⟩ | ⟨mid, rfl, hmid⟩ := append_eq_append_cons h
  · simp [hpins p (by simp)] at hp
  · obtain ⟨rfl, hq⟩ | ⟨mid, rfl, rfl⟩ := List.cons_eq_append_iff.mp hmid
    · exact ⟨List.append_nil pins, (List.cons_eq_cons.mp hq).1⟩
    · simp [hrest p (by simp)] at hp

/-- R145: the one serial primitive of an operation, with `FAULT_POINTS = serial_only`: a fault leaves `CS` and `DC` as the
drives before it left them. -/
theorem operate_fault_levels {pins rest : List Prim} {q : Prim} {s : State} {k : Nat} (l : Latches)
    (hserial : s.params.faultPoints = .serialOnly) (hpins : ∀ r ∈ pins, isFaultPoint .serialOnly r = false)
    (hrest : ∀ r ∈ rest, isFaultPoint .serialOnly r = false) (h : FirstFault (pins ++ q :: rest) s k) :
    ∃ t, operate l (pins ++ q :: rest) s = .next t ∧ k < stepCount pins + q.steps ∧
      t.pins.cs = (planEffect pins (started l s)).pins.cs ∧ t.pins.dc = (planEffect pins (started l s)).pins.dc := by
  obtain ⟨pre, p, post, j, t, hplan, rfl, hj, hp, he, hline⟩ := operate_serial_fault l hserial h
  obtain ⟨rfl, rfl⟩ := split_at_serial hpins hrest hplan hp
  exact ⟨t, he, by omega, hline .cs, hline .dc⟩

/-- R145: WRITE and TRANSFER have no other primitive, and leave `CS` and `DC` as they were. -/
theorem operate_fault_alone {q : Prim} {s : State} {k : Nat} (l : Latches)
    (hserial : s.params.faultPoints = .serialOnly) (h : FirstFault [q] s k) :
    ∃ t, operate l [q] s = .next t ∧ t.pins.cs = s.pins.cs ∧ t.pins.dc = s.pins.dc := by
  obtain ⟨t, he, -, hlevels⟩ := operate_fault_levels (pins := []) (rest := []) l hserial (by simp) (by simp) h
  exact ⟨t, he, hlevels⟩

/-- R145: COMMAND and READ_REGISTER begin alike: a fault up to step 3 is at the opcode, with `DC` low; a later one
is after `DC=1`. -/
theorem operate_fault_frame {opcode : Byte} {q : Prim} {rest : List Prim} {s : State} {k : Nat} (l : Latches)
    (hserial : s.params.faultPoints = .serialOnly) (hrest : ∀ r ∈ rest, isFaultPoint .serialOnly r = false)
    (h : FirstFault (readLead opcode ++ q :: rest) s k) :
    ∃ t, operate l (readLead opcode ++ q :: rest) s = .next t ∧ t.pins.cs = .low ∧
      t.pins.dc = if k < 4 then .low else .high := by
  obtain ⟨pre, p, post, j, t, hplan, rfl, hj, hp, he, hline⟩ := operate_serial_fault l hserial h
  obtain ⟨mid, hlead⟩ | ⟨mid, rfl, htail⟩ := append_eq_append_cons hplan
  · obtain ⟨rfl, rfl⟩ := split_at_serial (pins := [.drive .cs .low, .drive .dc .low]) (rest := [.drive .dc .high])
      (by simp [isFaultPoint]) (by simp [isFaultPoint]) hlead hp
    refine ⟨t, he, hline .cs, (hline .dc).trans ?_⟩
    rw [if_pos (by simp [stepCount, Prim.steps] at hj ⊢; omega)]
    rfl
  · obtain ⟨rfl, -⟩ := split_at_serial (pins := []) (by simp) hrest htail hp
    have hcs : (planEffect (readLead opcode) (started l s)).pins.cs = .low := by
      simp [readLead, planEffect, Prim.effect, pinsAfterBytes]
    have hdc : (planEffect (readLead opcode) (started l s)).pins.dc = .high := by
      simp [readLead, planEffect, Prim.effect]
    rw [List.append_nil] at hline
    refine ⟨t, he, (hline .cs).trans hcs, ((hline .dc).trans hdc).trans ?_⟩
    rw [if_neg (by simp [readLead, stepCount, Prim.steps]; omega)]

/-- R90: COMMAND's frame after its opcode and `DC=1`. -/
theorem commandPlan_eq_readLead (opcode : Byte) (payload : List Byte) : ∃ q rest,
    commandPlan opcode payload = readLead opcode ++ q :: rest ∧ ∀ r ∈ rest, isFaultPoint .serialOnly r = false := by
  by_cases h : payload = []
  · exact ⟨.drive .cs .high, [], by simp [h, commandPlan_nil, readLead], by simp⟩
  · exact ⟨.busWrite payload, [.drive .cs .high], by simp [commandPlan_of_ne_nil opcode h, readLead],
      by simp [isFaultPoint]⟩

/-- R101, R145: SW_RESET does not wait before its opcode is sent. -/
theorem wait_notMem_swResetPlan_lead (c : Cfg) (s : State) {k : Nat} (hk : k < 4) (d : Half) :
    Event.wait d ∉ ((planEvents s 1 (swResetPlan c)).take k).flatten := by
  interval_cases k <;> simp [swResetPlan, commandPlan_nil, planEvents, primEvents]

end Sys2Proof.Machine

namespace Sys2Proof.Proofs
open Sys2Proof.Machine Sys2Proof.Safety

/-- Settles O24: the events up to the fault, and the control lines that follow them. -/
theorem faultKeepsAPrefix : Obligations.FaultKeepsAPrefix := by
  intro i s k hw h
  have hplan : ∀ p ∈ planOf i s, ∀ reg v, p ≠ .cfgWrite reg v := planOf_ne_cfgWrite hw h
  obtain ⟨v, he, g⟩ := operate_fault_grew (latchesOf (encode i)) h hplan
  have hended := ended_transportFault g
  obtain ⟨-, hframe, -⟩ := framed_operate he
  obtain ⟨hcfg, hbl⟩ := hframe fun reg x hm => hplan _ hm reg x rfl
  rw [← exec_eq_operate_planOf hw s] at he
  have hclock (hs : ClockIdle s) : ClockIdle (transportFault v) := seqKept_clockIdle.exec (fun _ _ hu => hu) hs he
  obtain ⟨ev, hev, hline⟩ := (seqKept_linesFollow s).exec (fun _ _ hu => hu) (linesFollow_refl s) he
  obtain rfl := List.append_cancel_left (hended.trace.symm.trans hev)
  refine ⟨_, he, hended, rfl, hcfg, hbl, hclock, fun line => ?_⟩
  rw [hline, lineLevel_append]
  rfl

/-- Settles O25: the primitives before the faulting one, the only serial one or the first or second of a frame. -/
theorem pinLevelsAfterAFault : Obligations.PinLevelsAfterAFault := by
  intro s k opcode count bytes hserial
  refine ⟨fun h => ?_, fun h => ?_, fun h => ?_, fun h => ?_, fun h => ?_, fun h => ?_⟩
  · exact operate_fault_alone _ hserial h
  · exact operate_fault_alone _ hserial h
  · obtain ⟨q, rest, hplan, hrest⟩ := commandPlan_eq_readLead opcode bytes
    rw [hplan] at h
    obtain ⟨t, he, hlevels⟩ := operate_fault_frame ⟨0x10, opcode, lenOf bytes, bytes⟩ hserial hrest h
    rw [← hplan] at he
    exact ⟨t, he, hlevels⟩
  · exact operate_fault_frame (rest := [.drive .cs .high]) _ hserial (by simp [isFaultPoint]) h
  · obtain ⟨t, he, -, hlevels⟩ := operate_fault_levels (pins := [.drive .dc .high, .drive .cs .low])
      (rest := [.drive .cs .high]) ⟨0x12, 0, lenOf bytes, bytes⟩ hserial (by simp [isFaultPoint])
      (by simp [isFaultPoint]) h
    exact ⟨t, he, hlevels⟩
  · obtain ⟨t, he, hk, hcs, hdc⟩ := operate_fault_levels (pins := [.drive .cs .low, .drive .dc .low])
      (rest := [.drive .dc .high, .drive .cs .high, .wait s.cfg.tSwrst]) ⟨0x21, 0, 0, []⟩ hserial
      (by simp [isFaultPoint]) (by simp [isFaultPoint]) h
    obtain ⟨v, hv, g⟩ := operate_fault_grew (plan := swResetPlan s.cfg) ⟨0x21, 0, 0, []⟩ h
      (by simp [swResetPlan, commandPlan_nil])
    obtain rfl : transportFault v = t := Host.Outcome.next.inj (hv.symm.trans he)
    refine ⟨_, he, hcs, hdc, fun d hm => ?_⟩
    rw [(ended_transportFault g).trace, List.drop_left] at hm
    exact wait_notMem_swResetPlan_lead s.cfg s hk d (by simpa using hm)

/-- Settles O26: the faulted primitive enters the fault in the state that the list before it leaves. -/
theorem pinStepFaultHasNoEffect : Obligations.PinStepFaultHasNoEffect := by
  intro s l before after p hall hp hbefore hfault
  rw [length_faultSteps] at hfault
  obtain ⟨hsteps, hpoint⟩ : 0 < p.steps ∧ isFaultPoint .allPrimitives p = true := by
    obtain ⟨line, lv, rfl⟩ | ⟨d, rfl⟩ := hp <;> exact ⟨Nat.one_pos, rfl⟩
  have hfirst : FirstFault (before ++ p :: after) s (stepCount before) :=
    (firstFault_append_iff hsteps).mpr ⟨hall ▸ hpoint, hfault, hbefore, rfl⟩
  refine ⟨_, operate_noFault l before s hbefore, ?_⟩
  rw [operate_pinFault l hp hfirst, ← started_host l s, ← planEffect_host before (started l s)]
  rfl

/-- Settles O27: the list up to the faulted wait, and the fault entered after it. -/
theorem faultedWaitTakesNoTime : Obligations.FaultedWaitTakesNoTime := by
  intro s _
  refine ⟨fun h => ?_, fun h => ?_, fun h => ?_⟩
  · refine ⟨_, operate_pinFault (pre := [.drive .rst .low]) _ (.inr ⟨_, rfl⟩) h, ?_⟩
    simp [planEffect, Prim.effect]
  · refine ⟨_, operate_pinFault (pre := [.drive .rst .low, .wait s.cfg.tRstLow, .drive .rst .high]) _
      (.inr ⟨_, rfl⟩) h, ?_⟩
    simp [planEffect, Prim.effect]
  · refine ⟨_, operate_pinFault (pre := commandPlan 0x01 []) _ (.inr ⟨_, rfl⟩) h, ?_⟩
    simp [commandPlan_nil, planEffect, Prim.effect, moved]

/-- Settles O31: none of these operations has a fault point. -/
theorem operationsWithoutBytesCannotFault : Obligations.OperationsWithoutBytesCannotFault := by
  rintro i s hi (hserial | ⟨reg, v, rfl⟩ | ⟨reg, rfl⟩)
  · obtain ⟨plan, r⟩ := exists_runsPlan i s
    rw [r.exec_eq]
    exact operate_ok_without_fault _ (r.noFault_of_serialOnly hi hserial)
  · rw [exec_cfgWrite_eq]
    exact operate_ok_without_fault _ (noFault_cfgWrite reg v s)
  · rw [exec_cfgRead_eq]
    exact operate_ok_without_fault _ (noFault_cfgRead reg s)

/-- Settles O58: the pins of the stopped primitive, seen from the state that the list before it leaves. -/
theorem serialFaultKeepsThePins : Obligations.SerialFaultKeepsThePins := by
  intro i s before after p bytes j hw hplan hp hj h
  rw [exec_eq_operate_planOf hw s, hplan, length_faultSteps]
  rw [hplan, length_faultSteps] at h
  have hsteps : j < p.steps := by obtain rfl | rfl := hp <;> exact Nat.lt_succ_of_le hj
  obtain ⟨hbefore, he⟩ := operate_stopped (latchesOf (encode i)) hsteps h
  refine ⟨_, _, operate_noFault _ before s hbefore, he, ?_⟩
  rw [complete_pins, State.tick_pins, stopped_serial_pins hp hj]
  refine ⟨?_, ?_, ?_⟩
  · rintro rfl
    simp [pinsAfterBytes]
  · rintro hne rfl
    have hpos : 0 < bytes.length := List.length_pos_of_ne_nil hne
    rw [if_neg (lt_irrefl _), pinsAfterBytes, if_neg hne, answerAt_planEffect, Nat.add_assoc, Nat.sub_add_cancel hpos]
  · intro hlt
    rw [if_pos hlt]
    cases j with
    | zero => exact ⟨_, by simp [pinsAfterBytes]; rfl⟩
    | succ j =>
      have hne : bytes.take (j + 1) ≠ [] := List.ne_nil_of_length_pos (by rw [List.length_take]; omega)
      exact ⟨_, by rw [pinsAfterBytes, if_neg hne, if_neg j.succ_ne_zero]⟩

end Sys2Proof.Proofs
end

section
/-! PROOFS. Block reset (R170), and what the observer makes of the two reset operations (R181, R182). -/

namespace Sys2Proof.Machine

/-- R170: block reset comes before everything else a step may do. -/
theorem step_of_resetInput {s : State} (hreset : s.resetInput = true) : step s = .next (blockReset s) := if_pos hreset

end Sys2Proof.Machine

namespace Sys2Proof.Safety
open Sys2Proof.Machine

/-! ## The observer through the pulse of HW_RESET (R22 (2)) -/

section
variable (m : Monitor) (p : Params) (t : Time)

@[simp] theorem take_rst_hazards (l : Level) : (Monitor.take p m (.drive .rst l) t).hazards = m.hazards := by
  cases l with
  | low => rfl
  | high => simp only [Monitor.take]; split <;> rfl

@[simp] theorem observe_rst_hazards (l : Level) :
    (Monitor.observe p m (.drive .rst l) t).hazards = m.hazards := by simp [Monitor.observe]

@[simp] theorem observe_rst_low_lowSince : (Monitor.observe p m (.drive .rst .low) t).lowSince = some t := by
  simp [Monitor.observe, Monitor.take]

/-- R22 (2): a low pulse of 50 ms counts from the `RST=1` event that ends it. -/
theorem observe_rst_high_highSince {low : Time} (hlow : m.lowSince = some low) (hpulse : low.ms + 50 ≤ t.ms) :
    (Monitor.observe p m (.drive .rst .high) t).highSince = some t := by
  simp [Monitor.observe, Monitor.take, hlow, hpulse]

end

/-- R22 (2): the pulse is complete 50 ms after the event that ended its low part. -/
theorem resetDone_of_highSince {m : Monitor} {high t : Time} (h : m.highSince = some high)
    (hrest : high.ms + 50 ≤ t.ms) : m.resetDone t = true := by
  simp [Monitor.resetDone, h, hrest]

/-- R100, R22 (2): after the events of HW_RESET the observer knows of a low pulse of 50 ms, and of no hazard more. -/
theorem monitor_hwReset {s t : State} {d1 d2 : Half} {low w1 high w2 : Time} (hlen : s.stamps.length = s.trace.length)
    (htrace : t.trace = s.trace ++ [.drive .rst .low, .wait d1, .drive .rst .high, .wait d2])
    (hstamps : t.stamps = s.stamps ++ [low, w1, high, w2]) (hparams : t.params = s.params)
    (hpulse : low.ms + 50 ≤ high.ms) :
    (monitor t).highSince = some high ∧ (monitor t).hazards = (monitor s).hazards := by
  rw [monitor_append hlen htrace hstamps hparams]
  constructor
  · simp [observe_rst_high_highSince (low := low), hpulse]
  · simp

/-! ## The observer through the settle window of SW_RESET (R22 (1)) -/

/-- R22 (1): the settle window is over 120 ms after the opcode byte 0x01. -/
theorem settling_eq_false_of_swResetAt {m : Monitor} {sent t : Time} (h : m.swResetAt = some sent)
    (hwindow : sent.ms + 120 ≤ t.ms) : m.settling t = false := by
  simp [Monitor.settling, h, hwindow]

/-- R101, R31: of the events of SW_RESET the byte comes with `DC` low, and so is the latest opcode byte 0x01. -/
theorem monitor_swReset {s t : State} {d : Half} {cs0 dc0 sent dc1 cs1 w : Time}
    (hlen : s.stamps.length = s.trace.length)
    (htrace : t.trace = s.trace ++
      [.drive .cs .low, .drive .dc .low, .tx 0x01, .drive .dc .high, .drive .cs .high, .wait d])
    (hstamps : t.stamps = s.stamps ++ [cs0, dc0, sent, dc1, cs1, w]) (hparams : t.params = s.params) :
    (monitor t).swResetAt = some sent := by
  rw [monitor_append hlen htrace hstamps hparams]
  simp only [List.zip_cons_cons, List.zip_nil_left, List.foldl_cons, List.foldl_nil, observe_wait, follow_swResetAt,
    observe_drive_swResetAt, observe_tx_swResetAt, observe_drive_dc, and_self, if_true]

end Sys2Proof.Safety

namespace Sys2Proof.Proofs
open Sys2Proof.Machine Sys2Proof.Safety

/-- Settles O46: the pulse is as long as `CR1` says and the completion as late as `CR2` says, and neither register is below
50 (R16). -/
theorem hwResetMeetsThePulseRule : Obligations.HwResetMeetsThePulseRule := by
  rintro s ⟨-, hcr1, hcr2, -, -⟩ ⟨-, hlen, -, -, -⟩ h
  have hcr1 : (50 : ℝ) ≤ s.cfg.tRstLow.toNat := by exact_mod_cast hcr1
  have hcr2 : (50 : ℝ) ≤ s.cfg.tRstHigh.toNat := by exact_mod_cast hcr2
  obtain ⟨t, low, w1, high, w2, he, hended, -, -, -, hstamps, -, hlow, hhigh⟩ := exec_hwReset_ran h
  obtain ⟨hsince, hhazards⟩ := monitor_hwReset hlen hended.trace hstamps hended.params (by linarith)
  exact ⟨t, he, resetDone_of_highSince hsince (by linarith), hhazards⟩

/-- Settles O47: from the opcode byte to the completion passes what `CR3` says, and `CR3` is not below 120 (R16). -/
theorem swResetOutlastsTheSettleWindow : Obligations.SwResetOutlastsTheSettleWindow := by
  rintro s ⟨-, -, -, hcr3, -⟩ ⟨-, hlen, -, -, -⟩ h
  have hcr3 : (120 : ℝ) ≤ s.cfg.tSwrst.toNat := by exact_mod_cast hcr3
  obtain ⟨t, cs0, dc0, sent, dc1, cs1, w, he, hended, ⟨v, hpins⟩, -, -, hstamps, -, hsent⟩ := exec_swReset_ran h
  have hsince : (monitor t).swResetAt = some sent := monitor_swReset hlen hended.trace hstamps hended.params
  exact ⟨t, he, Option.isSome_of_mem hsince, settling_eq_false_of_swResetAt hsince (by linarith),
    congrArg Pins.cs hpins⟩

/-- Settles O12: the state that the step answers is `blockReset`'s, whose time is 0 again. -/
theorem blockResetStep : Obligations.BlockResetStep := fun s hreset =>
  ⟨blockReset s, step_of_resetInput hreset, rfl, rfl, rfl, rfl, rfl, rfl, rfl, Time.ms_restart s.now, rfl, rfl, rfl, rfl,
    rfl⟩

end Sys2Proof.Proofs
end
